-- ==== Sys2Proof/Word.lean ====
section
/-!
DEFINITION. Word.lean: the two word types of CORE.
An instruction word has 32 bits (30_encoding.md R100) and a DMEM location one byte (20_memory.md R72).
Field elements are natural numbers, not words: see Machine/State.lean.
-/
namespace Sys2Proof

/-- One instruction word, one IMEM location (R71, R100). -/
abbrev Word := BitVec 32

/-- One DMEM location (R72). -/
abbrev Byte := BitVec 8

end Sys2Proof
end

