-- ==== Sys2Proof/Syntax.lean ====
section
/-!
DEFINITION. Syntax.lean: the instructions of CORE-ISA 1.0, one constructor per row of the opcode table
(30_encoding.md R110, 46 rows). Every operand field has exactly the values its encoding admits.
-/
namespace Sys2Proof

/-- A field register number 0..31 (R31, R106). -/
abbrev FIdx := Fin 32

/-- A counter register number 0..7 (R36, R103). -/
abbrev CIdx := Fin 8

/-- Which half of a GF(p^2) register: `.a` encoded 0, `.b` encoded 1 (R16, R108). -/
inductive Half where
  | a
  | b
deriving DecidableEq, Repr

/-- The instruction set. Operand names are those of the encoding fields (R102 to R108); in the memory
instructions `rd` is the register field whether it is loaded or stored (R105). -/
inductive Instr where
  -- 41_control.md
  | nop
  | halt
  | ldi (cr : CIdx) (imm : BitVec 16)
  | addi (cr : CIdx) (imm : BitVec 16)
  | jmp (imm : BitVec 16)
  | djnz (cr : CIdx) (imm : BitVec 16)
  -- 42_memory_ops.md
  | ldf (rd : FIdx) (cr : CIdx) (imm : BitVec 16)
  | stf (rd : FIdx) (cr : CIdx) (imm : BitVec 16)
  | ldfm (rd : FIdx) (cr : CIdx) (imm : BitVec 16)
  | stfm (rd : FIdx) (cr : CIdx) (imm : BitVec 16)
  | selld (cr : CIdx) (imm : BitVec 16)
  | selst (cr : CIdx) (imm : BitVec 16)
  -- 43_fp.md
  | fpadd (rd : FIdx) (hd : Half) (ra : FIdx) (ha : Half) (rb : FIdx) (hb : Half)
  | fpsub (rd : FIdx) (hd : Half) (ra : FIdx) (ha : Half) (rb : FIdx) (hb : Half)
  | fpneg (rd : FIdx) (hd : Half) (ra : FIdx) (ha : Half)
  | fpmul (rd : FIdx) (hd : Half) (ra : FIdx) (ha : Half) (rb : FIdx) (hb : Half)
  | fpinv (rd : FIdx) (hd : Half) (ra : FIdx) (ha : Half)
  | fpmov (rd : FIdx) (hd : Half) (ra : FIdx) (ha : Half)
  | fptom (rd : FIdx) (hd : Half) (ra : FIdx) (ha : Half)
  | fpfrm (rd : FIdx) (hd : Half) (ra : FIdx) (ha : Half)
  -- 44_fp2.md
  | f2add (rd ra rb : FIdx)
  | f2sub (rd ra rb : FIdx)
  | f2mul (rd ra rb : FIdx)
  | f2sqr (rd ra : FIdx)
  | f2inv (rd ra : FIdx)
  | f2conj (rd ra : FIdx)
  | f2mov (rd ra : FIdx)
  | f2cmov (rd ra : FIdx)
  | f2eq (ra rb : FIdx)
  | f2isz (ra : FIdx)
  | f2inv3 (rd ra rb : FIdx)
  | f2invn (rd ra : FIdx) (n : BitVec 11)
  -- 45_curve.md
  | xdbl (rd ra rb : FIdx)
  | xdble (rd ra rb : FIdx) (e : BitVec 11)
  | xtpl (rd ra rb : FIdx)
  | xtple (rd ra rb : FIdx) (e : BitVec 11)
  | xadd (rd ra rb rc : FIdx)
  | xdbladd (rd ra rb rc : FIdx)
  -- 46_isogeny.md
  | get4iso (rd ra rc : FIdx)
  | eval4iso (rd ra rb : FIdx)
  | get3iso (rd ra rc : FIdx)
  | eval3iso (rd ra rb : FIdx)
  | jinvAc (rd ra : FIdx)
  | jinvP24 (rd ra : FIdx)
  | jinvM24 (rd ra : FIdx)
  | geta (rd ra rb rc : FIdx)
deriving DecidableEq, Repr

end Sys2Proof
end

