-- ==== Sys2Proof/WellFormed.lean ====
section
/-!
DEFINITION. WellFormed.lean: the operand checks of 30_encoding.md R114 (a register group must lie within F[31])
and R115 (two destinations of one instruction must not share a register). A word whose instruction fails them
is an instruction that raises `IllegalOperand`; it is not an undecodable word (R116).
-/
namespace Sys2Proof

/-- A pair operand named `k` is `F[k], F[k+1]`: `0 <= k <= 30` (R33, R114). -/
def pairOk (k : FIdx) : Bool := k.val ≤ 30

/-- A triple operand named `k` is `F[k], F[k+1], F[k+2]`: `0 <= k <= 29` (R33, R114). -/
def tripleOk (k : FIdx) : Bool := k.val ≤ 29

/-- A vector operand `(k, n)` is `F[k] .. F[k+n-1]`: `k + n <= 32` (R33, R114). -/
def vectorOk (k : FIdx) (n : Nat) : Bool := k.val + n ≤ 32

/-- The register ranges `F[j] .. F[j+m-1]` and `F[k] .. F[k+n-1]` share no register (R115). -/
def disjoint (j : FIdx) (m : Nat) (k : FIdx) (n : Nat) : Bool := j.val + m ≤ k.val || k.val + n ≤ j.val

/-- R114 and R115 for every instruction. An instruction with single-register operands and one destination
has nothing to check. -/
def Instr.wellFormed : Instr → Bool
  | .nop => true
  | .halt => true
  | .ldi _ _ => true
  | .addi _ _ => true
  | .jmp _ => true
  | .djnz _ _ => true
  | .ldf _ _ _ => true
  | .stf _ _ _ => true
  | .ldfm _ _ _ => true
  | .stfm _ _ _ => true
  | .selld _ _ => true
  | .selst _ _ => true
  | .fpadd _ _ _ _ _ _ => true
  | .fpsub _ _ _ _ _ _ => true
  | .fpneg _ _ _ _ => true
  | .fpmul _ _ _ _ _ _ => true
  | .fpinv _ _ _ _ => true
  | .fpmov _ _ _ _ => true
  | .fptom _ _ _ _ => true
  | .fpfrm _ _ _ _ => true
  | .f2add _ _ _ => true
  | .f2sub _ _ _ => true
  | .f2mul _ _ _ => true
  | .f2sqr _ _ => true
  | .f2inv _ _ => true
  | .f2conj _ _ => true
  | .f2mov _ _ => true
  | .f2cmov _ _ => true
  | .f2eq _ _ => true
  | .f2isz _ => true
  | .f2inv3 rd ra rb => rd ≠ ra && rd ≠ rb && ra ≠ rb
  | .f2invn rd ra n => 1 ≤ n.toNat && n.toNat ≤ 32 && vectorOk rd n.toNat && vectorOk ra n.toNat
  | .xdbl rd ra rb => pairOk rd && pairOk ra && pairOk rb
  | .xdble rd ra rb _ => pairOk rd && pairOk ra && pairOk rb
  | .xtpl rd ra rb => pairOk rd && pairOk ra && pairOk rb
  | .xtple rd ra rb _ => pairOk rd && pairOk ra && pairOk rb
  | .xadd rd ra rb _ => pairOk rd && pairOk ra && pairOk rb
  | .xdbladd rd ra _ rc => pairOk rd && pairOk ra && pairOk rc && disjoint rd 2 ra 2
  | .get4iso rd ra rc => pairOk rd && pairOk ra && tripleOk rc && disjoint rd 2 rc 3
  | .eval4iso rd ra rb => pairOk rd && pairOk ra && tripleOk rb
  | .get3iso rd ra rc => pairOk rd && pairOk ra && pairOk rc && disjoint rd 2 rc 2
  | .eval3iso rd ra rb => pairOk rd && pairOk ra && pairOk rb
  | .jinvAc _ ra => pairOk ra
  | .jinvP24 _ ra => pairOk ra
  | .jinvM24 _ ra => pairOk ra
  | .geta _ _ _ _ => true

end Sys2Proof
end

