-- ==== Sys2Proof/Decode.lean ====
section
/-!
DEFINITION. Decode.lean: 30_encoding.md. `decode` reads one 32-bit word and answers the instruction of the row it
matches, or `none` (`IllegalInstruction`, R111, R112); `encode` writes the word of an instruction; `opTable` is
the table of R110 itself. The operand checks of R114 and R115 come after decoding (R116): WellFormed.lean.
-/
namespace Sys2Proof

/-- `v[hi:lo]` of R13: the bits from `hi` down to `lo` of a word, as an unsigned number. -/
def slice (w : Word) (hi lo : Nat) : Nat := w.toNat / 2 ^ lo % 2 ^ (hi - lo + 1)

/-- `op[31:26]` (R101). -/
def opField (w : Word) : Nat := slice w 31 26

/-- `rd[25:21]` (R105, R106, R107). -/
def rdField (w : Word) : FIdx := Fin.ofNat 32 (slice w 25 21)

/-- `ra[20:16]` (R106, R107). -/
def raField (w : Word) : FIdx := Fin.ofNat 32 (slice w 20 16)

/-- `rb[15:11]` (R106, R107). -/
def rbField (w : Word) : FIdx := Fin.ofNat 32 (slice w 15 11)

/-- `rc[10:6]` (R106). -/
def rcField (w : Word) : FIdx := Fin.ofNat 32 (slice w 10 6)

/-- `cr[25:23]` of format CI (R103). -/
def crFieldCI (w : Word) : CIdx := Fin.ofNat 8 (slice w 25 23)

/-- `cr[20:18]` of formats M and MS (R105). -/
def crFieldM (w : Word) : CIdx := Fin.ofNat 8 (slice w 20 18)

/-- `imm16[15:0]` (R103 to R105, R109). -/
def imm16Field (w : Word) : BitVec 16 := BitVec.ofNat 16 (slice w 15 0)

/-- `imm11[10:0]` (R107, R109). -/
def imm11Field (w : Word) : BitVec 11 := BitVec.ofNat 11 (slice w 10 0)

/-- A half-select bit: 0 selects `.a`, 1 selects `.b` (R108). -/
def Half.ofBit (n : Nat) : Half := if n = 0 then .a else .b

/-- The half-select bit of a half (R108). -/
def Half.bit : Half → Nat
  | .a => 0
  | .b => 1

/-- `hd = fn[2]` (R108). -/
def hdField (w : Word) : Half := Half.ofBit (slice w 2 2)

/-- `ha = fn[1]` (R108). -/
def haField (w : Word) : Half := Half.ofBit (slice w 1 1)

/-- `hb = fn[0]` (R108). -/
def hbField (w : Word) : Half := Half.ofBit (slice w 0 0)

/-- R112: the bits `hi` down to `lo` must be zero, else the word is no instruction. -/
def whenZero (w : Word) (hi lo : Nat) (i : Option Instr) : Option Instr := if slice w hi lo = 0 then i else none

/-- Decoding, total on words: `none` is `IllegalInstruction` (R111, R112). -/
def decode (w : Word) : Option Instr :=
  match opField w with
  | 0x01 => whenZero w 25 0 (some .nop)
  | 0x02 => whenZero w 25 0 (some .halt)
  | 0x03 => whenZero w 22 16 (some (.ldi (crFieldCI w) (imm16Field w)))
  | 0x04 => whenZero w 22 16 (some (.addi (crFieldCI w) (imm16Field w)))
  | 0x05 => whenZero w 25 16 (some (.jmp (imm16Field w)))
  | 0x06 => whenZero w 22 16 (some (.djnz (crFieldCI w) (imm16Field w)))
  | 0x08 => whenZero w 17 16 (some (.ldf (rdField w) (crFieldM w) (imm16Field w)))
  | 0x09 => whenZero w 17 16 (some (.stf (rdField w) (crFieldM w) (imm16Field w)))
  | 0x0A => whenZero w 17 16 (some (.ldfm (rdField w) (crFieldM w) (imm16Field w)))
  | 0x0B => whenZero w 17 16 (some (.stfm (rdField w) (crFieldM w) (imm16Field w)))
  | 0x0C => whenZero w 25 21 (whenZero w 17 16 (some (.selld (crFieldM w) (imm16Field w))))
  | 0x0D => whenZero w 25 21 (whenZero w 17 16 (some (.selst (crFieldM w) (imm16Field w))))
  | 0x10 => whenZero w 10 3 (some (.fpadd (rdField w) (hdField w) (raField w) (haField w) (rbField w) (hbField w)))
  | 0x11 => whenZero w 10 3 (some (.fpsub (rdField w) (hdField w) (raField w) (haField w) (rbField w) (hbField w)))
  | 0x12 => whenZero w 15 3 (whenZero w 0 0 (some (.fpneg (rdField w) (hdField w) (raField w) (haField w))))
  | 0x13 => whenZero w 10 3 (some (.fpmul (rdField w) (hdField w) (raField w) (haField w) (rbField w) (hbField w)))
  | 0x14 => whenZero w 15 3 (whenZero w 0 0 (some (.fpinv (rdField w) (hdField w) (raField w) (haField w))))
  | 0x15 => whenZero w 15 3 (whenZero w 0 0 (some (.fpmov (rdField w) (hdField w) (raField w) (haField w))))
  | 0x16 => whenZero w 15 3 (whenZero w 0 0 (some (.fptom (rdField w) (hdField w) (raField w) (haField w))))
  | 0x17 => whenZero w 15 3 (whenZero w 0 0 (some (.fpfrm (rdField w) (hdField w) (raField w) (haField w))))
  | 0x18 => whenZero w 10 0 (some (.f2add (rdField w) (raField w) (rbField w)))
  | 0x19 => whenZero w 10 0 (some (.f2sub (rdField w) (raField w) (rbField w)))
  | 0x1A => whenZero w 10 0 (some (.f2mul (rdField w) (raField w) (rbField w)))
  | 0x1B => whenZero w 15 0 (some (.f2sqr (rdField w) (raField w)))
  | 0x1C => whenZero w 15 0 (some (.f2inv (rdField w) (raField w)))
  | 0x1D => whenZero w 15 0 (some (.f2conj (rdField w) (raField w)))
  | 0x1E => whenZero w 15 0 (some (.f2mov (rdField w) (raField w)))
  | 0x1F => whenZero w 15 0 (some (.f2cmov (rdField w) (raField w)))
  | 0x20 => whenZero w 25 21 (whenZero w 10 0 (some (.f2eq (raField w) (rbField w))))
  | 0x21 => whenZero w 25 21 (whenZero w 15 0 (some (.f2isz (raField w))))
  | 0x22 => whenZero w 10 0 (some (.f2inv3 (rdField w) (raField w) (rbField w)))
  | 0x23 => whenZero w 15 11 (some (.f2invn (rdField w) (raField w) (imm11Field w)))
  | 0x28 => whenZero w 10 0 (some (.xdbl (rdField w) (raField w) (rbField w)))
  | 0x29 => some (.xdble (rdField w) (raField w) (rbField w) (imm11Field w))
  | 0x2A => whenZero w 10 0 (some (.xtpl (rdField w) (raField w) (rbField w)))
  | 0x2B => some (.xtple (rdField w) (raField w) (rbField w) (imm11Field w))
  | 0x2C => whenZero w 5 0 (some (.xadd (rdField w) (raField w) (rbField w) (rcField w)))
  | 0x2D => whenZero w 5 0 (some (.xdbladd (rdField w) (raField w) (rbField w) (rcField w)))
  | 0x2E => whenZero w 15 11 (whenZero w 5 0 (some (.get4iso (rdField w) (raField w) (rcField w))))
  | 0x2F => whenZero w 10 0 (some (.eval4iso (rdField w) (raField w) (rbField w)))
  | 0x30 => whenZero w 15 11 (whenZero w 5 0 (some (.get3iso (rdField w) (raField w) (rcField w))))
  | 0x31 => whenZero w 10 0 (some (.eval3iso (rdField w) (raField w) (rbField w)))
  | 0x32 =>
    whenZero w 15 2
      (match slice w 1 0 with
      | 0 => some (.jinvAc (rdField w) (raField w))
      | 1 => some (.jinvP24 (rdField w) (raField w))
      | 2 => some (.jinvM24 (rdField w) (raField w))
      | _ => none)
  | 0x33 => whenZero w 5 0 (some (.geta (rdField w) (raField w) (rbField w) (rcField w)))
  | _ => none

/-- The decoder on the table's numbering of bits: an instruction is one 32-bit word (R100), so the bits above
`nbits` are 0 and bit 0 of the table is bit 0 of the word. -/
def decodeTableWord (nbits w : Nat) : Option Instr := decode (BitVec.ofNat 32 (w % 2 ^ nbits))

/-! ## Encoding, one function per format (R102 to R107) -/

/-- Format Z (R102). -/
def encZ (op : Nat) : Word := BitVec.ofNat 32 (op * 2 ^ 26)

/-- Format CI (R103). -/
def encCI (op : Nat) (cr : CIdx) (imm : BitVec 16) : Word :=
  BitVec.ofNat 32 (op * 2 ^ 26 + cr.val * 2 ^ 23 + imm.toNat)

/-- Format J (R104). -/
def encJ (op : Nat) (imm : BitVec 16) : Word := BitVec.ofNat 32 (op * 2 ^ 26 + imm.toNat)

/-- Format M, and format MS with `rd = 0` (R105). -/
def encM (op : Nat) (rd : FIdx) (cr : CIdx) (imm : BitVec 16) : Word :=
  BitVec.ofNat 32 (op * 2 ^ 26 + rd.val * 2 ^ 21 + cr.val * 2 ^ 18 + imm.toNat)

/-- Format R (R106). -/
def encR (op : Nat) (rd ra rb rc : FIdx) (fn : Nat) : Word :=
  BitVec.ofNat 32 (op * 2 ^ 26 + rd.val * 2 ^ 21 + ra.val * 2 ^ 16 + rb.val * 2 ^ 11 + rc.val * 2 ^ 6 + fn)

/-- Format RI (R107). -/
def encRI (op : Nat) (rd ra rb : FIdx) (imm : BitVec 11) : Word :=
  BitVec.ofNat 32 (op * 2 ^ 26 + rd.val * 2 ^ 21 + ra.val * 2 ^ 16 + rb.val * 2 ^ 11 + imm.toNat)

/-- `fn = {0, 0, 0, hd, ha, hb}` (R108, R200). -/
def halfFn (hd ha hb : Half) : Nat := hd.bit * 4 + ha.bit * 2 + hb.bit

/-- The word of an instruction (R102 to R110). A field the instruction does not use is zero. -/
def encode : Instr → Word
  | .nop => encZ 0x01
  | .halt => encZ 0x02
  | .ldi cr imm => encCI 0x03 cr imm
  | .addi cr imm => encCI 0x04 cr imm
  | .jmp imm => encJ 0x05 imm
  | .djnz cr imm => encCI 0x06 cr imm
  | .ldf rd cr imm => encM 0x08 rd cr imm
  | .stf rd cr imm => encM 0x09 rd cr imm
  | .ldfm rd cr imm => encM 0x0A rd cr imm
  | .stfm rd cr imm => encM 0x0B rd cr imm
  | .selld cr imm => encM 0x0C 0 cr imm
  | .selst cr imm => encM 0x0D 0 cr imm
  | .fpadd rd hd ra ha rb hb => encR 0x10 rd ra rb 0 (halfFn hd ha hb)
  | .fpsub rd hd ra ha rb hb => encR 0x11 rd ra rb 0 (halfFn hd ha hb)
  | .fpneg rd hd ra ha => encR 0x12 rd ra 0 0 (halfFn hd ha .a)
  | .fpmul rd hd ra ha rb hb => encR 0x13 rd ra rb 0 (halfFn hd ha hb)
  | .fpinv rd hd ra ha => encR 0x14 rd ra 0 0 (halfFn hd ha .a)
  | .fpmov rd hd ra ha => encR 0x15 rd ra 0 0 (halfFn hd ha .a)
  | .fptom rd hd ra ha => encR 0x16 rd ra 0 0 (halfFn hd ha .a)
  | .fpfrm rd hd ra ha => encR 0x17 rd ra 0 0 (halfFn hd ha .a)
  | .f2add rd ra rb => encR 0x18 rd ra rb 0 0
  | .f2sub rd ra rb => encR 0x19 rd ra rb 0 0
  | .f2mul rd ra rb => encR 0x1A rd ra rb 0 0
  | .f2sqr rd ra => encR 0x1B rd ra 0 0 0
  | .f2inv rd ra => encR 0x1C rd ra 0 0 0
  | .f2conj rd ra => encR 0x1D rd ra 0 0 0
  | .f2mov rd ra => encR 0x1E rd ra 0 0 0
  | .f2cmov rd ra => encR 0x1F rd ra 0 0 0
  | .f2eq ra rb => encR 0x20 0 ra rb 0 0
  | .f2isz ra => encR 0x21 0 ra 0 0 0
  | .f2inv3 rd ra rb => encR 0x22 rd ra rb 0 0
  | .f2invn rd ra n => encRI 0x23 rd ra 0 n
  | .xdbl rd ra rb => encR 0x28 rd ra rb 0 0
  | .xdble rd ra rb e => encRI 0x29 rd ra rb e
  | .xtpl rd ra rb => encR 0x2A rd ra rb 0 0
  | .xtple rd ra rb e => encRI 0x2B rd ra rb e
  | .xadd rd ra rb rc => encR 0x2C rd ra rb rc 0
  | .xdbladd rd ra rb rc => encR 0x2D rd ra rb rc 0
  | .get4iso rd ra rc => encR 0x2E rd ra 0 rc 0
  | .eval4iso rd ra rb => encR 0x2F rd ra rb 0 0
  | .get3iso rd ra rc => encR 0x30 rd ra 0 rc 0
  | .eval3iso rd ra rb => encR 0x31 rd ra rb 0 0
  | .jinvAc rd ra => encR 0x32 rd ra 0 0 0
  | .jinvP24 rd ra => encR 0x32 rd ra 0 0 1
  | .jinvM24 rd ra => encR 0x32 rd ra 0 0 2
  | .geta rd ra rb rc => encR 0x33 rd ra rb rc 0

/-! ## The opcode table itself (R110) -/

/-- One row of R110: "a word w is the instruction exactly when `w AND mask = match`". -/
structure OpRow where
  /-- The mnemonic of the row. -/
  mnemonic : String
  /-- The column `match`. -/
  pattern : Word
  /-- The column `mask`. -/
  mask : Word
deriving DecidableEq, Repr

/-- The test of R110. -/
def OpRow.accepts (r : OpRow) (w : Word) : Bool := w &&& r.mask == r.pattern

/-- R110, the rows of the control family. -/
def opRows_control : List OpRow :=
  [ ⟨"NOP", 0x04000000#32, 0xFFFFFFFF#32⟩
  , ⟨"HALT", 0x08000000#32, 0xFFFFFFFF#32⟩
  , ⟨"LDI", 0x0C000000#32, 0xFC7F0000#32⟩
  , ⟨"ADDI", 0x10000000#32, 0xFC7F0000#32⟩
  , ⟨"JMP", 0x14000000#32, 0xFFFF0000#32⟩
  , ⟨"DJNZ", 0x18000000#32, 0xFC7F0000#32⟩ ]

/-- R110, the rows of the memory family. -/
def opRows_memory : List OpRow :=
  [ ⟨"LDF", 0x20000000#32, 0xFC030000#32⟩
  , ⟨"STF", 0x24000000#32, 0xFC030000#32⟩
  , ⟨"LDFM", 0x28000000#32, 0xFC030000#32⟩
  , ⟨"STFM", 0x2C000000#32, 0xFC030000#32⟩
  , ⟨"SELLD", 0x30000000#32, 0xFFE30000#32⟩
  , ⟨"SELST", 0x34000000#32, 0xFFE30000#32⟩ ]

/-- R110, the rows of the fp family. -/
def opRows_fp : List OpRow :=
  [ ⟨"FPADD", 0x40000000#32, 0xFC0007F8#32⟩
  , ⟨"FPSUB", 0x44000000#32, 0xFC0007F8#32⟩
  , ⟨"FPNEG", 0x48000000#32, 0xFC00FFF9#32⟩
  , ⟨"FPMUL", 0x4C000000#32, 0xFC0007F8#32⟩
  , ⟨"FPINV", 0x50000000#32, 0xFC00FFF9#32⟩
  , ⟨"FPMOV", 0x54000000#32, 0xFC00FFF9#32⟩
  , ⟨"FPTOM", 0x58000000#32, 0xFC00FFF9#32⟩
  , ⟨"FPFRM", 0x5C000000#32, 0xFC00FFF9#32⟩ ]

/-- R110, the rows of the fp2 family. -/
def opRows_fp2 : List OpRow :=
  [ ⟨"F2ADD", 0x60000000#32, 0xFC0007FF#32⟩
  , ⟨"F2SUB", 0x64000000#32, 0xFC0007FF#32⟩
  , ⟨"F2MUL", 0x68000000#32, 0xFC0007FF#32⟩
  , ⟨"F2SQR", 0x6C000000#32, 0xFC00FFFF#32⟩
  , ⟨"F2INV", 0x70000000#32, 0xFC00FFFF#32⟩
  , ⟨"F2CONJ", 0x74000000#32, 0xFC00FFFF#32⟩
  , ⟨"F2MOV", 0x78000000#32, 0xFC00FFFF#32⟩
  , ⟨"F2CMOV", 0x7C000000#32, 0xFC00FFFF#32⟩
  , ⟨"F2EQ", 0x80000000#32, 0xFFE007FF#32⟩
  , ⟨"F2ISZ", 0x84000000#32, 0xFFE0FFFF#32⟩
  , ⟨"F2INV3", 0x88000000#32, 0xFC0007FF#32⟩
  , ⟨"F2INVN", 0x8C000000#32, 0xFC00F800#32⟩ ]

/-- R110, the rows of the curve family. -/
def opRows_curve : List OpRow :=
  [ ⟨"XDBL", 0xA0000000#32, 0xFC0007FF#32⟩
  , ⟨"XDBLE", 0xA4000000#32, 0xFC000000#32⟩
  , ⟨"XTPL", 0xA8000000#32, 0xFC0007FF#32⟩
  , ⟨"XTPLE", 0xAC000000#32, 0xFC000000#32⟩
  , ⟨"XADD", 0xB0000000#32, 0xFC00003F#32⟩
  , ⟨"XDBLADD", 0xB4000000#32, 0xFC00003F#32⟩ ]

/-- R110, the rows of the isogeny family. -/
def opRows_isogeny : List OpRow :=
  [ ⟨"GET4ISO", 0xB8000000#32, 0xFC00F83F#32⟩
  , ⟨"EVAL4ISO", 0xBC000000#32, 0xFC0007FF#32⟩
  , ⟨"GET3ISO", 0xC0000000#32, 0xFC00F83F#32⟩
  , ⟨"EVAL3ISO", 0xC4000000#32, 0xFC0007FF#32⟩
  , ⟨"JINV.AC", 0xC8000000#32, 0xFC00FFFF#32⟩
  , ⟨"JINV.P24", 0xC8000001#32, 0xFC00FFFF#32⟩
  , ⟨"JINV.M24", 0xC8000002#32, 0xFC00FFFF#32⟩
  , ⟨"GETA", 0xCC000000#32, 0xFC00003F#32⟩ ]


/-- R110, all 46 rows. -/
def opTable : List OpRow :=
  opRows_control ++ opRows_memory ++ opRows_fp ++ opRows_fp2 ++ opRows_curve ++ opRows_isogeny

/-- The mnemonic of an instruction, as R110 spells it. -/
def Instr.mnemonic : Instr → String
  | .nop => "NOP"
  | .halt => "HALT"
  | .ldi _ _ => "LDI"
  | .addi _ _ => "ADDI"
  | .jmp _ => "JMP"
  | .djnz _ _ => "DJNZ"
  | .ldf _ _ _ => "LDF"
  | .stf _ _ _ => "STF"
  | .ldfm _ _ _ => "LDFM"
  | .stfm _ _ _ => "STFM"
  | .selld _ _ => "SELLD"
  | .selst _ _ => "SELST"
  | .fpadd _ _ _ _ _ _ => "FPADD"
  | .fpsub _ _ _ _ _ _ => "FPSUB"
  | .fpneg _ _ _ _ => "FPNEG"
  | .fpmul _ _ _ _ _ _ => "FPMUL"
  | .fpinv _ _ _ _ => "FPINV"
  | .fpmov _ _ _ _ => "FPMOV"
  | .fptom _ _ _ _ => "FPTOM"
  | .fpfrm _ _ _ _ => "FPFRM"
  | .f2add _ _ _ => "F2ADD"
  | .f2sub _ _ _ => "F2SUB"
  | .f2mul _ _ _ => "F2MUL"
  | .f2sqr _ _ => "F2SQR"
  | .f2inv _ _ => "F2INV"
  | .f2conj _ _ => "F2CONJ"
  | .f2mov _ _ => "F2MOV"
  | .f2cmov _ _ => "F2CMOV"
  | .f2eq _ _ => "F2EQ"
  | .f2isz _ => "F2ISZ"
  | .f2inv3 _ _ _ => "F2INV3"
  | .f2invn _ _ _ => "F2INVN"
  | .xdbl _ _ _ => "XDBL"
  | .xdble _ _ _ _ => "XDBLE"
  | .xtpl _ _ _ => "XTPL"
  | .xtple _ _ _ _ => "XTPLE"
  | .xadd _ _ _ _ => "XADD"
  | .xdbladd _ _ _ _ => "XDBLADD"
  | .get4iso _ _ _ => "GET4ISO"
  | .eval4iso _ _ _ => "EVAL4ISO"
  | .get3iso _ _ _ => "GET3ISO"
  | .eval3iso _ _ _ => "EVAL3ISO"
  | .jinvAc _ _ => "JINV.AC"
  | .jinvP24 _ _ => "JINV.P24"
  | .jinvM24 _ _ => "JINV.M24"
  | .geta _ _ _ _ => "GETA"

end Sys2Proof
end

