-- ==== Sys2Proof/Config.lean ====
section
/-!
DEFINITION. Config.lean: what one CORE has fixed (00_scope.md R8 to R12), and the free values.
The open parameters are `P`, `WORDBITS`, `IMEM_WORDS`, `DMEM_BYTES` (92_eei_decisions.md, last paragraph); every
definition of the model that depends on them takes a `Config`. `Config.p434` is the default of the spec and the
one `exec` and `step` run with (log entry 1); `Config.t431` is the toy one of the spec's test vectors.
-/
namespace Sys2Proof

/-- The configuration record. `rInv` and `pPrime` are the two ROM constants of R12 that need a modular
inverse: they are fixed by `P` and `WORDBITS` through `Config.WellFormed` (log entry 16). -/
structure Config where
  /-- `P`, the field prime (R9, R10). -/
  p : Nat
  /-- `WORDBITS`, the width of one digit (R9). -/
  wordBits : Nat
  /-- `IMEM_WORDS` (R9). -/
  imemWords : Nat
  /-- `DMEM_BYTES` (R9). -/
  dmemBytes : Nat
  /-- `R^-1 mod P` (R12). -/
  rInv : Nat
  /-- `PPRIME = (-P^-1) mod R` (R12). -/
  pPrime : Nat
deriving DecidableEq, Repr

/-- `bitlen(P)` (R13). -/
def Config.bitLen (c : Config) : Nat := Nat.log2 c.p + 1

/-- `NWORDS = ceil(bitlen(P) / WORDBITS)` (R9). -/
def Config.nWords (c : Config) : Nat := (c.bitLen + c.wordBits - 1) / c.wordBits

/-- `RBITS = NWORDS * WORDBITS` (R9). -/
def Config.rBits (c : Config) : Nat := c.nWords * c.wordBits

/-- `R = 2^RBITS`, the Montgomery radix (R9). -/
def Config.r (c : Config) : Nat := 2 ^ c.rBits

/-- `NBYTES = ceil(bitlen(P) / 8)`, bytes of one canonical GF(p) encoding (R9). -/
def Config.nBytes (c : Config) : Nat := (c.bitLen + 7) / 8

/-- `MBYTES = RBITS / 8`, bytes of one raw digit-array image (R9). -/
def Config.mBytes (c : Config) : Nat := c.rBits / 8

/-- `WORDBYTES = WORDBITS / 8` (R9). -/
def Config.wordBytes (c : Config) : Nat := c.wordBits / 8

/-- `ALLONES = 2^WORDBITS - 1` (R38). -/
def Config.allOnes (c : Config) : Nat := 2 ^ c.wordBits - 1

/-- `MONT_ONE = R mod P`, the stored form of 1 (R12). -/
def Config.montOne (c : Config) : Nat := c.r % c.p

/-- `MONT_R2 = R^2 mod P`, the multiplier of `toMontgomery` (R12). -/
def Config.montR2 (c : Config) : Nat := c.r * c.r % c.p

/-- The constraints of R9, less primality, and the defining equations of the ROM constants of R12. -/
abbrev Config.WellFormed (c : Config) : Prop :=
  c.p % 4 = 3 ∧ c.wordBits % 8 = 0 ∧ 8 ≤ c.wordBits
    ∧ 1 ≤ c.imemWords ∧ c.imemWords ≤ 65536 ∧ 1 ≤ c.dmemBytes ∧ c.dmemBytes ≤ 65536
    ∧ c.rInv < c.p ∧ c.r * c.rInv % c.p = 1
    ∧ c.pPrime < c.r ∧ c.p * c.pPrime % c.r = c.r - 1

/-- "odd prime" (R9). No definition of the model rests on it; the laws of inversion take it as a premise
(log entry 18). -/
def Config.PrimeField (c : Config) : Prop := Nat.Prime c.p

/-- The default `P434` (R9, R10, R12). -/
def Config.p434 : Config where
  p := 0x2341F271773446CFC5FD681C520567BC65C783158AEA3FDC1767AE2FFFFFFFFFFFFFFFFFFFFFFFFFFFFFFFFFFFFFFFFFFFFFFFFFFFFFF
  wordBits := 64
  imemWords := 1024
  dmemBytes := 4096
  rInv := 0x522E38A1D16293CF1FE083BBE7642370CABDC39A28779291C2D54004791B46445AB96AF6359A5732CA2221C664B96C55F373D2CDCA41
  pPrime := 0x254B341F271773446CFC5FD681C520567BC65C783158AEA3FDC1767AE3000000000000000000000000000000000000000000000000000001

/-- The toy `T431` (R9, R12), "a second, small" CORE for vectors that can be checked by hand. -/
def Config.t431 : Config where
  p := 431
  wordBits := 8
  imemWords := 1024
  dmemBytes := 4096
  rInv := 18
  pPrime := 0xAB1

/-- The CORE that `exec` and `step` model: R9, "\"Default\" is the value the instance specified here takes"
(log entry 1). -/
def Config.core : Config := Config.p434

/-- FREE VALUE (R391, U5: "a model must not assume any value"): the byte that DMEM holds at an address after
power-up, until something writes it (log entry 2). It has no body: nothing can be proved of it. -/
opaque Config.powerUpByte : Nat → Byte

/-- FREE VALUE (R391, U5): the word that IMEM holds at an index after power-up, until the host writes it
(log entry 3). -/
opaque Config.powerUpWord : Nat → Word

end Sys2Proof
end

