-- ==== Sys2Proof/Machine/State.lean ====
section
/-!
DEFINITION. Machine/State.lean: the architectural state of one CORE (10_state.md R30: "Nothing else is state"),
its reset value (R56), the exceptions (60_exceptions.md R341) and the two types of stops.

A stored GF(p) value is a natural number, the value of its digit array (R14, R15); the invariant of R32 is that it
is below `P`. Memory is a list of the locations written since power-up, addresses strictly rising (log entries 2, 3).
-/
namespace Sys2Proof.Machine

/-- `STATE` (R44). -/
inductive RunState where
  | idle
  | running
  | done
  | fault
deriving DecidableEq, Repr

/-- The two values of `SEL` (R38). -/
inductive Selector where
  /-- The selector `0`. -/
  | zero
  /-- The selector `ALLONES`. -/
  | allOnes
deriving DecidableEq, Repr

/-- One half of a field register: its stored value and its valid bit `VF[k].h` (R31, R34). -/
structure HalfReg where
  val : Nat
  valid : Bool
deriving DecidableEq, Repr

/-- One GF(p^2) register `F[k]`, the element `a + b*i` (R31). -/
structure FieldReg where
  a : HalfReg
  b : HalfReg
deriving DecidableEq, Repr

/-- One counter register `C[c]` and its valid bit `VC[c]` (R36, R37). -/
structure CounterReg where
  val : BitVec 16
  valid : Bool
deriving DecidableEq, Repr

/-- A GF(p^2) element as a pair of stored values (R15, R19, R31). -/
structure Fp2 where
  a : Nat
  b : Nat
deriving DecidableEq, Repr

/-- A pair of GF(p^2) elements `(F[k], F[k+1])`: a point `(X, Z)`, or a pair of coefficients (R33). -/
structure Pair where
  x : Fp2
  z : Fp2
deriving DecidableEq, Repr

/-- A triple `(F[k], F[k+1], F[k+2])`: the degree-4 isogeny coefficients `(K0, K1, K2)` (R33). -/
structure Triple where
  k0 : Fp2
  k1 : Fp2
  k2 : Fp2
deriving DecidableEq, Repr

/-- DMEM: the bytes written since power-up, by address (R53, R72). -/
abbrev Memory := List Host.Cell

/-- IMEM: the words written since power-up, by index (R53, R71). -/
abbrev ProgramMemory := List (Nat × Word)

/-- The architectural state (R30). -/
structure State where
  /-- `F[0..31]` with `VF` (R31 to R35). -/
  f : Vector FieldReg 32
  /-- `C[0..7]` with `VC` (R36, R37). -/
  c : Vector CounterReg 8
  /-- `SEL` (R38, R39). -/
  sel : Selector
  /-- `VSEL` (R38, R39). -/
  vsel : Bool
  /-- `PC`, a word index, a natural number that does not wrap (R40 to R42). -/
  pc : Nat
  /-- `STATE` (R44). -/
  run : RunState
  /-- `INVZ`, sticky (R45). -/
  invz : Bool
  /-- `CAUSE`, 8 bits (R46). -/
  cause : BitVec 8
  /-- `EPC`, 17 bits (R46). -/
  epc : BitVec 17
  /-- `FINFO`, 32 bits (R46). -/
  finfo : BitVec 32
  /-- `ENTRY`, 17 bits, values 0..65535 writable (R47). -/
  entry : BitVec 17
  /-- `IMEM` (R53). -/
  imem : ProgramMemory
  /-- `DMEM` (R53). -/
  dmem : Memory
deriving DecidableEq, Repr

/-- A half that holds no readable value; its digits are zero (R34, R52, R56). -/
def HalfReg.empty : HalfReg := { val := 0, valid := false }

/-- A field register with both halves invalid (R56). -/
def FieldReg.empty : FieldReg := { a := HalfReg.empty, b := HalfReg.empty }

/-- An invalid counter (R56). Its value, 0, is a DESIGN CHOICE that no instruction can read (log entry 4). -/
def CounterReg.empty : CounterReg := { val := 0, valid := false }

/-- The state right after power-up and reset: the table of R56. The memories are unspecified there: nothing is
listed (log entries 2, 3). -/
def State.reset : State where
  f := Vector.replicate 32 FieldReg.empty
  c := Vector.replicate 8 CounterReg.empty
  sel := .zero
  vsel := false
  pc := 0
  run := .idle
  invz := false
  cause := 0
  epc := 0
  finfo := 0
  entry := 0
  imem := []
  dmem := []

/-- The exceptions of R341, each with what its `FINFO` is made of. Taking one is a NEXT state (R350). -/
inductive Trap where
  /-- Code 1: the word matches no row of R110. -/
  | illegalInstruction (w : Word)
  /-- Code 2: the word breaks R114 or R115. -/
  | illegalOperand (w : Word)
  /-- Code 3: a source register has not been written in this run; the register code of R343. -/
  | uninitRegister (code : Nat)
  /-- Code 4: the access at `addr` leaves DMEM. -/
  | dmemAccessFault (addr : Nat)
  /-- Code 5: the element encoded at `addr` is not below `P`. -/
  | malformedInput (addr : Nat)
  /-- Code 6: the word at `addr` is no selector. -/
  | illegalSelector (addr : Nat)
  /-- Code 7: `PC` is outside IMEM. -/
  | fetchFault (pc : Nat)
deriving DecidableEq, Repr

/-- Stops of the model's own. There is none: every stop the spec describes is an exception whose entry it describes
(R350), which is a next state, so nobody raises a fault (safe; log entry 17). -/
inductive Fault where
deriving DecidableEq, Repr

/-- Refusals. -/
inductive Refusal where
  /-- Raised only by an arm of `exec` whose instruction has no meaning yet, with its mnemonic; no arm is so
  (safe). -/
  | notModelled (mnemonic : String)
deriving DecidableEq, Repr

/-- What one instruction or one step answers. -/
abbrev Result := Host.Outcome State Fault Refusal

end Sys2Proof.Machine
end

