-- ==== Sys2Proof/Machine/Datapath.lean ====
section
/-!
DEFINITION. Machine/Datapath.lean: the multiprecision datapath functions of 40_mp_datapath.md, on the values of
digit arrays (R14, R130): `a` and `b` are in `[0, R)`. The digit-by-digit forms of R137 are in Digits.lean.
-/
namespace Sys2Proof.Machine

/-- `mp_add(a, b) -> (c, carry)` (R131). -/
def mpAdd (c : Config) (a b : Nat) : Nat × Nat := ((a + b) % c.r, (a + b) / c.r)

/-- `mp_sub(a, b) -> (c, borrow)` (R132): `c = a - b + borrow * R`. -/
def mpSub (c : Config) (a b : Nat) : Nat × Nat := if a < b then (a + c.r - b, 1) else (a - b, 0)

/-- `mp_cmp(a, b)` (R133): -1, 0 or 1. -/
def mpCmp (a b : Nat) : Int := if a < b then -1 else if a = b then 0 else 1

/-- `mp_cmov(dst, src, sel)` (R134); no third selector exists (R38). -/
def mpCmov (dst src : Nat) : Selector → Nat
  | .zero => dst
  | .allOnes => src

/-- The mask a selector is, over a whole digit array: 0, or every bit of `[0, R)` set (R38, R134). -/
def selMask (c : Config) : Selector → Nat
  | .zero => 0
  | .allOnes => c.r - 1

/-- The bit formula of R134, `dst XOR (sel AND (dst XOR src))`, over the whole digit array. -/
def mpCmovBits (c : Config) (dst src : Nat) (sel : Selector) : Nat := dst ^^^ (selMask c sel &&& (dst ^^^ src))

/-- `mp_shl(x, k)` (R135). Outside `0 <= k < RBITS` the spec gives no value (U19): the answer is `none`
(log entry 15). -/
def mpShl (c : Config) (x k : Nat) : Option Nat := if k < c.rBits then some (x * 2 ^ k % c.r) else none

/-- `mp_shr(x, k)` (R135), logical; `none` outside its domain as for `mpShl`. -/
def mpShr (c : Config) (x k : Nat) : Option Nat := if k < c.rBits then some (x / 2 ^ k) else none

/-- `mp_mul(a, b)`, the double-width product, exact (R136). -/
def mpMul (a b : Nat) : Nat := a * b

/-- `mont_reduce(T) = T * R^-1 mod P` (R138), for `0 <= T < P * R`. -/
def montReduce (c : Config) (t : Nat) : Nat := t * c.rInv % c.p

/-- `m` of the reduction steps of R138: `((T mod R) * PPRIME) mod R`. -/
def montM (c : Config) (t : Nat) : Nat := t % c.r * c.pPrime % c.r

/-- `u` of the reduction steps of R138: `(T + m * P) div R`. -/
def montU (c : Config) (t : Nat) : Nat := (t + montM c t * c.p) / c.r

/-- The reduction by the steps of R138, with the one conditional subtraction. -/
def montReduceSteps (c : Config) (t : Nat) : Nat := if c.p ≤ montU c t then montU c t - c.p else montU c t

end Sys2Proof.Machine
end

