-- ==== Sys2Proof/Machine/Digits.lean ====
section
/-!
DEFINITION. Machine/Digits.lean: digit arrays (00_scope.md R14), little-endian byte lists (R16, 20_memory.md R75)
and the digit-by-digit forms of the datapath functions (40_mp_datapath.md R137). A digit array is the list of its
digits, least significant first.
-/
namespace Sys2Proof.Machine

/-- `W = 2^WORDBITS`, the number of values of one digit (R130). -/
def digitBase (c : Config) : Nat := 2 ^ c.wordBits

/-- `val(d)` of R14, for digits in base `w`. -/
def digitsVal (w : Nat) : List Nat → Nat
  | [] => 0
  | d :: ds => d + w * digitsVal w ds

/-- `digits_n(v)` of R14, for digits in base `w`. -/
def digitsOf (w : Nat) : Nat → Nat → List Nat
  | 0, _ => []
  | n + 1, v => v % w :: digitsOf w n (v / w)

/-- Schoolbook addition of R137 with a carry in; answers the digits and the carry out. -/
def addDigits (w : Nat) : Nat → List Nat → List Nat → List Nat × Nat
  | carry, a :: as, b :: bs =>
    let t := a + b + carry
    let (cs, out) := addDigits w (t / w) as bs
    (t % w :: cs, out)
  | carry, _, _ => ([], carry)

/-- Schoolbook subtraction of R137 with a borrow in; answers the digits and the borrow out. -/
def subDigits (w : Nat) : Nat → List Nat → List Nat → List Nat × Nat
  | borrow, a :: as, b :: bs =>
    let borrow' := if a < b + borrow then 1 else 0
    let (cs, out) := subDigits w borrow' as bs
    ((a + borrow' * w - (b + borrow)) :: cs, out)
  | borrow, _, _ => ([], borrow)

/-- The inner loop of the multiplication of R137: `t <- c[i+j] + a[i]*b[j] + u`, digit after digit of `b`, from
the accumulator digits `acc` that stand at `i`; the last carry becomes the digit after them. -/
def mulAccDigits (w a : Nat) : Nat → List Nat → List Nat → List Nat
  | u, x :: acc, b :: bs =>
    let t := x + a * b + u
    t % w :: mulAccDigits w a (t / w) acc bs
  | u, _, _ => [u]

/-- The outer loop of the multiplication of R137 over the digits of `a`, from accumulator digits `acc` (as many
as `b` has); each turn settles the lowest digit of the product. -/
def mulDigitsFrom (w : Nat) (bs : List Nat) : List Nat → List Nat → List Nat
  | acc, [] => acc
  | acc, a :: as =>
    match mulAccDigits w a 0 acc bs with
    | [] => []
    | d :: acc' => d :: mulDigitsFrom w bs acc' as

/-- Schoolbook multiplication of R137: the accumulator starts at zero. -/
def mulDigits (w : Nat) (as bs : List Nat) : List Nat := mulDigitsFrom w bs (List.replicate bs.length 0) as

/-- The digit-by-digit conditional move of R134: `dst'[i] = dst[i] XOR (sel AND (dst[i] XOR src[i]))`, where `sel`
is the word 0 or `ALLONES`. -/
def cmovDigits (sel : Nat) (dst src : List Nat) : List Nat := List.zipWith (fun d s => d ^^^ (sel &&& (d ^^^ s))) dst src

/-- The word of a selector (R38). -/
def selWord (c : Config) : Selector → Nat
  | .zero => 0
  | .allOnes => c.allOnes

/-! ## Bytes -/

/-- `le(bytes)`: the little-endian value of a byte list (R16, R75). -/
def le : List Byte → Nat
  | [] => 0
  | b :: bs => b.toNat + 256 * le bs

/-- `le_n(v)`: the `n`-byte little-endian list of `v` (R16, R75). -/
def leBytes : Nat → Nat → List Byte
  | 0, _ => []
  | n + 1, v => BitVec.ofNat 8 v :: leBytes n (v / 256)

end Sys2Proof.Machine
end

