-- ==== Sys2Proof/Machine/Ops.lean ====
section
/-!
DEFINITION. Machine/Ops.lean: the named operations on memory, registers and run state, and trap entry. Everything
a later file does to the state it does through these.
-/
namespace Sys2Proof.Machine

/-! ## Memory cells: a list of (address, value) pairs, addresses strictly rising -/

/-- The value listed at an address, if one is. -/
def cellGet {α : Type} : List (Nat × α) → Nat → Option α
  | [], _ => none
  | (k, v) :: m, a => if k = a then some v else cellGet m a

/-- List a value at an address, keeping the addresses rising. -/
def cellSet {α : Type} : List (Nat × α) → Nat → α → List (Nat × α)
  | [], a, v => [(a, v)]
  | (k, w) :: m, a, v =>
    if a < k then (a, v) :: (k, w) :: m
    else if k = a then (a, v) :: m
    else (k, w) :: cellSet m a v

/-- The canonical form: addresses strictly rising, hence no address twice. An unlisted address is one that nothing
has written since power-up, so no entry can equal what an unlisted address holds (log entries 2, 3). -/
def cellsWf {α : Type} : List (Nat × α) → Bool
  | [] => true
  | [_] => true
  | (j, _) :: (k, w) :: m => decide (j < k) && cellsWf ((k, w) :: m)

/-- Every listed address is below `n`: it exists (R53). -/
def cellsBelow {α : Type} (n : Nat) (m : List (Nat × α)) : Bool := m.all fun e => decide (e.1 < n)

/-- The canonical form of DMEM. -/
def Memory.wf (m : Memory) : Bool := cellsWf m

/-- The canonical form of IMEM. -/
def ProgramMemory.wf (m : ProgramMemory) : Bool := cellsWf m

/-! ## DMEM (20_memory.md R72 to R74) -/

/-- The byte DMEM holds at an address: what was last written there, else the free power-up byte (R85, R391; log
entry 2). -/
def Memory.byteAt (m : Memory) (a : Nat) : Byte := (cellGet m a).getD (Config.powerUpByte a)

/-- The byte of a state's DMEM at an address. -/
def State.byteAt (s : State) (a : Nat) : Byte := s.dmem.byteAt a

/-- Write consecutive bytes from an address up (R74, R81). -/
def writeBytes (m : Memory) (a : Nat) : List Byte → Memory
  | [] => m
  | b :: bs => writeBytes (cellSet m a b) (a + 1) bs

/-- The range check of R73 and R74, on the whole range. -/
def checkRange (c : Config) (addr n : Nat) : Except Trap Unit :=
  if c.dmemBytes < addr + n then .error (.dmemAccessFault addr) else .ok ()

/-- The bytes at `addr .. addr+n-1`, lowest address first. -/
def State.bytesAt (s : State) (addr n : Nat) : List Byte := (List.range n).map fun i => s.byteAt (addr + i)

/-- `MemRead(addr, n)` (R73). -/
def memRead (c : Config) (s : State) (addr n : Nat) : Except Trap (List Byte) := do
  checkRange c addr n
  pure (s.bytesAt addr n)

/-- `MemWrite(addr, n, bytes)` with `n` bytes (R74). -/
def memWrite (c : Config) (s : State) (addr : Nat) (bytes : List Byte) : Except Trap State := do
  checkRange c addr bytes.length
  pure { s with dmem := writeBytes s.dmem addr bytes }

/-! ## IMEM (R71) -/

/-- The word IMEM holds at an index: what the host wrote there, else the free power-up word (R391; log entry 3). -/
def State.wordAt (s : State) (i : Nat) : Word := (cellGet s.imem i).getD (Config.powerUpWord i)

/-- Instruction fetch (R71). -/
def fetch (c : Config) (s : State) : Except Trap Word :=
  if c.imemWords ≤ s.pc then .error (.fetchFault s.pc) else .ok (s.wordAt s.pc)

/-! ## The field registers (10_state.md R31 to R34) -/

/-- One half of a register. -/
def FieldReg.half (r : FieldReg) : Half → HalfReg
  | .a => r.a
  | .b => r.b

/-- A register with one half replaced. -/
def FieldReg.withHalf (r : FieldReg) (h : Half) (v : HalfReg) : FieldReg :=
  match h with
  | .a => { r with a := v }
  | .b => { r with b := v }

/-- `F[k].h` with its valid bit. -/
def State.half (s : State) (k : FIdx) (h : Half) : HalfReg := (s.f[k.val]).half h

/-- The element in `F[k]` (R31). -/
def State.reg (s : State) (k : FIdx) : Fp2 := { a := (s.half k .a).val, b := (s.half k .b).val }

/-- `F[k].h <- v`: the half becomes valid, the other half is untouched (R16, R34, R200). -/
def State.setHalf (s : State) (k : FIdx) (h : Half) (v : Nat) : State :=
  { s with f := s.f.set k.val ((s.f[k.val]).withHalf h { val := v, valid := true }) }

/-- `F[k] <- v`: both halves become valid (R16, R34, R230). -/
def State.setReg (s : State) (k : FIdx) (v : Fp2) : State :=
  { s with f := s.f.set k.val { a := { val := v.a, valid := true }, b := { val := v.b, valid := true } } }

/-! ## The counters (R36, R37) -/

/-- `C[c]` with its valid bit. -/
def State.counter (s : State) (cr : CIdx) : CounterReg := s.c[cr.val]

/-- `C[cr] <- v; VC[cr] <- 1`. -/
def State.setCounter (s : State) (cr : CIdx) (v : BitVec 16) : State :=
  { s with c := s.c.set cr.val { val := v, valid := true } }

/-! ## The program counter (R41, R42) -/

/-- `pc <- t`. -/
def State.jump (s : State) (t : Nat) : State := { s with pc := t }

/-- `pc <- pc + 1`, as a natural number (R42). -/
def State.advance (s : State) : State := s.jump (s.pc + 1)

/-! ## Taking an exception (60_exceptions.md R341, R350) -/

/-- The code written to `CAUSE` (R341). -/
def Trap.code : Trap → BitVec 8
  | .illegalInstruction _ => 1
  | .illegalOperand _ => 2
  | .uninitRegister _ => 3
  | .dmemAccessFault _ => 4
  | .malformedInput _ => 5
  | .illegalSelector _ => 6
  | .fetchFault _ => 7

/-- The value written to `FINFO` (R341). -/
def Trap.info : Trap → BitVec 32
  | .illegalInstruction w => w
  | .illegalOperand w => w
  | .uninitRegister code => BitVec.ofNat 32 code
  | .dmemAccessFault addr => BitVec.ofNat 32 addr
  | .malformedInput addr => BitVec.ofNat 32 addr
  | .illegalSelector addr => BitVec.ofNat 32 addr
  | .fetchFault pc => BitVec.ofNat 32 pc

/-- Trap entry, the same for every cause (R350): the record is written, `STATE` becomes `FAULT`, everything else
stays, `PC` included. There is no return from it but CLEAR or reset (R352): see HostPort.lean. -/
def takeTrap (e : Trap) (s : State) : State :=
  { s with cause := e.code, epc := BitVec.ofNat 17 s.pc, finfo := e.info, run := .fault }

/-- `raise` (R16): what an instruction computes is its next state; an exception raised on the way abandons the
instruction with no architectural write, and the trap is entered from the state it began in (R350, precise). -/
def attempt (s : State) (m : Except Trap State) : Result :=
  match m with
  | .ok t => .next t
  | .error e => .next (takeTrap e s)

/-! ## Run lifecycle (70_reset_and_hazards.md) -/

/-- Every register of `F`, `C` and `SEL` unreadable, its digits zero, and `INVZ` cleared: what START and CLEAR share
(R52, R394, R396; the zeroed values are log entry 4). -/
def State.invalidate (s : State) : State :=
  { s with
    f := Vector.replicate 32 FieldReg.empty
    c := Vector.replicate 8 CounterReg.empty
    sel := .zero
    vsel := false
    invz := false }

/-- Reset of a machine that holds memory (R390): the table of R56, IMEM and DMEM unchanged. -/
def State.hardReset (s : State) : State := { State.reset with imem := s.imem, dmem := s.dmem }

end Sys2Proof.Machine
end

