-- ==== Sys2Proof/Machine/FieldArith.lean ====
section
/-!
DEFINITION. Machine/FieldArith.lean: the GF(p) functions of 43_fp.md on stored values in `[0, P)`.
-/
namespace Sys2Proof.Machine

/-- `fpadd(x, y)` (R201). -/
def fpadd (c : Config) (x y : Nat) : Nat := if c.p ≤ x + y then x + y - c.p else x + y

/-- `fpsub(x, y)` (R202). -/
def fpsub (c : Config) (x y : Nat) : Nat := if x < y then x + c.p - y else x - y

/-- `fpneg(x) = fpsub(0, x)` (R203). -/
def fpneg (c : Config) (x : Nat) : Nat := fpsub c 0 x

/-- `fpmul(x, y) = mont_reduce(mp_mul(x, y))` (R204). -/
def fpmul (c : Config) (x y : Nat) : Nat := montReduce c (mpMul x y)

/-- `toMontgomery(v) = fpmul(v, MONT_R2)` (R204). -/
def toMontgomery (c : Config) (v : Nat) : Nat := fpmul c v c.montR2

/-- `fromMontgomery(s) = fpmul(s, 1)` (R204, conflict C2). -/
def fromMontgomery (c : Config) (s : Nat) : Nat := fpmul c s 1

/-- The represented value `rep(s) = s * R^-1 mod P` (R15). -/
def rep (c : Config) (s : Nat) : Nat := s * c.rInv % c.p

/-- The stored value `sto(v) = v * R mod P` (R15). -/
def sto (c : Config) (v : Nat) : Nat := v * c.r % c.p

/-- `b^e mod m` by square and multiply over the bits of `e`, for `e < 2^n` (R206: "exponentiation"; the schedule is
not observable). -/
def powMod (m b : Nat) : Nat → Nat → Nat
  | 0, _ => 1 % m
  | n + 1, e =>
    let h := powMod m b n (e / 2)
    let q := h * h % m
    if e % 2 = 1 then q * b % m else q

/-- `fpinv(x) = sto(rep(x)^(P-2) mod P)` (R206); `fpinv(0) = 0`. -/
def fpinv (c : Config) (x : Nat) : Nat := sto c (powMod c.p (rep c x) c.bitLen (c.p - 2))

/-- R201 "in terms of the primitives": `mp_add`, then `mp_sub` of `P` over the digits plus the carry, then
`mp_cmov`. -/
def fpaddDatapath (c : Config) (x y : Nat) : Nat :=
  let (s, carry) := mpAdd c x y
  let (e, _) := mpSub c s c.p
  mpCmov s e (if c.p ≤ s + carry * c.r then .allOnes else .zero)

/-- R202 in primitives: `mp_sub`, then `mp_cmov` of `(c + P) mod R` on the borrow. -/
def fpsubDatapath (c : Config) (x y : Nat) : Nat :=
  let (d, borrow) := mpSub c x y
  mpCmov d ((d + c.p) % c.r) (if borrow = 1 then .allOnes else .zero)

end Sys2Proof.Machine
end

