-- ==== Sys2Proof/Machine/QuadArith.lean ====
section
/-!
DEFINITION. Machine/QuadArith.lean: the GF(p^2) functions of 44_fp2.md on pairs of stored values, `i^2 = -1`
(00_scope.md R11, conflict C1).
-/
namespace Sys2Proof.Machine

/-- The zero element. -/
def Fp2.zero : Fp2 := { a := 0, b := 0 }

/-- The element one, `(MONT_ONE, 0)` (R12, R306). -/
def f2one (c : Config) : Fp2 := { a := c.montOne, b := 0 }

/-- `f2add` (R231). -/
def f2add (c : Config) (x y : Fp2) : Fp2 := { a := fpadd c x.a y.a, b := fpadd c x.b y.b }

/-- `f2sub` (R232). -/
def f2sub (c : Config) (x y : Fp2) : Fp2 := { a := fpsub c x.a y.a, b := fpsub c x.b y.b }

/-- `f2mul` (R233). -/
def f2mul (c : Config) (x y : Fp2) : Fp2 where
  a := fpsub c (fpmul c x.a y.a) (fpmul c x.b y.b)
  b := fpadd c (fpmul c x.a y.b) (fpmul c x.b y.a)

/-- `f2sqr` (R234). -/
def f2sqr (c : Config) (x : Fp2) : Fp2 where
  a := fpsub c (fpmul c x.a x.a) (fpmul c x.b x.b)
  b := fpadd c (fpmul c x.a x.b) (fpmul c x.a x.b)

/-- The norm `a^2 + b^2` (R235, R241). -/
def f2norm (c : Config) (x : Fp2) : Nat := fpadd c (fpmul c x.a x.a) (fpmul c x.b x.b)

/-- `f2inv` (R235); the inverse of an element of norm 0 is `(0, 0)`. -/
def f2inv (c : Config) (x : Fp2) : Fp2 :=
  let ni := fpinv c (f2norm c x)
  { a := fpmul c x.a ni, b := fpneg c (fpmul c x.b ni) }

/-- `(a, -b)` (R236). -/
def f2conj (c : Config) (x : Fp2) : Fp2 := { a := x.a, b := fpneg c x.b }

/-- `conditionalMove` on an element: each half by `mp_cmov` (R134, R238). -/
def f2cmov (dst src : Fp2) (sel : Selector) : Fp2 := { a := mpCmov dst.a src.a sel, b := mpCmov dst.b src.b sel }

/-- `isEqual`, component-wise on stored values (R239). -/
def f2isEqual (x y : Fp2) : Bool := x.a == y.a && x.b == y.b

/-- `isZero` (R240). -/
def f2isZero (x : Fp2) : Bool := x.a == 0 && x.b == 0

/-! ## Batched inversion (R241, R242) -/

/-- The product `z1*z2*z3` whose inverse `inv3Way` takes, as R241 forms it. -/
def inv3Product (c : Config) (z1 z2 z3 : Fp2) : Fp2 := f2mul c z3 (f2mul c z1 z2)

/-- `inv3Way(z1, z2, z3)` (R241): the inverses, in the same order. -/
def inv3Way (c : Config) (z1 z2 z3 : Fp2) : Triple :=
  let t0 := f2mul c z1 z2
  let t1 := f2inv c (inv3Product c z1 z2 z3)
  let t2 := f2mul c z3 t1
  let t3 := f2mul c t2 z2
  { k0 := t3, k1 := f2mul c t2 z1, k2 := f2mul c t0 t1 }

/-- The product of all elements, by prefix products from the left (R242): `o[n-1]`. -/
def f2product (c : Config) (acc : Fp2) (vs : List Fp2) : Fp2 := vs.foldl (f2mul c) acc

/-- Montgomery's trick of R242 from the prefix product `acc = o[i-1]` on: the outputs for `v[i], v[i+1], ...` and
the value of `t` after they have been formed. -/
def invNFrom (c : Config) (acc : Fp2) : List Fp2 → List Fp2 × Fp2
  | [] => ([], f2inv c acc)
  | v :: vs =>
    let (outs, t) := invNFrom c (f2mul c acc v) vs
    (f2mul c acc t :: outs, f2mul c t v)

/-- n-way inversion of a non-empty list (R242). -/
def invN (c : Config) (v : Fp2) (vs : List Fp2) : List Fp2 :=
  let (outs, t) := invNFrom c v vs
  t :: outs

end Sys2Proof.Machine
end

