-- ==== Sys2Proof/Machine/Operands.lean ====
section
/-!
DEFINITION. Machine/Operands.lean: every operand form of the instruction set (10_state.md R33, 30_encoding.md R109)
and the checks that come before any effect, in the order of 60_exceptions.md R345: the operand check, then the
source registers (field halves, then `SEL`, then the counter: R343), then the address.
-/
namespace Sys2Proof.Machine

/-! ## Register groups (R33). The index wraps only for an operand that R114 rejects first. -/

/-- The register after `k`. -/
def nextReg (k : FIdx) : FIdx := k + 1

/-- The registers of a pair operand. -/
def pairRegs (k : FIdx) : List FIdx := [k, nextReg k]

/-- The registers of a triple operand. -/
def tripleRegs (k : FIdx) : List FIdx := [k, nextReg k, nextReg (nextReg k)]

/-- The registers of a vector operand `(k, n)`. -/
def vectorRegs (k : FIdx) : Nat → List FIdx
  | 0 => []
  | n + 1 => k :: vectorRegs (nextReg k) n

/-- The pair `(F[k], F[k+1])`. -/
def State.pair (s : State) (k : FIdx) : Pair := { x := s.reg k, z := s.reg (nextReg k) }

/-- The triple `(F[k], F[k+1], F[k+2])`. -/
def State.triple (s : State) (k : FIdx) : Triple :=
  { k0 := s.reg k, k1 := s.reg (nextReg k), k2 := s.reg (nextReg (nextReg k)) }

/-- The vector `F[k], ..., F[k+n-1]`. -/
def State.vector (s : State) (k : FIdx) (n : Nat) : List Fp2 := (vectorRegs k n).map s.reg

/-- Write a pair. -/
def State.setPair (s : State) (k : FIdx) (v : Pair) : State := (s.setReg k v.x).setReg (nextReg k) v.z

/-- Write a triple. -/
def State.setTriple (s : State) (k : FIdx) (v : Triple) : State :=
  ((s.setReg k v.k0).setReg (nextReg k) v.k1).setReg (nextReg (nextReg k)) v.k2

/-- Write a vector. -/
def State.setVector (s : State) (k : FIdx) : List Fp2 → State
  | [] => s
  | v :: vs => (s.setReg k v).setVector (nextReg k) vs

/-! ## The operand check (R114, R115, R116) -/

/-- `IllegalOperand(w)`, where `w` is the instruction's own word (log entry 7). -/
def checkOperands (i : Instr) : Except Trap Unit :=
  if i.wellFormed then .ok () else .error (.illegalOperand (encode i))

/-! ## Reading source registers (R34, R37, R39, R343) -/

/-- The register code of a half: `2*k + h` (R34, R343). -/
def halfCode (k : FIdx) (h : Half) : Nat := 2 * k.val + h.bit

/-- The codes of those halves of a list that nothing has written in this run. -/
def unreadable (s : State) (hs : List (FIdx × Half)) : List Nat :=
  (hs.filter fun x => !(s.half x.1 x.2).valid).map fun x => halfCode x.1 x.2

/-- Field halves are readable, or `UninitRegister` with the lowest code among those that are not (R34, R343). -/
def needHalves (s : State) (hs : List (FIdx × Half)) : Except Trap Unit :=
  match (unreadable s hs).min? with
  | none => .ok ()
  | some code => .error (.uninitRegister code)

/-- Both halves of each register of a list. -/
def bothHalves (ks : List FIdx) : List (FIdx × Half) := ks.flatMap fun k => [(k, .a), (k, .b)]

/-- Whole registers are readable (R34: "A GF(p^2) read of F[k] reads both halves"). -/
def needRegs (s : State) (ks : List FIdx) : Except Trap Unit := needHalves s (bothHalves ks)

/-- `SEL` is readable, or `UninitRegister(0x200)` (R39). -/
def needSel (s : State) : Except Trap Unit := if s.vsel then .ok () else .error (.uninitRegister 0x200)

/-- `C[cr]` is readable, or `UninitRegister(0x100 + cr)` (R37). -/
def needCounter (s : State) (cr : CIdx) : Except Trap Unit :=
  if (s.counter cr).valid then .ok () else .error (.uninitRegister (0x100 + cr.val))

/-! ## Immediates and addresses (R109, R180) -/

/-- `addr = C[cr] + imm16`, a natural number that does not wrap (R72, R180). -/
def State.address (s : State) (cr : CIdx) (imm : BitVec 16) : Nat := (s.counter cr).val.toNat + imm.toNat

/-- `sext_16(imm16)` (R16, R109). -/
def sext16 (imm : BitVec 16) : Int := imm.toInt

end Sys2Proof.Machine
end

