-- ==== Sys2Proof/Machine/Flags.lean ====
section
/-!
DEFINITION. Machine/Flags.lean: every flag computation of CORE: the sticky `INVZ` (10_state.md R45) and the selector
`SEL` with `VSEL` (R38, R39, 20_memory.md R90). There is no other condition code (R39).
-/
namespace Sys2Proof.Machine

/-- `if x = 0 then INVZ <- 1`: set by the operand of an internal GF(p) inversion, never cleared (R45). -/
def State.noteInversion (s : State) (operand : Nat) : State := { s with invz := s.invz || operand == 0 }

/-- The selector value of a predicate: `ALLONES` when it holds, else `0` (R39). -/
def Selector.ofBool (b : Bool) : Selector := if b then .allOnes else .zero

/-- `SEL <- v; VSEL <- 1`. -/
def State.setSel (s : State) (v : Selector) : State := { s with sel := v, vsel := true }

/-- The selector a word in memory is, if it is one (R90). -/
def selectorOfBytes (bytes : List Byte) : Option Selector :=
  if bytes.all (· == 0x00) then some .zero
  else if bytes.all (· == 0xFF) then some .allOnes
  else none

/-- The word in memory that a selector is: `WORDBYTES` equal bytes (R90, R186). -/
def selectorBytes (c : Config) (v : Selector) : List Byte :=
  List.replicate c.wordBytes (match v with | .zero => 0x00 | .allOnes => 0xFF)

end Sys2Proof.Machine
end

