-- ==== Sys2Proof/Machine/Control.lean ====
section
/-!
DEFINITION. Machine/Control.lean: the control and counter instructions, 41_control.md. For every instruction of the
machine `run<Name>` is its meaning in any configuration, and `exec<Name>` that meaning in `Config.core`, which is
what `exec` calls (log entry 1).
-/
namespace Sys2Proof.Machine

/-- `NOP` (R160). -/
def runNop (s : State) : Result := attempt s (.ok s.advance)

/-- `HALT` (R161): `STATE <- DONE`; `PC` stays. -/
def runHalt (s : State) : Result := attempt s (.ok { s with run := .done })

/-- `LDI Cc, imm16` (R162). -/
def runLdi (cr : CIdx) (imm : BitVec 16) (s : State) : Result := attempt s (.ok (s.setCounter cr imm).advance)

/-- `(C[cr] + sext_16(imm16)) mod 65536` (R163). -/
def addiValue (s : State) (cr : CIdx) (imm : BitVec 16) : BitVec 16 :=
  BitVec.ofInt 16 (((s.counter cr).val.toNat : Int) + sext16 imm)

/-- `ADDI Cc, simm16` (R163). -/
def runAddi (cr : CIdx) (imm : BitVec 16) (s : State) : Result :=
  attempt s do
    needCounter s cr
    pure (s.setCounter cr (addiValue s cr imm)).advance

/-- `JMP target` (R164). -/
def runJmp (imm : BitVec 16) (s : State) : Result := attempt s (.ok (s.jump imm.toNat))

/-- `(C[cr] - 1) mod 65536` (R165). -/
def djnzValue (s : State) (cr : CIdx) : BitVec 16 := BitVec.ofInt 16 (((s.counter cr).val.toNat : Int) - 1)

/-- `DJNZ Cc, target` (R165). -/
def runDjnz (cr : CIdx) (imm : BitVec 16) (s : State) : Result :=
  attempt s do
    needCounter s cr
    let v := djnzValue s cr
    let t := s.setCounter cr v
    pure (if v ≠ 0 then t.jump imm.toNat else t.advance)

/-- The meaning of `NOP`. -/
def execNop (s : State) : Result := runNop s

/-- The meaning of `HALT`. -/
def execHalt (s : State) : Result := runHalt s

/-- The meaning of `LDI`. -/
def execLdi (cr : CIdx) (imm : BitVec 16) (s : State) : Result := runLdi cr imm s

/-- The meaning of `ADDI`. -/
def execAddi (cr : CIdx) (imm : BitVec 16) (s : State) : Result := runAddi cr imm s

/-- The meaning of `JMP`. -/
def execJmp (imm : BitVec 16) (s : State) : Result := runJmp imm s

/-- The meaning of `DJNZ`. -/
def execDjnz (cr : CIdx) (imm : BitVec 16) (s : State) : Result := runDjnz cr imm s

end Sys2Proof.Machine
end

