-- ==== Sys2Proof/Machine/Curve.lean ====
section
/-!
DEFINITION. Machine/Curve.lean: the curve point instructions, 45_curve.md. The sequences are the rules' own, step for
step: the exact registers are architectural, not only the ratio `X/Z` (R270, D18).
-/
namespace Sys2Proof.Machine

/-- `xdbl((X, Z), A24plus, C24)` (R271); the coefficient pair is `(A24plus, C24)`. -/
def xdbl (c : Config) (p k : Pair) : Pair :=
  let t0 := f2sub c p.x p.z
  let t1 := f2add c p.x p.z
  let t0 := f2sqr c t0
  let t1 := f2sqr c t1
  let z2 := f2mul c k.z t0
  let x2 := f2mul c t1 z2
  let t1 := f2sub c t1 t0
  let t0 := f2mul c k.x t1
  let z2 := f2add c z2 t0
  let z2 := f2mul c z2 t1
  { x := x2, z := z2 }

/-- `xtpl((X, Z), A24minus, A24plus)` (R273); the coefficient pair is `(A24minus, A24plus)`. -/
def xtpl (c : Config) (p k : Pair) : Pair :=
  let t0 := f2sub c p.x p.z
  let t2 := f2sqr c t0
  let t1 := f2add c p.x p.z
  let t3 := f2sqr c t1
  let t4 := f2add c t0 t1
  let t0 := f2sub c t1 t0
  let t1 := f2sqr c t4
  let t1 := f2sub c t1 t3
  let t1 := f2sub c t1 t2
  let t5 := f2mul c t3 k.z
  let t3 := f2mul c t3 t5
  let t6 := f2mul c k.x t2
  let t2 := f2mul c t2 t6
  let t3 := f2sub c t2 t3
  let t2 := f2sub c t5 t6
  let t1 := f2mul c t1 t2
  let t2 := f2add c t3 t1
  let t2 := f2sqr c t2
  let x3 := f2mul c t4 t2
  let t1 := f2sub c t3 t1
  let t1 := f2sqr c t1
  let z3 := f2mul c t0 t1
  { x := x3, z := z3 }

/-- `xadd((XP, ZP), (XQ, ZQ), xPQ)` (R275). -/
def xadd (c : Config) (p q : Pair) (xpq : Fp2) : Pair :=
  let t0 := f2add c p.x p.z
  let t1 := f2sub c p.x p.z
  let t2 := f2sub c q.x q.z
  let t3 := f2add c q.x q.z
  let t0 := f2mul c t0 t2
  let t1 := f2mul c t1 t3
  let zs := f2sub c t0 t1
  let xs := f2add c t0 t1
  let zs := f2sqr c zs
  let xs := f2sqr c xs
  let zs := f2mul c zs xpq
  { x := xs, z := zs }

/-- `repeat e times: T <- g(T)` (R272, R274). -/
def repeatTimes (g : Pair → Pair) : Nat → Pair → Pair
  | 0, t => t
  | n + 1, t => repeatTimes g n (g t)

/-- A point instruction with a coefficient pair: point `F[ra]`, coefficients `F[rb]`, result `F[rd]` (R270). -/
def pointOp (i : Instr) (g : Pair → Pair → Pair) (rd ra rb : FIdx) (s : State) : Except Trap State := do
  checkOperands i
  needRegs s (pairRegs ra ++ pairRegs rb)
  pure (s.setPair rd (g (s.pair ra) (s.pair rb))).advance

/-- `XDBL` (R271). -/
def runXdbl (c : Config) (rd ra rb : FIdx) (s : State) : Result :=
  attempt s (pointOp (.xdbl rd ra rb) (xdbl c) rd ra rb s)

/-- `XDBLE` (R272). -/
def runXdble (c : Config) (rd ra rb : FIdx) (e : BitVec 11) (s : State) : Result :=
  attempt s (pointOp (.xdble rd ra rb e) (fun p k => repeatTimes (fun t => xdbl c t k) e.toNat p) rd ra rb s)

/-- `XTPL` (R273). -/
def runXtpl (c : Config) (rd ra rb : FIdx) (s : State) : Result :=
  attempt s (pointOp (.xtpl rd ra rb) (xtpl c) rd ra rb s)

/-- `XTPLE` (R274). -/
def runXtple (c : Config) (rd ra rb : FIdx) (e : BitVec 11) (s : State) : Result :=
  attempt s (pointOp (.xtple rd ra rb e) (fun p k => repeatTimes (fun t => xtpl c t k) e.toNat p) rd ra rb s)

/-- `XADD` (R275): `rc` is a single register holding `xPQ`. -/
def runXadd (c : Config) (rd ra rb rc : FIdx) (s : State) : Result :=
  attempt s do
    checkOperands (.xadd rd ra rb rc)
    needRegs s (pairRegs ra ++ pairRegs rb ++ [rc])
    pure (s.setPair rd (xadd c (s.pair ra) (s.pair rb) (s.reg rc))).advance

/-- `XDBLADD` (R276): `rd` is P and becomes 2P, `ra` is Q and becomes P + Q, `rb` is `xPQ`, `rc` the coefficients. -/
def runXdbladd (c : Config) (rd ra rb rc : FIdx) (s : State) : Result :=
  attempt s do
    checkOperands (.xdbladd rd ra rb rc)
    needRegs s (pairRegs rd ++ pairRegs ra ++ [rb] ++ pairRegs rc)
    let d := xdbl c (s.pair rd) (s.pair rc)
    let q := xadd c (s.pair rd) (s.pair ra) (s.reg rb)
    pure ((s.setPair rd d).setPair ra q).advance

/-- The meaning of `XDBL`. -/
def execXdbl (rd ra rb : FIdx) (s : State) : Result := runXdbl Config.core rd ra rb s

/-- The meaning of `XDBLE`. -/
def execXdble (rd ra rb : FIdx) (e : BitVec 11) (s : State) : Result := runXdble Config.core rd ra rb e s

/-- The meaning of `XTPL`. -/
def execXtpl (rd ra rb : FIdx) (s : State) : Result := runXtpl Config.core rd ra rb s

/-- The meaning of `XTPLE`. -/
def execXtple (rd ra rb : FIdx) (e : BitVec 11) (s : State) : Result := runXtple Config.core rd ra rb e s

/-- The meaning of `XADD`. -/
def execXadd (rd ra rb rc : FIdx) (s : State) : Result := runXadd Config.core rd ra rb rc s

/-- The meaning of `XDBLADD`. -/
def execXdbladd (rd ra rb rc : FIdx) (s : State) : Result := runXdbladd Config.core rd ra rb rc s

end Sys2Proof.Machine
end

