-- ==== Sys2Proof/Machine/Fp.lean ====
section
/-!
DEFINITION. Machine/Fp.lean: the GF(p) instructions, 43_fp.md. Operands are halves (R200): `d = F[rd].hd`,
`x = F[ra].ha`, `y = F[rb].hb`.
-/
namespace Sys2Proof.Machine

/-- A GF(p) instruction of one source half (R200): read, compute, write the destination half. -/
def fpUnary (g : Nat → Nat) (rd : FIdx) (hd : Half) (ra : FIdx) (ha : Half) (s : State) : Except Trap State := do
  needHalves s [(ra, ha)]
  pure (s.setHalf rd hd (g (s.half ra ha).val)).advance

/-- A GF(p) instruction of two source halves (R200). -/
def fpBinary (g : Nat → Nat → Nat) (rd : FIdx) (hd : Half) (ra : FIdx) (ha : Half) (rb : FIdx) (hb : Half)
    (s : State) : Except Trap State := do
  needHalves s [(ra, ha), (rb, hb)]
  pure (s.setHalf rd hd (g (s.half ra ha).val (s.half rb hb).val)).advance

/-- `FPADD` (R201). -/
def runFpadd (c : Config) (rd : FIdx) (hd : Half) (ra : FIdx) (ha : Half) (rb : FIdx) (hb : Half) (s : State) : Result :=
  attempt s (fpBinary (fpadd c) rd hd ra ha rb hb s)

/-- `FPSUB` (R202). -/
def runFpsub (c : Config) (rd : FIdx) (hd : Half) (ra : FIdx) (ha : Half) (rb : FIdx) (hb : Half) (s : State) : Result :=
  attempt s (fpBinary (fpsub c) rd hd ra ha rb hb s)

/-- `FPNEG` (R203). -/
def runFpneg (c : Config) (rd : FIdx) (hd : Half) (ra : FIdx) (ha : Half) (s : State) : Result :=
  attempt s (fpUnary (fpneg c) rd hd ra ha s)

/-- `FPMUL` (R205). -/
def runFpmul (c : Config) (rd : FIdx) (hd : Half) (ra : FIdx) (ha : Half) (rb : FIdx) (hb : Half) (s : State) : Result :=
  attempt s (fpBinary (fpmul c) rd hd ra ha rb hb s)

/-- `FPINV` (R207): the inverse, and `INVZ` when the operand is 0. -/
def runFpinv (c : Config) (rd : FIdx) (hd : Half) (ra : FIdx) (ha : Half) (s : State) : Result :=
  attempt s do
    let t ← fpUnary (fpinv c) rd hd ra ha s
    pure (t.noteInversion (s.half ra ha).val)

/-- `FPMOV` (R208). -/
def runFpmov (rd : FIdx) (hd : Half) (ra : FIdx) (ha : Half) (s : State) : Result :=
  attempt s (fpUnary id rd hd ra ha s)

/-- `FPTOM` (R209). -/
def runFptom (c : Config) (rd : FIdx) (hd : Half) (ra : FIdx) (ha : Half) (s : State) : Result :=
  attempt s (fpUnary (toMontgomery c) rd hd ra ha s)

/-- `FPFRM` (R210). -/
def runFpfrm (c : Config) (rd : FIdx) (hd : Half) (ra : FIdx) (ha : Half) (s : State) : Result :=
  attempt s (fpUnary (fromMontgomery c) rd hd ra ha s)

/-- The meaning of `FPADD`. -/
def execFpadd (rd : FIdx) (hd : Half) (ra : FIdx) (ha : Half) (rb : FIdx) (hb : Half) (s : State) : Result :=
  runFpadd Config.core rd hd ra ha rb hb s

/-- The meaning of `FPSUB`. -/
def execFpsub (rd : FIdx) (hd : Half) (ra : FIdx) (ha : Half) (rb : FIdx) (hb : Half) (s : State) : Result :=
  runFpsub Config.core rd hd ra ha rb hb s

/-- The meaning of `FPNEG`. -/
def execFpneg (rd : FIdx) (hd : Half) (ra : FIdx) (ha : Half) (s : State) : Result :=
  runFpneg Config.core rd hd ra ha s

/-- The meaning of `FPMUL`. -/
def execFpmul (rd : FIdx) (hd : Half) (ra : FIdx) (ha : Half) (rb : FIdx) (hb : Half) (s : State) : Result :=
  runFpmul Config.core rd hd ra ha rb hb s

/-- The meaning of `FPINV`. -/
def execFpinv (rd : FIdx) (hd : Half) (ra : FIdx) (ha : Half) (s : State) : Result :=
  runFpinv Config.core rd hd ra ha s

/-- The meaning of `FPMOV`. -/
def execFpmov (rd : FIdx) (hd : Half) (ra : FIdx) (ha : Half) (s : State) : Result := runFpmov rd hd ra ha s

/-- The meaning of `FPTOM`. -/
def execFptom (rd : FIdx) (hd : Half) (ra : FIdx) (ha : Half) (s : State) : Result :=
  runFptom Config.core rd hd ra ha s

/-- The meaning of `FPFRM`. -/
def execFpfrm (rd : FIdx) (hd : Half) (ra : FIdx) (ha : Half) (s : State) : Result :=
  runFpfrm Config.core rd hd ra ha s

end Sys2Proof.Machine
end

