-- ==== Sys2Proof/Machine/Isogeny.lean ====
section
/-!
DEFINITION. Machine/Isogeny.lean: the isogeny and invariant instructions, 46_isogeny.md. The sequences are the
rules' own, step for step (R300, D18).
-/
namespace Sys2Proof.Machine

/-- The curve pair of `get4isog((X, Z))`: `(A24plus, C24)` (R301). -/
def get4isoCurve (c : Config) (p : Pair) : Pair :=
  let k0 := f2sqr c p.z
  let k0 := f2add c k0 k0
  let c24 := f2sqr c k0
  let a24plus := f2sqr c p.x
  let a24plus := f2add c a24plus a24plus
  let a24plus := f2sqr c a24plus
  { x := a24plus, z := c24 }

/-- The coefficients of `get4isog((X, Z))`: `(K0, K1, K2)` (R301). -/
def get4isoCoeffs (c : Config) (p : Pair) : Triple :=
  let k1 := f2sub c p.x p.z
  let k2 := f2add c p.x p.z
  let k0 := f2sqr c p.z
  let k0 := f2add c k0 k0
  let k0 := f2add c k0 k0
  { k0 := k0, k1 := k1, k2 := k2 }

/-- `eval4isog((X, Z), (K0, K1, K2))` (R302). -/
def eval4iso (c : Config) (p : Pair) (k : Triple) : Pair :=
  let t0 := f2add c p.x p.z
  let t1 := f2sub c p.x p.z
  let x := f2mul c t0 k.k1
  let z := f2mul c t1 k.k2
  let t0 := f2mul c t0 t1
  let t0 := f2mul c t0 k.k0
  let t1 := f2add c x z
  let z := f2sub c x z
  let t1 := f2sqr c t1
  let z := f2sqr c z
  let x := f2add c t1 t0
  let t0 := f2sub c z t0
  let x := f2mul c x t1
  let z := f2mul c z t0
  { x := x, z := z }

/-- The coefficients of `get3isog((X, Z))`: `(K0, K1)` (R303). -/
def get3isoCoeffs (c : Config) (p : Pair) : Pair :=
  let k0 := f2sub c p.x p.z
  let k1 := f2add c p.x p.z
  { x := k0, z := k1 }

/-- The curve pair of `get3isog((X, Z))`: `(A24minus, A24plus)` (R303). -/
def get3isoCurve (c : Config) (p : Pair) : Pair :=
  let k0 := f2sub c p.x p.z
  let t0 := f2sqr c k0
  let k1 := f2add c p.x p.z
  let t1 := f2sqr c k1
  let t2 := f2add c t0 t1
  let t3 := f2add c k0 k1
  let t3 := f2sqr c t3
  let t3 := f2sub c t3 t2
  let t2 := f2add c t1 t3
  let t3 := f2add c t3 t0
  let t4 := f2add c t0 t3
  let t4 := f2add c t4 t4
  let t4 := f2add c t1 t4
  let a24minus := f2mul c t2 t4
  let t4 := f2add c t1 t2
  let t4 := f2add c t4 t4
  let t4 := f2add c t0 t4
  let t4 := f2mul c t3 t4
  let t0 := f2sub c t4 a24minus
  let a24plus := f2add c a24minus t0
  { x := a24minus, z := a24plus }

/-- `eval3isog((X, Z), (K0, K1))` (R304). -/
def eval3iso (c : Config) (p k : Pair) : Pair :=
  let t0 := f2add c p.x p.z
  let t1 := f2sub c p.x p.z
  let t0 := f2mul c t0 k.x
  let t1 := f2mul c t1 k.z
  let t2 := f2add c t0 t1
  let t0 := f2sub c t1 t0
  let t2 := f2sqr c t2
  let t0 := f2sqr c t0
  { x := f2mul c p.x t2, z := f2mul c p.z t0 }

/-! ## The j-invariant (R305): a pair here is `(A, C)` -/

/-- Form `.P24`: `(A24plus, C24)` to `(A, C)` (R305). -/
def acOfP24 (c : Config) (uv : Pair) : Pair :=
  let t := f2add c uv.x uv.x
  let t := f2add c t t
  let h := f2add c uv.z uv.z
  { x := f2sub c t h, z := uv.z }

/-- Form `.M24`: `(A24minus, A24plus)` to `(A, C)` (R305). -/
def acOfM24 (c : Config) (uv : Pair) : Pair :=
  let t := f2add c uv.z uv.x
  { x := f2add c t t, z := f2sub c uv.z uv.x }

/-- The denominator `j = C^4 (A^2 - 4C^2)` of the sequence of R305. -/
def jDenominator (c : Config) (ac : Pair) : Fp2 :=
  let j := f2sqr c ac.x
  let t1 := f2sqr c ac.z
  let t0 := f2add c t1 t1
  let t0 := f2sub c j t0
  let t0 := f2sub c t0 t1
  let j := f2sub c t0 t1
  let t1 := f2sqr c t1
  f2mul c j t1

/-- The numerator `t0 = 256 (A^2 - 3C^2)^3` of the sequence of R305. -/
def jNumerator (c : Config) (ac : Pair) : Fp2 :=
  let j := f2sqr c ac.x
  let t1 := f2sqr c ac.z
  let t0 := f2add c t1 t1
  let t0 := f2sub c j t0
  let t0 := f2sub c t0 t1
  let t0 := f2add c t0 t0
  let t0 := f2add c t0 t0
  let t1 := f2sqr c t0
  let t0 := f2mul c t0 t1
  let t0 := f2add c t0 t0
  f2add c t0 t0

/-- `jinv(A, C)` (R305). -/
def jinv (c : Config) (ac : Pair) : Fp2 := f2mul c (f2inv c (jDenominator c ac)) (jNumerator c ac)

/-! ## get_A (R306) -/

/-- The value `t0 = 4*xP*xQ*xR` that `get_A` inverts (R306). -/
def getADenominator (c : Config) (xp xq xr : Fp2) : Fp2 :=
  let t0 := f2mul c xp xq
  let t0 := f2mul c t0 xr
  let t0 := f2add c t0 t0
  f2add c t0 t0

/-- `get_A(xP, xQ, xR)` (R306). -/
def getA (c : Config) (xp xq xr : Fp2) : Fp2 :=
  let t1 := f2add c xp xq
  let t0 := f2mul c xp xq
  let a := f2mul c xr t1
  let a := f2add c t0 a
  let a := f2sub c a (f2one c)
  let t1 := f2add c t1 xr
  let a := f2sqr c a
  let t0 := f2inv c (getADenominator c xp xq xr)
  let a := f2mul c a t0
  f2sub c a t1

/-! ## The instructions -/

/-- `GET4ISO Fd, Fc, Fa` (R301). -/
def runGet4iso (c : Config) (rd ra rc : FIdx) (s : State) : Result :=
  attempt s do
    checkOperands (.get4iso rd ra rc)
    needRegs s (pairRegs ra)
    pure ((s.setPair rd (get4isoCurve c (s.pair ra))).setTriple rc (get4isoCoeffs c (s.pair ra))).advance

/-- `EVAL4ISO` (R302). -/
def runEval4iso (c : Config) (rd ra rb : FIdx) (s : State) : Result :=
  attempt s do
    checkOperands (.eval4iso rd ra rb)
    needRegs s (pairRegs ra ++ tripleRegs rb)
    pure (s.setPair rd (eval4iso c (s.pair ra) (s.triple rb))).advance

/-- `GET3ISO Fd, Fc, Fa` (R303). -/
def runGet3iso (c : Config) (rd ra rc : FIdx) (s : State) : Result :=
  attempt s do
    checkOperands (.get3iso rd ra rc)
    needRegs s (pairRegs ra)
    pure ((s.setPair rd (get3isoCurve c (s.pair ra))).setPair rc (get3isoCoeffs c (s.pair ra))).advance

/-- `EVAL3ISO` (R304). -/
def runEval3iso (c : Config) (rd ra rb : FIdx) (s : State) : Result :=
  attempt s do
    checkOperands (.eval3iso rd ra rb)
    needRegs s (pairRegs ra ++ pairRegs rb)
    pure (s.setPair rd (eval3iso c (s.pair ra) (s.pair rb))).advance

/-- The three forms of `JINV`, which differ in how the pair `F[ra]` gives `(A, C)` (R305). -/
def jinvOp (c : Config) (i : Instr) (toAC : Pair → Pair) (rd ra : FIdx) (s : State) : Except Trap State := do
  checkOperands i
  needRegs s (pairRegs ra)
  let ac := toAC (s.pair ra)
  pure ((s.setReg rd (jinv c ac)).noteInversion (f2norm c (jDenominator c ac))).advance

/-- `JINV.AC` (R305). -/
def runJinvAc (c : Config) (rd ra : FIdx) (s : State) : Result := attempt s (jinvOp c (.jinvAc rd ra) id rd ra s)

/-- `JINV.P24` (R305). -/
def runJinvP24 (c : Config) (rd ra : FIdx) (s : State) : Result :=
  attempt s (jinvOp c (.jinvP24 rd ra) (acOfP24 c) rd ra s)

/-- `JINV.M24` (R305). -/
def runJinvM24 (c : Config) (rd ra : FIdx) (s : State) : Result :=
  attempt s (jinvOp c (.jinvM24 rd ra) (acOfM24 c) rd ra s)

/-- `GETA` (R306). -/
def runGeta (c : Config) (rd ra rb rc : FIdx) (s : State) : Result :=
  attempt s do
    needRegs s [ra, rb, rc]
    let xp := s.reg ra
    let xq := s.reg rb
    let xr := s.reg rc
    pure ((s.setReg rd (getA c xp xq xr)).noteInversion (f2norm c (getADenominator c xp xq xr))).advance

/-- The meaning of `GET4ISO`. -/
def execGet4iso (rd ra rc : FIdx) (s : State) : Result := runGet4iso Config.core rd ra rc s

/-- The meaning of `EVAL4ISO`. -/
def execEval4iso (rd ra rb : FIdx) (s : State) : Result := runEval4iso Config.core rd ra rb s

/-- The meaning of `GET3ISO`. -/
def execGet3iso (rd ra rc : FIdx) (s : State) : Result := runGet3iso Config.core rd ra rc s

/-- The meaning of `EVAL3ISO`. -/
def execEval3iso (rd ra rb : FIdx) (s : State) : Result := runEval3iso Config.core rd ra rb s

/-- The meaning of `JINV.AC`. -/
def execJinvAc (rd ra : FIdx) (s : State) : Result := runJinvAc Config.core rd ra s

/-- The meaning of `JINV.P24`. -/
def execJinvP24 (rd ra : FIdx) (s : State) : Result := runJinvP24 Config.core rd ra s

/-- The meaning of `JINV.M24`. -/
def execJinvM24 (rd ra : FIdx) (s : State) : Result := runJinvM24 Config.core rd ra s

/-- The meaning of `GETA`. -/
def execGeta (rd ra rb rc : FIdx) (s : State) : Result := runGeta Config.core rd ra rb rc s

end Sys2Proof.Machine
end

