-- ==== Sys2Proof/Machine/LoadStore.lean ====
section
/-!
DEFINITION. Machine/LoadStore.lean: the memory instructions, 42_memory_ops.md. A load reads its bytes, checks them
and writes a register; a store first forms what it stores and where (`stfStore` and the like, which a reset that
arrives in the middle of it also needs: HostPort.lean) and then writes it.
-/
namespace Sys2Proof.Machine

/-- An encoded element is below `P`, or `MalformedInput` at the address it was read from (R76, R78). -/
def checkElement (c : Config) (addr v : Nat) : Except Trap Unit :=
  if c.p ≤ v then .error (.malformedInput addr) else .ok ()

/-- Read two elements of `n` bytes each, half `a` lower, each checked (R77, R78, R181, R183). -/
def loadElement (c : Config) (s : State) (addr n : Nat) : Except Trap Fp2 := do
  let bytes ← memRead c s addr (2 * n)
  let va := le (bytes.take n)
  let vb := le (bytes.drop n)
  checkElement c addr va
  checkElement c (addr + n) vb
  pure { a := va, b := vb }

/-- `LDF Fd, imm16(Cc)` (R181). -/
def runLdf (c : Config) (rd : FIdx) (cr : CIdx) (imm : BitVec 16) (s : State) : Result :=
  attempt s do
    needCounter s cr
    let v ← loadElement c s (s.address cr imm) c.nBytes
    pure (s.setReg rd { a := toMontgomery c v.a, b := toMontgomery c v.b }).advance

/-- `LDFM Fd, imm16(Cc)` (R183). -/
def runLdfm (c : Config) (rd : FIdx) (cr : CIdx) (imm : BitVec 16) (s : State) : Result :=
  attempt s do
    needCounter s cr
    let v ← loadElement c s (s.address cr imm) c.mBytes
    pure (s.setReg rd v).advance

/-- The canonical encoding of a GF(p^2) element, from its stored halves (R76, R77, R182). -/
def canonicalBytes (c : Config) (x : Fp2) : List Byte :=
  leBytes c.nBytes (fromMontgomery c x.a) ++ leBytes c.nBytes (fromMontgomery c x.b)

/-- The raw image of a GF(p^2) register (R78, R184). -/
def rawBytes (c : Config) (x : Fp2) : List Byte := leBytes c.mBytes x.a ++ leBytes c.mBytes x.b

/-- What `STF` stores and where; every exception of R182 but the range check. -/
def stfStore (c : Config) (rd : FIdx) (cr : CIdx) (imm : BitVec 16) (s : State) : Except Trap (Nat × List Byte) := do
  needRegs s [rd]
  needCounter s cr
  pure (s.address cr imm, canonicalBytes c (s.reg rd))

/-- What `STFM` stores and where (R184). -/
def stfmStore (c : Config) (rd : FIdx) (cr : CIdx) (imm : BitVec 16) (s : State) : Except Trap (Nat × List Byte) := do
  needRegs s [rd]
  needCounter s cr
  pure (s.address cr imm, rawBytes c (s.reg rd))

/-- What `SELST` stores and where (R186). -/
def selstStore (c : Config) (cr : CIdx) (imm : BitVec 16) (s : State) : Except Trap (Nat × List Byte) := do
  needSel s
  needCounter s cr
  pure (s.address cr imm, selectorBytes c s.sel)

/-- Carry a store out (R74, R182, R184, R186). -/
def performStore (c : Config) (s : State) (what : Except Trap (Nat × List Byte)) : Result :=
  attempt s do
    let (addr, bytes) ← what
    let t ← memWrite c s addr bytes
    pure t.advance

/-- `STF Fs, imm16(Cc)` (R182). -/
def runStf (c : Config) (rd : FIdx) (cr : CIdx) (imm : BitVec 16) (s : State) : Result :=
  performStore c s (stfStore c rd cr imm s)

/-- `STFM Fs, imm16(Cc)` (R184). -/
def runStfm (c : Config) (rd : FIdx) (cr : CIdx) (imm : BitVec 16) (s : State) : Result :=
  performStore c s (stfmStore c rd cr imm s)

/-- `SELLD imm16(Cc)` (R185). -/
def runSelld (c : Config) (cr : CIdx) (imm : BitVec 16) (s : State) : Result :=
  attempt s do
    needCounter s cr
    let addr := s.address cr imm
    let bytes ← memRead c s addr c.wordBytes
    match selectorOfBytes bytes with
    | some v => pure (s.setSel v).advance
    | none => throw (.illegalSelector addr)

/-- `SELST imm16(Cc)` (R186). -/
def runSelst (c : Config) (cr : CIdx) (imm : BitVec 16) (s : State) : Result :=
  performStore c s (selstStore c cr imm s)

/-- The meaning of `LDF`. -/
def execLdf (rd : FIdx) (cr : CIdx) (imm : BitVec 16) (s : State) : Result := runLdf Config.core rd cr imm s

/-- The meaning of `STF`. -/
def execStf (rd : FIdx) (cr : CIdx) (imm : BitVec 16) (s : State) : Result := runStf Config.core rd cr imm s

/-- The meaning of `LDFM`. -/
def execLdfm (rd : FIdx) (cr : CIdx) (imm : BitVec 16) (s : State) : Result := runLdfm Config.core rd cr imm s

/-- The meaning of `STFM`. -/
def execStfm (rd : FIdx) (cr : CIdx) (imm : BitVec 16) (s : State) : Result := runStfm Config.core rd cr imm s

/-- The meaning of `SELLD`. -/
def execSelld (cr : CIdx) (imm : BitVec 16) (s : State) : Result := runSelld Config.core cr imm s

/-- The meaning of `SELST`. -/
def execSelst (cr : CIdx) (imm : BitVec 16) (s : State) : Result := runSelst Config.core cr imm s

end Sys2Proof.Machine
end

