-- ==== Sys2Proof/Machine/Quad.lean ====
section
/-!
DEFINITION. Machine/Quad.lean: the GF(p^2) instructions, 44_fp2.md. Sources are whole registers, read before any
destination is written (R230).
-/
namespace Sys2Proof.Machine

/-- A GF(p^2) instruction of one source register (R230). -/
def f2Unary (g : Fp2 → Fp2) (rd ra : FIdx) (s : State) : Except Trap State := do
  needRegs s [ra]
  pure (s.setReg rd (g (s.reg ra))).advance

/-- A GF(p^2) instruction of two source registers (R230). -/
def f2Binary (g : Fp2 → Fp2 → Fp2) (rd ra rb : FIdx) (s : State) : Except Trap State := do
  needRegs s [ra, rb]
  pure (s.setReg rd (g (s.reg ra) (s.reg rb))).advance

/-- `F2ADD` (R231). -/
def runF2add (c : Config) (rd ra rb : FIdx) (s : State) : Result := attempt s (f2Binary (f2add c) rd ra rb s)

/-- `F2SUB` (R232). -/
def runF2sub (c : Config) (rd ra rb : FIdx) (s : State) : Result := attempt s (f2Binary (f2sub c) rd ra rb s)

/-- `F2MUL` (R233). -/
def runF2mul (c : Config) (rd ra rb : FIdx) (s : State) : Result := attempt s (f2Binary (f2mul c) rd ra rb s)

/-- `F2SQR` (R234). -/
def runF2sqr (c : Config) (rd ra : FIdx) (s : State) : Result := attempt s (f2Unary (f2sqr c) rd ra s)

/-- `F2INV` (R235): the inverse, and `INVZ` when the norm is 0. -/
def runF2inv (c : Config) (rd ra : FIdx) (s : State) : Result :=
  attempt s do
    let t ← f2Unary (f2inv c) rd ra s
    pure (t.noteInversion (f2norm c (s.reg ra)))

/-- `F2CONJ` (R236). -/
def runF2conj (c : Config) (rd ra : FIdx) (s : State) : Result := attempt s (f2Unary (f2conj c) rd ra s)

/-- `F2MOV` (R237). -/
def runF2mov (rd ra : FIdx) (s : State) : Result := attempt s (f2Unary id rd ra s)

/-- `F2CMOV` (R238): the destination is read whatever `SEL` is; the field halves are checked before `SEL`. -/
def runF2cmov (rd ra : FIdx) (s : State) : Result :=
  attempt s do
    needRegs s [rd, ra]
    needSel s
    pure (s.setReg rd (f2cmov (s.reg rd) (s.reg ra) s.sel)).advance

/-- `F2EQ` (R239). -/
def runF2eq (ra rb : FIdx) (s : State) : Result :=
  attempt s do
    needRegs s [ra, rb]
    pure (s.setSel (Selector.ofBool (f2isEqual (s.reg ra) (s.reg rb)))).advance

/-- `F2ISZ` (R240). -/
def runF2isz (ra : FIdx) (s : State) : Result :=
  attempt s do
    needRegs s [ra]
    pure (s.setSel (Selector.ofBool (f2isZero (s.reg ra)))).advance

/-- `F2INV3` (R241): `z1 = F[rd]`, `z2 = F[ra]`, `z3 = F[rb]`, inverted in place. -/
def runF2inv3 (c : Config) (rd ra rb : FIdx) (s : State) : Result :=
  attempt s do
    checkOperands (.f2inv3 rd ra rb)
    needRegs s [rd, ra, rb]
    let z1 := s.reg rd
    let z2 := s.reg ra
    let z3 := s.reg rb
    let o := inv3Way c z1 z2 z3
    let t := ((s.setReg rd o.k0).setReg ra o.k1).setReg rb o.k2
    pure (t.noteInversion (f2norm c (inv3Product c z1 z2 z3))).advance

/-- `F2INVN` (R242). The operand check leaves `n >= 1`, so the source vector is not empty. -/
def runF2invn (c : Config) (rd ra : FIdx) (n : BitVec 11) (s : State) : Result :=
  attempt s do
    checkOperands (.f2invn rd ra n)
    needRegs s (vectorRegs ra n.toNat)
    match s.vector ra n.toNat with
    | [] => throw (.illegalOperand (encode (.f2invn rd ra n)))
    | v :: vs => pure ((s.setVector rd (invN c v vs)).noteInversion (f2norm c (f2product c v vs))).advance

/-- The meaning of `F2ADD`. -/
def execF2add (rd ra rb : FIdx) (s : State) : Result := runF2add Config.core rd ra rb s

/-- The meaning of `F2SUB`. -/
def execF2sub (rd ra rb : FIdx) (s : State) : Result := runF2sub Config.core rd ra rb s

/-- The meaning of `F2MUL`. -/
def execF2mul (rd ra rb : FIdx) (s : State) : Result := runF2mul Config.core rd ra rb s

/-- The meaning of `F2SQR`. -/
def execF2sqr (rd ra : FIdx) (s : State) : Result := runF2sqr Config.core rd ra s

/-- The meaning of `F2INV`. -/
def execF2inv (rd ra : FIdx) (s : State) : Result := runF2inv Config.core rd ra s

/-- The meaning of `F2CONJ`. -/
def execF2conj (rd ra : FIdx) (s : State) : Result := runF2conj Config.core rd ra s

/-- The meaning of `F2MOV`. -/
def execF2mov (rd ra : FIdx) (s : State) : Result := runF2mov rd ra s

/-- The meaning of `F2CMOV`. -/
def execF2cmov (rd ra : FIdx) (s : State) : Result := runF2cmov rd ra s

/-- The meaning of `F2EQ`. -/
def execF2eq (ra rb : FIdx) (s : State) : Result := runF2eq ra rb s

/-- The meaning of `F2ISZ`. -/
def execF2isz (ra : FIdx) (s : State) : Result := runF2isz ra s

/-- The meaning of `F2INV3`. -/
def execF2inv3 (rd ra rb : FIdx) (s : State) : Result := runF2inv3 Config.core rd ra rb s

/-- The meaning of `F2INVN`. -/
def execF2invn (rd ra : FIdx) (n : BitVec 11) (s : State) : Result := runF2invn Config.core rd ra n s

end Sys2Proof.Machine
end

