-- ==== Sys2Proof/Machine/AnyConfig.lean ====
section
/-!
DEFINITION. Machine/AnyConfig.lean: the instruction set in any configuration (00_scope.md R8: "enabling multiple
parameter sets ... to coexist as distinct configured instances"), and the sequencer's step around it. `exec` is
`execIn Config.core` (Laws/Exec.lean proves it); the spec's toy vectors run in `execIn Config.t431`.
-/
namespace Sys2Proof.Machine

/-- The meaning of every instruction in a configuration. -/
def execIn (c : Config) (i : Instr) (s : State) : Result :=
  match i with
  | .nop => runNop s
  | .halt => runHalt s
  | .ldi cr imm => runLdi cr imm s
  | .addi cr imm => runAddi cr imm s
  | .jmp imm => runJmp imm s
  | .djnz cr imm => runDjnz cr imm s
  | .ldf rd cr imm => runLdf c rd cr imm s
  | .stf rd cr imm => runStf c rd cr imm s
  | .ldfm rd cr imm => runLdfm c rd cr imm s
  | .stfm rd cr imm => runStfm c rd cr imm s
  | .selld cr imm => runSelld c cr imm s
  | .selst cr imm => runSelst c cr imm s
  | .fpadd rd hd ra ha rb hb => runFpadd c rd hd ra ha rb hb s
  | .fpsub rd hd ra ha rb hb => runFpsub c rd hd ra ha rb hb s
  | .fpneg rd hd ra ha => runFpneg c rd hd ra ha s
  | .fpmul rd hd ra ha rb hb => runFpmul c rd hd ra ha rb hb s
  | .fpinv rd hd ra ha => runFpinv c rd hd ra ha s
  | .fpmov rd hd ra ha => runFpmov rd hd ra ha s
  | .fptom rd hd ra ha => runFptom c rd hd ra ha s
  | .fpfrm rd hd ra ha => runFpfrm c rd hd ra ha s
  | .f2add rd ra rb => runF2add c rd ra rb s
  | .f2sub rd ra rb => runF2sub c rd ra rb s
  | .f2mul rd ra rb => runF2mul c rd ra rb s
  | .f2sqr rd ra => runF2sqr c rd ra s
  | .f2inv rd ra => runF2inv c rd ra s
  | .f2conj rd ra => runF2conj c rd ra s
  | .f2mov rd ra => runF2mov rd ra s
  | .f2cmov rd ra => runF2cmov rd ra s
  | .f2eq ra rb => runF2eq ra rb s
  | .f2isz ra => runF2isz ra s
  | .f2inv3 rd ra rb => runF2inv3 c rd ra rb s
  | .f2invn rd ra n => runF2invn c rd ra n s
  | .xdbl rd ra rb => runXdbl c rd ra rb s
  | .xdble rd ra rb e => runXdble c rd ra rb e s
  | .xtpl rd ra rb => runXtpl c rd ra rb s
  | .xtple rd ra rb e => runXtple c rd ra rb e s
  | .xadd rd ra rb rc => runXadd c rd ra rb rc s
  | .xdbladd rd ra rb rc => runXdbladd c rd ra rb rc s
  | .get4iso rd ra rc => runGet4iso c rd ra rc s
  | .eval4iso rd ra rb => runEval4iso c rd ra rb s
  | .get3iso rd ra rc => runGet3iso c rd ra rc s
  | .eval3iso rd ra rb => runEval3iso c rd ra rb s
  | .jinvAc rd ra => runJinvAc c rd ra s
  | .jinvP24 rd ra => runJinvP24 c rd ra s
  | .jinvM24 rd ra => runJinvM24 c rd ra s
  | .geta rd ra rb rc => runGeta c rd ra rb rc s

/-- The sequencer's step (R71, R116, R394): in `RUNNING`, fetch, decode, execute; a fetch or a decode that fails is
taken as an exception at this `PC` (R345). In `IDLE`, `DONE` and `FAULT` the sequencer does nothing (R44, R384;
log entry 6). -/
def sequencerStep (c : Config) (ex : Instr → State → Result) (s : State) : Result :=
  match s.run with
  | .idle => .next s
  | .done => .next s
  | .fault => .next s
  | .running =>
    match fetch c s with
    | .error e => .next (takeTrap e s)
    | .ok w =>
      match decode w with
      | none => .next (takeTrap (.illegalInstruction w) s)
      | some i => ex i s

/-- One step of a CORE in a configuration. -/
def stepIn (c : Config) (s : State) : Result := sequencerStep c (execIn c) s

/-- Put a word where the next fetch reads it, in a machine that runs (log entry 5): `STATE = RUNNING`, the word in
IMEM at `PC`, and `PC = 0` only if `PC` was outside IMEM. -/
def placeWord (c : Config) (s : State) (w : Word) : State :=
  let at_ := if s.pc < c.imemWords then s.pc else 0
  { s with run := .running, pc := at_, imem := cellSet s.imem at_ w }

end Sys2Proof.Machine
end

