-- ==== Sys2Proof/Machine/Dispatch.lean ====
section
/-! DEFINITION. Machine/Dispatch.lean: the meaning of every instruction of the table (30_encoding.md R110), in the
machine's own configuration, `Config.core`. -/
namespace Sys2Proof.Machine

def exec (i : Instr) (s : State) : Host.Outcome State Fault Refusal :=
  match i with
  | .nop => Sys2Proof.Machine.execNop s
  | .halt => Sys2Proof.Machine.execHalt s
  | .ldi cr imm => Sys2Proof.Machine.execLdi cr imm s
  | .addi cr imm => Sys2Proof.Machine.execAddi cr imm s
  | .jmp imm => Sys2Proof.Machine.execJmp imm s
  | .djnz cr imm => Sys2Proof.Machine.execDjnz cr imm s
  | .ldf rd cr imm => Sys2Proof.Machine.execLdf rd cr imm s
  | .stf rd cr imm => Sys2Proof.Machine.execStf rd cr imm s
  | .ldfm rd cr imm => Sys2Proof.Machine.execLdfm rd cr imm s
  | .stfm rd cr imm => Sys2Proof.Machine.execStfm rd cr imm s
  | .selld cr imm => Sys2Proof.Machine.execSelld cr imm s
  | .selst cr imm => Sys2Proof.Machine.execSelst cr imm s
  | .fpadd rd hd ra ha rb hb => Sys2Proof.Machine.execFpadd rd hd ra ha rb hb s
  | .fpsub rd hd ra ha rb hb => Sys2Proof.Machine.execFpsub rd hd ra ha rb hb s
  | .fpneg rd hd ra ha => Sys2Proof.Machine.execFpneg rd hd ra ha s
  | .fpmul rd hd ra ha rb hb => Sys2Proof.Machine.execFpmul rd hd ra ha rb hb s
  | .fpinv rd hd ra ha => Sys2Proof.Machine.execFpinv rd hd ra ha s
  | .fpmov rd hd ra ha => Sys2Proof.Machine.execFpmov rd hd ra ha s
  | .fptom rd hd ra ha => Sys2Proof.Machine.execFptom rd hd ra ha s
  | .fpfrm rd hd ra ha => Sys2Proof.Machine.execFpfrm rd hd ra ha s
  | .f2add rd ra rb => Sys2Proof.Machine.execF2add rd ra rb s
  | .f2sub rd ra rb => Sys2Proof.Machine.execF2sub rd ra rb s
  | .f2mul rd ra rb => Sys2Proof.Machine.execF2mul rd ra rb s
  | .f2sqr rd ra => Sys2Proof.Machine.execF2sqr rd ra s
  | .f2inv rd ra => Sys2Proof.Machine.execF2inv rd ra s
  | .f2conj rd ra => Sys2Proof.Machine.execF2conj rd ra s
  | .f2mov rd ra => Sys2Proof.Machine.execF2mov rd ra s
  | .f2cmov rd ra => Sys2Proof.Machine.execF2cmov rd ra s
  | .f2eq ra rb => Sys2Proof.Machine.execF2eq ra rb s
  | .f2isz ra => Sys2Proof.Machine.execF2isz ra s
  | .f2inv3 rd ra rb => Sys2Proof.Machine.execF2inv3 rd ra rb s
  | .f2invn rd ra n => Sys2Proof.Machine.execF2invn rd ra n s
  | .xdbl rd ra rb => Sys2Proof.Machine.execXdbl rd ra rb s
  | .xdble rd ra rb e => Sys2Proof.Machine.execXdble rd ra rb e s
  | .xtpl rd ra rb => Sys2Proof.Machine.execXtpl rd ra rb s
  | .xtple rd ra rb e => Sys2Proof.Machine.execXtple rd ra rb e s
  | .xadd rd ra rb rc => Sys2Proof.Machine.execXadd rd ra rb rc s
  | .xdbladd rd ra rb rc => Sys2Proof.Machine.execXdbladd rd ra rb rc s
  | .get4iso rd ra rc => Sys2Proof.Machine.execGet4iso rd ra rc s
  | .eval4iso rd ra rb => Sys2Proof.Machine.execEval4iso rd ra rb s
  | .get3iso rd ra rc => Sys2Proof.Machine.execGet3iso rd ra rc s
  | .eval3iso rd ra rb => Sys2Proof.Machine.execEval3iso rd ra rb s
  | .jinvAc rd ra => Sys2Proof.Machine.execJinvAc rd ra s
  | .jinvP24 rd ra => Sys2Proof.Machine.execJinvP24 rd ra s
  | .jinvM24 rd ra => Sys2Proof.Machine.execJinvM24 rd ra s
  | .geta rd ra rb rc => Sys2Proof.Machine.execGeta rd ra rb rc s

end Sys2Proof.Machine
end

