-- ==== Sys2Proof/Machine/Step.lean ====
section
/-! DEFINITION. Machine/Step.lean: one step of the machine's sequencer, and where a word is placed for its next
fetch. -/
namespace Sys2Proof.Machine

/-- One step: fetch, decode, execute (R71, R116, R394); three outcomes, of which only `next` ever occurs. -/
def step (s : State) : Host.Outcome State Fault Refusal := sequencerStep Config.core exec s

/-- `s` with the instruction whose table word is `w` stored where `step` fetches its next instruction: one 32-bit
word, bits above `nbits` zero (R100; log entry 5). -/
def State.withFetchWord (s : State) (nbits w : Nat) : State := placeWord Config.core s (BitVec.ofNat 32 (w % 2 ^ nbits))

end Sys2Proof.Machine
end

