-- ==== Sys2Proof/Machine/HostPort.lean ====
section
/-!
DEFINITION. Machine/HostPort.lean: what the outside does to CORE: the six transactions of the host port
(20_memory.md R80), the CSRs (10_state.md R48 to R50), START and CLEAR (70_reset_and_hazards.md R394, R396), the
reset input (R390) and the `irq` output (60_exceptions.md R371). They are inputs that land between two steps of the
sequencer (log entry 11); a reset may also land inside one (log entry 10).
-/
namespace Sys2Proof.Machine

/-! ## The control and status registers -/

/-- The encoding of `STATE` (R44). -/
def RunState.code : RunState → Nat
  | .idle => 0
  | .running => 1
  | .done => 2
  | .fault => 3

/-- `ID`: CORE-ISA 1.0 (R48). -/
def csrId : BitVec 32 := 0x00010000

/-- `CFG` (R48): `NWORDS`, `WORDBITS`, `bitlen(P)`, from the top field down. DESIGN CHOICE (log entry 19): a parameter
that does not fit its field, which R9 admits and R48 does not mention, reads as its low bits. -/
def csrCfg (c : Config) : BitVec 32 := BitVec.ofNat 8 c.nWords ++ BitVec.ofNat 8 c.wordBits ++ BitVec.ofNat 16 c.bitLen

/-- `SELM`: 1 when `VSEL = 1` and `SEL = ALLONES` (R50). -/
def State.selm (s : State) : Bool := s.vsel && s.sel == .allOnes

/-- `STATUS` (R50). -/
def csrStatus (s : State) : BitVec 32 :=
  BitVec.ofNat 32 (s.run.code + 4 * s.invz.toNat + 8 * s.vsel.toNat + 16 * s.selm.toNat)

/-- `HostCsrRead(i)`: the map of R48; any other index reads 0. -/
def csrRead (c : Config) (s : State) : Nat → BitVec 32
  | 0 => csrId
  | 1 => 0
  | 2 => csrStatus s
  | 3 => (s.entry.setWidth 16).setWidth 32
  | 4 => BitVec.ofNat 32 (s.pc % 2 ^ 17)
  | 5 => s.cause.setWidth 32
  | 6 => s.epc.setWidth 32
  | 7 => s.finfo
  | 8 => csrCfg c
  | _ => 0

/-- START, effective in `IDLE` only (R394). -/
def start (s : State) : State :=
  match s.run with
  | .idle => { s.invalidate with pc := s.entry.toNat, run := .running }
  | .running => s
  | .done => s
  | .fault => s

/-- CLEAR, effective in every state but `RUNNING` (R396). -/
def clear (s : State) : State :=
  match s.run with
  | .running => s
  | .idle => { s.invalidate with cause := 0, epc := 0, finfo := 0, run := .idle }
  | .done => { s.invalidate with cause := 0, epc := 0, finfo := 0, run := .idle }
  | .fault => { s.invalidate with cause := 0, epc := 0, finfo := 0, run := .idle }

/-- A write of `CTRL` (R49): exactly bit 0 is START, exactly bit 1 is CLEAR, anything else has no effect. -/
def writeCtrl (s : State) (v : BitVec 32) : State :=
  if v = 1 then start s else if v = 2 then clear s else s

/-- A write of `ENTRY`: bits 15:0 (R47, R48). -/
def writeEntry (s : State) (v : BitVec 32) : State := { s with entry := (v.setWidth 16).setWidth 17 }

/-! ## The six transactions (R80) -/

/-- What the host asks. -/
inductive HostRequest where
  | csrRead (i : Nat)
  | csrWrite (i : Nat) (v : BitVec 32)
  | imemRead (idx : Nat)
  | imemWrite (idx : Nat) (w : Word)
  | dmemRead (addr : Nat)
  | dmemWrite (addr : Nat) (b : Byte)
deriving DecidableEq, Repr

/-- What the port answers: `ok`, with the data of a read, or `refused`, with none. -/
inductive HostReply where
  | ok
  | okWord (v : BitVec 32)
  | okByte (b : Byte)
  | refused
deriving DecidableEq, Repr

/-- `HostCsrWrite(i, v)` (R48, R49, R80): `ok` even without effect, but for `ENTRY` in `RUNNING`. -/
def hostCsrWrite (s : State) (i : Nat) (v : BitVec 32) : HostReply × State :=
  match i with
  | 1 => (.ok, writeCtrl s v)
  | 3 => if s.run = .running then (.refused, s) else (.ok, writeEntry s v)
  | _ => (.ok, s)

/-- IMEM and DMEM transactions are `ok` only when `STATE != RUNNING` and the location exists (R80). -/
def memoryOpen (s : State) (size at_ : Nat) : Bool := s.run != .running && decide (at_ < size)

/-- One transaction of the host port (R80). -/
def hostAccess (c : Config) (q : HostRequest) (s : State) : HostReply × State :=
  match q with
  | .csrRead i => (.okWord (csrRead c s i), s)
  | .csrWrite i v => hostCsrWrite s i v
  | .imemRead idx => if memoryOpen s c.imemWords idx then (.okWord (s.wordAt idx), s) else (.refused, s)
  | .imemWrite idx w =>
    if memoryOpen s c.imemWords idx then (.ok, { s with imem := cellSet s.imem idx w }) else (.refused, s)
  | .dmemRead addr => if memoryOpen s c.dmemBytes addr then (.okByte (s.byteAt addr), s) else (.refused, s)
  | .dmemWrite addr b =>
    if memoryOpen s c.dmemBytes addr then (.ok, { s with dmem := cellSet s.dmem addr b }) else (.refused, s)

/-- The level output `irq` (R371). -/
def irq (s : State) : Bool := s.run == .done || s.run == .fault

/-! ## Reset in the middle of an instruction (R390, U6, C9) -/

/-- The bytes the instruction now at `PC` is about to store, if it is a store that no exception stops. -/
def pendingStore (c : Config) (s : State) : Option (Nat × List Byte) :=
  match s.run, fetch c s with
  | .running, .ok w =>
    let what := match decode w with
      | some (.stf rd cr imm) => stfStore c rd cr imm s
      | some (.stfm rd cr imm) => stfmStore c rd cr imm s
      | some (.selst cr imm) => selstStore c cr imm s
      | _ => .error (.illegalInstruction w)
    match what with
    | .ok (addr, bytes) => if addr + bytes.length ≤ c.dmemBytes then some (addr, bytes) else none
    | .error _ => none
  | _, _ => none

/-- Of the bytes of a store, those that landed are written; the others keep their old value. -/
def writeLanded (m : Memory) (a : Nat) : List Byte → List Bool → Memory
  | b :: bs, true :: ls => writeLanded (cellSet m a b) (a + 1) bs ls
  | _ :: bs, false :: ls => writeLanded m (a + 1) bs ls
  | _, _ => m

/-- Reset that arrives while the instruction at `PC` executes: which bytes of a store in progress had landed is
not specified, so the event carries it (log entry 10). With none landed it is `State.hardReset`. -/
def resetInside (c : Config) (landed : List Bool) (s : State) : State :=
  match pendingStore c s with
  | none => s.hardReset
  | some (addr, bytes) => { s.hardReset with dmem := writeLanded s.dmem addr bytes landed }

/-! ## Everything that can happen to a CORE -/

/-- One event: a step of the sequencer, a transaction, or reset. -/
inductive Event where
  | step
  | host (q : HostRequest)
  | reset (landed : List Bool)
deriving DecidableEq, Repr

/-- The state after an event; a step that did not answer a next state would leave the machine where it stands. -/
def afterEvent (c : Config) (e : Event) (s : State) : State :=
  match e with
  | .step => match stepIn c s with
    | .next t => t
    | .fault _ => s
    | .refused _ => s
  | .host q => (hostAccess c q s).2
  | .reset landed => resetInside c landed s

end Sys2Proof.Machine
end

