-- ==== Sys2Proof/Safety.lean ====
section
/-!
DEFINITION. Safety.lean: the terms the claims about CORE are stated in: which registers an instruction reads and
writes (60_exceptions.md R343, 10_state.md R36, R39, R45), what it raises and in which order (R345), what it leaves as
it was, how a run ends (70_reset_and_hazards.md R398), the invariant of the machine, and which part of a state is
public (R402). None of it is used by the machine; the claims relate the machine to it.
-/
namespace Sys2Proof

open Sys2Proof.Machine

/-! ## What an instruction reads and writes, row by row of the rules -/

/-- The field halves an instruction reads: exactly the sources its rule names, which for `F2CMOV`, `F2INV3` and
`XDBLADD` include destinations (R343). -/
def Instr.sourceHalves : Instr → List (FIdx × Half)
  | .nop => []
  | .halt => []
  | .ldi _ _ => []
  | .addi _ _ => []
  | .jmp _ => []
  | .djnz _ _ => []
  | .ldf _ _ _ => []
  | .stf rd _ _ => bothHalves [rd]
  | .ldfm _ _ _ => []
  | .stfm rd _ _ => bothHalves [rd]
  | .selld _ _ => []
  | .selst _ _ => []
  | .fpadd _ _ ra ha rb hb => [(ra, ha), (rb, hb)]
  | .fpsub _ _ ra ha rb hb => [(ra, ha), (rb, hb)]
  | .fpneg _ _ ra ha => [(ra, ha)]
  | .fpmul _ _ ra ha rb hb => [(ra, ha), (rb, hb)]
  | .fpinv _ _ ra ha => [(ra, ha)]
  | .fpmov _ _ ra ha => [(ra, ha)]
  | .fptom _ _ ra ha => [(ra, ha)]
  | .fpfrm _ _ ra ha => [(ra, ha)]
  | .f2add _ ra rb => bothHalves [ra, rb]
  | .f2sub _ ra rb => bothHalves [ra, rb]
  | .f2mul _ ra rb => bothHalves [ra, rb]
  | .f2sqr _ ra => bothHalves [ra]
  | .f2inv _ ra => bothHalves [ra]
  | .f2conj _ ra => bothHalves [ra]
  | .f2mov _ ra => bothHalves [ra]
  | .f2cmov rd ra => bothHalves [rd, ra]
  | .f2eq ra rb => bothHalves [ra, rb]
  | .f2isz ra => bothHalves [ra]
  | .f2inv3 rd ra rb => bothHalves [rd, ra, rb]
  | .f2invn _ ra n => bothHalves (vectorRegs ra n.toNat)
  | .xdbl _ ra rb => bothHalves (pairRegs ra ++ pairRegs rb)
  | .xdble _ ra rb _ => bothHalves (pairRegs ra ++ pairRegs rb)
  | .xtpl _ ra rb => bothHalves (pairRegs ra ++ pairRegs rb)
  | .xtple _ ra rb _ => bothHalves (pairRegs ra ++ pairRegs rb)
  | .xadd _ ra rb rc => bothHalves (pairRegs ra ++ pairRegs rb ++ [rc])
  | .xdbladd rd ra rb rc => bothHalves (pairRegs rd ++ pairRegs ra ++ [rb] ++ pairRegs rc)
  | .get4iso _ ra _ => bothHalves (pairRegs ra)
  | .eval4iso _ ra rb => bothHalves (pairRegs ra ++ tripleRegs rb)
  | .get3iso _ ra _ => bothHalves (pairRegs ra)
  | .eval3iso _ ra rb => bothHalves (pairRegs ra ++ pairRegs rb)
  | .jinvAc _ ra => bothHalves (pairRegs ra)
  | .jinvP24 _ ra => bothHalves (pairRegs ra)
  | .jinvM24 _ ra => bothHalves (pairRegs ra)
  | .geta _ ra rb rc => bothHalves [ra, rb, rc]

/-- The instructions that read `SEL` (R39). -/
def Instr.readsSel : Instr → Bool
  | .nop => false
  | .halt => false
  | .ldi _ _ => false
  | .addi _ _ => false
  | .jmp _ => false
  | .djnz _ _ => false
  | .ldf _ _ _ => false
  | .stf _ _ _ => false
  | .ldfm _ _ _ => false
  | .stfm _ _ _ => false
  | .selld _ _ => false
  | .selst _ _ => true
  | .fpadd _ _ _ _ _ _ => false
  | .fpsub _ _ _ _ _ _ => false
  | .fpneg _ _ _ _ => false
  | .fpmul _ _ _ _ _ _ => false
  | .fpinv _ _ _ _ => false
  | .fpmov _ _ _ _ => false
  | .fptom _ _ _ _ => false
  | .fpfrm _ _ _ _ => false
  | .f2add _ _ _ => false
  | .f2sub _ _ _ => false
  | .f2mul _ _ _ => false
  | .f2sqr _ _ => false
  | .f2inv _ _ => false
  | .f2conj _ _ => false
  | .f2mov _ _ => false
  | .f2cmov _ _ => true
  | .f2eq _ _ => false
  | .f2isz _ => false
  | .f2inv3 _ _ _ => false
  | .f2invn _ _ _ => false
  | .xdbl _ _ _ => false
  | .xdble _ _ _ _ => false
  | .xtpl _ _ _ => false
  | .xtple _ _ _ _ => false
  | .xadd _ _ _ _ => false
  | .xdbladd _ _ _ _ => false
  | .get4iso _ _ _ => false
  | .eval4iso _ _ _ => false
  | .get3iso _ _ _ => false
  | .eval3iso _ _ _ => false
  | .jinvAc _ _ => false
  | .jinvP24 _ _ => false
  | .jinvM24 _ _ => false
  | .geta _ _ _ _ => false

/-- The counter an instruction reads, if one (R36). -/
def Instr.sourceCounter : Instr → Option CIdx
  | .nop => none
  | .halt => none
  | .ldi _ _ => none
  | .addi cr _ => some cr
  | .jmp _ => none
  | .djnz cr _ => some cr
  | .ldf _ cr _ => some cr
  | .stf _ cr _ => some cr
  | .ldfm _ cr _ => some cr
  | .stfm _ cr _ => some cr
  | .selld cr _ => some cr
  | .selst cr _ => some cr
  | .fpadd _ _ _ _ _ _ => none
  | .fpsub _ _ _ _ _ _ => none
  | .fpneg _ _ _ _ => none
  | .fpmul _ _ _ _ _ _ => none
  | .fpinv _ _ _ _ => none
  | .fpmov _ _ _ _ => none
  | .fptom _ _ _ _ => none
  | .fpfrm _ _ _ _ => none
  | .f2add _ _ _ => none
  | .f2sub _ _ _ => none
  | .f2mul _ _ _ => none
  | .f2sqr _ _ => none
  | .f2inv _ _ => none
  | .f2conj _ _ => none
  | .f2mov _ _ => none
  | .f2cmov _ _ => none
  | .f2eq _ _ => none
  | .f2isz _ => none
  | .f2inv3 _ _ _ => none
  | .f2invn _ _ _ => none
  | .xdbl _ _ _ => none
  | .xdble _ _ _ _ => none
  | .xtpl _ _ _ => none
  | .xtple _ _ _ _ => none
  | .xadd _ _ _ _ => none
  | .xdbladd _ _ _ _ => none
  | .get4iso _ _ _ => none
  | .eval4iso _ _ _ => none
  | .get3iso _ _ _ => none
  | .eval3iso _ _ _ => none
  | .jinvAc _ _ => none
  | .jinvP24 _ _ => none
  | .jinvM24 _ _ => none
  | .geta _ _ _ _ => none

/-- The field halves an instruction writes. -/
def Instr.destHalves : Instr → List (FIdx × Half)
  | .nop => []
  | .halt => []
  | .ldi _ _ => []
  | .addi _ _ => []
  | .jmp _ => []
  | .djnz _ _ => []
  | .ldf rd _ _ => bothHalves [rd]
  | .stf _ _ _ => []
  | .ldfm rd _ _ => bothHalves [rd]
  | .stfm _ _ _ => []
  | .selld _ _ => []
  | .selst _ _ => []
  | .fpadd rd hd _ _ _ _ => [(rd, hd)]
  | .fpsub rd hd _ _ _ _ => [(rd, hd)]
  | .fpneg rd hd _ _ => [(rd, hd)]
  | .fpmul rd hd _ _ _ _ => [(rd, hd)]
  | .fpinv rd hd _ _ => [(rd, hd)]
  | .fpmov rd hd _ _ => [(rd, hd)]
  | .fptom rd hd _ _ => [(rd, hd)]
  | .fpfrm rd hd _ _ => [(rd, hd)]
  | .f2add rd _ _ => bothHalves [rd]
  | .f2sub rd _ _ => bothHalves [rd]
  | .f2mul rd _ _ => bothHalves [rd]
  | .f2sqr rd _ => bothHalves [rd]
  | .f2inv rd _ => bothHalves [rd]
  | .f2conj rd _ => bothHalves [rd]
  | .f2mov rd _ => bothHalves [rd]
  | .f2cmov rd _ => bothHalves [rd]
  | .f2eq _ _ => []
  | .f2isz _ => []
  | .f2inv3 rd ra rb => bothHalves [rd, ra, rb]
  | .f2invn rd _ n => bothHalves (vectorRegs rd n.toNat)
  | .xdbl rd _ _ => bothHalves (pairRegs rd)
  | .xdble rd _ _ _ => bothHalves (pairRegs rd)
  | .xtpl rd _ _ => bothHalves (pairRegs rd)
  | .xtple rd _ _ _ => bothHalves (pairRegs rd)
  | .xadd rd _ _ _ => bothHalves (pairRegs rd)
  | .xdbladd rd ra _ _ => bothHalves (pairRegs rd ++ pairRegs ra)
  | .get4iso rd _ rc => bothHalves (pairRegs rd ++ tripleRegs rc)
  | .eval4iso rd _ _ => bothHalves (pairRegs rd)
  | .get3iso rd _ rc => bothHalves (pairRegs rd ++ pairRegs rc)
  | .eval3iso rd _ _ => bothHalves (pairRegs rd)
  | .jinvAc rd _ => bothHalves [rd]
  | .jinvP24 rd _ => bothHalves [rd]
  | .jinvM24 rd _ => bothHalves [rd]
  | .geta rd _ _ _ => bothHalves [rd]

/-- The counter an instruction writes (R36). -/
def Instr.destCounters : Instr → List CIdx
  | .nop => []
  | .halt => []
  | .ldi cr _ => [cr]
  | .addi cr _ => [cr]
  | .jmp _ => []
  | .djnz cr _ => [cr]
  | .ldf _ _ _ => []
  | .stf _ _ _ => []
  | .ldfm _ _ _ => []
  | .stfm _ _ _ => []
  | .selld _ _ => []
  | .selst _ _ => []
  | .fpadd _ _ _ _ _ _ => []
  | .fpsub _ _ _ _ _ _ => []
  | .fpneg _ _ _ _ => []
  | .fpmul _ _ _ _ _ _ => []
  | .fpinv _ _ _ _ => []
  | .fpmov _ _ _ _ => []
  | .fptom _ _ _ _ => []
  | .fpfrm _ _ _ _ => []
  | .f2add _ _ _ => []
  | .f2sub _ _ _ => []
  | .f2mul _ _ _ => []
  | .f2sqr _ _ => []
  | .f2inv _ _ => []
  | .f2conj _ _ => []
  | .f2mov _ _ => []
  | .f2cmov _ _ => []
  | .f2eq _ _ => []
  | .f2isz _ => []
  | .f2inv3 _ _ _ => []
  | .f2invn _ _ _ => []
  | .xdbl _ _ _ => []
  | .xdble _ _ _ _ => []
  | .xtpl _ _ _ => []
  | .xtple _ _ _ _ => []
  | .xadd _ _ _ _ => []
  | .xdbladd _ _ _ _ => []
  | .get4iso _ _ _ => []
  | .eval4iso _ _ _ => []
  | .get3iso _ _ _ => []
  | .eval3iso _ _ _ => []
  | .jinvAc _ _ => []
  | .jinvP24 _ _ => []
  | .jinvM24 _ _ => []
  | .geta _ _ _ _ => []

/-- The instructions that write `SEL` (R39). -/
def Instr.writesSel : Instr → Bool
  | .nop => false
  | .halt => false
  | .ldi _ _ => false
  | .addi _ _ => false
  | .jmp _ => false
  | .djnz _ _ => false
  | .ldf _ _ _ => false
  | .stf _ _ _ => false
  | .ldfm _ _ _ => false
  | .stfm _ _ _ => false
  | .selld _ _ => true
  | .selst _ _ => false
  | .fpadd _ _ _ _ _ _ => false
  | .fpsub _ _ _ _ _ _ => false
  | .fpneg _ _ _ _ => false
  | .fpmul _ _ _ _ _ _ => false
  | .fpinv _ _ _ _ => false
  | .fpmov _ _ _ _ => false
  | .fptom _ _ _ _ => false
  | .fpfrm _ _ _ _ => false
  | .f2add _ _ _ => false
  | .f2sub _ _ _ => false
  | .f2mul _ _ _ => false
  | .f2sqr _ _ => false
  | .f2inv _ _ => false
  | .f2conj _ _ => false
  | .f2mov _ _ => false
  | .f2cmov _ _ => false
  | .f2eq _ _ => true
  | .f2isz _ => true
  | .f2inv3 _ _ _ => false
  | .f2invn _ _ _ => false
  | .xdbl _ _ _ => false
  | .xdble _ _ _ _ => false
  | .xtpl _ _ _ => false
  | .xtple _ _ _ _ => false
  | .xadd _ _ _ _ => false
  | .xdbladd _ _ _ _ => false
  | .get4iso _ _ _ => false
  | .eval4iso _ _ _ => false
  | .get3iso _ _ _ => false
  | .eval3iso _ _ _ => false
  | .jinvAc _ _ => false
  | .jinvP24 _ _ => false
  | .jinvM24 _ _ => false
  | .geta _ _ _ _ => false

/-- The instructions that invert and so may set `INVZ` (R45). -/
def Instr.inverts : Instr → Bool
  | .nop => false
  | .halt => false
  | .ldi _ _ => false
  | .addi _ _ => false
  | .jmp _ => false
  | .djnz _ _ => false
  | .ldf _ _ _ => false
  | .stf _ _ _ => false
  | .ldfm _ _ _ => false
  | .stfm _ _ _ => false
  | .selld _ _ => false
  | .selst _ _ => false
  | .fpadd _ _ _ _ _ _ => false
  | .fpsub _ _ _ _ _ _ => false
  | .fpneg _ _ _ _ => false
  | .fpmul _ _ _ _ _ _ => false
  | .fpinv _ _ _ _ => true
  | .fpmov _ _ _ _ => false
  | .fptom _ _ _ _ => false
  | .fpfrm _ _ _ _ => false
  | .f2add _ _ _ => false
  | .f2sub _ _ _ => false
  | .f2mul _ _ _ => false
  | .f2sqr _ _ => false
  | .f2inv _ _ => true
  | .f2conj _ _ => false
  | .f2mov _ _ => false
  | .f2cmov _ _ => false
  | .f2eq _ _ => false
  | .f2isz _ => false
  | .f2inv3 _ _ _ => true
  | .f2invn _ _ _ => true
  | .xdbl _ _ _ => false
  | .xdble _ _ _ _ => false
  | .xtpl _ _ _ => false
  | .xtple _ _ _ _ => false
  | .xadd _ _ _ _ => false
  | .xdbladd _ _ _ _ => false
  | .get4iso _ _ _ => false
  | .eval4iso _ _ _ => false
  | .get3iso _ _ _ => false
  | .eval3iso _ _ _ => false
  | .jinvAc _ _ => true
  | .jinvP24 _ _ => true
  | .jinvM24 _ _ => true
  | .geta _ _ _ _ => true

/-- The DMEM access of an instruction: base counter, offset, width in bytes (R81: "No other instruction touches
DMEM"). -/
def Instr.access (c : Config) : Instr → Option (CIdx × BitVec 16 × Nat)
  | .nop => none
  | .halt => none
  | .ldi _ _ => none
  | .addi _ _ => none
  | .jmp _ => none
  | .djnz _ _ => none
  | .ldf _ cr imm => some (cr, imm, 2 * c.nBytes)
  | .stf _ cr imm => some (cr, imm, 2 * c.nBytes)
  | .ldfm _ cr imm => some (cr, imm, 2 * c.mBytes)
  | .stfm _ cr imm => some (cr, imm, 2 * c.mBytes)
  | .selld cr imm => some (cr, imm, c.wordBytes)
  | .selst cr imm => some (cr, imm, c.wordBytes)
  | .fpadd _ _ _ _ _ _ => none
  | .fpsub _ _ _ _ _ _ => none
  | .fpneg _ _ _ _ => none
  | .fpmul _ _ _ _ _ _ => none
  | .fpinv _ _ _ _ => none
  | .fpmov _ _ _ _ => none
  | .fptom _ _ _ _ => none
  | .fpfrm _ _ _ _ => none
  | .f2add _ _ _ => none
  | .f2sub _ _ _ => none
  | .f2mul _ _ _ => none
  | .f2sqr _ _ => none
  | .f2inv _ _ => none
  | .f2conj _ _ => none
  | .f2mov _ _ => none
  | .f2cmov _ _ => none
  | .f2eq _ _ => none
  | .f2isz _ => none
  | .f2inv3 _ _ _ => none
  | .f2invn _ _ _ => none
  | .xdbl _ _ _ => none
  | .xdble _ _ _ _ => none
  | .xtpl _ _ _ => none
  | .xtple _ _ _ _ => none
  | .xadd _ _ _ _ => none
  | .xdbladd _ _ _ _ => none
  | .get4iso _ _ _ => none
  | .eval4iso _ _ _ => none
  | .get3iso _ _ _ => none
  | .eval3iso _ _ _ => none
  | .jinvAc _ _ => none
  | .jinvP24 _ _ => none
  | .jinvM24 _ _ => none
  | .geta _ _ _ _ => none

/-- The instructions that store (R81). -/
def Instr.stores : Instr → Bool
  | .nop => false
  | .halt => false
  | .ldi _ _ => false
  | .addi _ _ => false
  | .jmp _ => false
  | .djnz _ _ => false
  | .ldf _ _ _ => false
  | .stf _ _ _ => true
  | .ldfm _ _ _ => false
  | .stfm _ _ _ => true
  | .selld _ _ => false
  | .selst _ _ => true
  | .fpadd _ _ _ _ _ _ => false
  | .fpsub _ _ _ _ _ _ => false
  | .fpneg _ _ _ _ => false
  | .fpmul _ _ _ _ _ _ => false
  | .fpinv _ _ _ _ => false
  | .fpmov _ _ _ _ => false
  | .fptom _ _ _ _ => false
  | .fpfrm _ _ _ _ => false
  | .f2add _ _ _ => false
  | .f2sub _ _ _ => false
  | .f2mul _ _ _ => false
  | .f2sqr _ _ => false
  | .f2inv _ _ => false
  | .f2conj _ _ => false
  | .f2mov _ _ => false
  | .f2cmov _ _ => false
  | .f2eq _ _ => false
  | .f2isz _ => false
  | .f2inv3 _ _ _ => false
  | .f2invn _ _ _ => false
  | .xdbl _ _ _ => false
  | .xdble _ _ _ _ => false
  | .xtpl _ _ _ => false
  | .xtple _ _ _ _ => false
  | .xadd _ _ _ _ => false
  | .xdbladd _ _ _ _ => false
  | .get4iso _ _ _ => false
  | .eval4iso _ _ _ => false
  | .get3iso _ _ _ => false
  | .eval3iso _ _ _ => false
  | .jinvAc _ _ => false
  | .jinvP24 _ _ => false
  | .jinvM24 _ _ => false
  | .geta _ _ _ _ => false


namespace Machine

/-! ## What an instruction raises (R345) -/

/-- The source register an instruction would find unreadable, as the code of R343: the lowest field half, then `SEL`,
then the counter. -/
def unreadableSource (i : Instr) (s : State) : Option Nat :=
  match (unreadable s i.sourceHalves).min? with
  | some code => some code
  | none =>
    if i.readsSel && !s.vsel then some 0x200
    else match i.sourceCounter with
      | some cr => if (s.counter cr).valid then none else some (0x100 + cr.val)
      | none => none

/-- The byte range an instruction accesses: address and width (R72, R81). -/
def accessRange (c : Config) (i : Instr) (s : State) : Option (Nat × Nat) :=
  (i.access c).map fun x => (s.address x.1 x.2.1, x.2.2)

/-- The range an instruction accesses, when it leaves DMEM (R73, R74). -/
def rangeTrap (c : Config) (i : Instr) (s : State) : Option Trap :=
  match accessRange c i s with
  | some (addr, n) => if c.dmemBytes < addr + n then some (.dmemAccessFault addr) else none
  | none => none

/-- The `n`-byte number at an address of DMEM (R75). -/
def State.numberAt (s : State) (addr n : Nat) : Nat := le (s.bytesAt addr n)

/-- Two elements of `n` bytes each, of which one is not below `P` (R76, R78). -/
def elementTrap (c : Config) (s : State) (addr n : Nat) : Option Trap :=
  if c.p ≤ s.numberAt addr n then some (.malformedInput addr)
  else if c.p ≤ s.numberAt (addr + n) n then some (.malformedInput (addr + n))
  else none

/-- The exception the loaded bytes raise (R181, R183, R185). -/
def dataTrap (c : Config) (i : Instr) (s : State) : Option Trap :=
  match i with
  | .ldf _ cr imm => elementTrap c s (s.address cr imm) c.nBytes
  | .ldfm _ cr imm => elementTrap c s (s.address cr imm) c.mBytes
  | .selld cr imm =>
    match selectorOfBytes (s.bytesAt (s.address cr imm) c.wordBytes) with
    | some _ => none
    | none => some (.illegalSelector (s.address cr imm))
  | _ => none

/-- What an instruction raises, in the order of R345 from `IllegalOperand` on. -/
def raises (c : Config) (i : Instr) (s : State) : Option Trap :=
  if i.wellFormed then
    match unreadableSource i s with
    | some code => some (.uninitRegister code)
    | none =>
      match rangeTrap c i s with
      | some e => some e
      | none => dataTrap c i s
  else some (.illegalOperand (encode i))

/-! ## What an instruction leaves as it was -/

/-- What an instruction may write besides `PC` and `STATE`. -/
structure Writes where
  /-- Field halves. -/
  halves : List (FIdx × Half)
  /-- Counters. -/
  counters : List CIdx
  /-- `SEL` and `VSEL`. -/
  selector : Bool
  /-- `INVZ`. -/
  inversion : Bool
  /-- Bytes of DMEM: address and width. -/
  stored : Option (Nat × Nat)
deriving DecidableEq, Repr

/-- Nothing but `PC` and `STATE`. -/
def Writes.nothing : Writes := { halves := [], counters := [], selector := false, inversion := false, stored := none }

/-- Field halves alone. -/
def Writes.ofHalves (hs : List (FIdx × Half)) : Writes := { Writes.nothing with halves := hs }

/-- Whole field registers alone. -/
def Writes.ofRegs (ks : List FIdx) : Writes := Writes.ofHalves (bothHalves ks)

/-- One counter alone. -/
def Writes.ofCounter (cr : CIdx) : Writes := { Writes.nothing with counters := [cr] }

/-- The selector alone. -/
def Writes.ofSelector : Writes := { Writes.nothing with selector := true }

/-- `n` bytes of DMEM at `addr` alone. -/
def Writes.ofBytes (addr n : Nat) : Writes := { Writes.nothing with stored := some (addr, n) }

/-- The same, and `INVZ`. -/
def Writes.andInvz (w : Writes) : Writes := { w with inversion := true }

/-- An address outside the stored bytes. -/
def Writes.outside (w : Writes) (a : Nat) : Prop :=
  match w.stored with
  | some (addr, n) => a < addr ∨ addr + n ≤ a
  | none => True

/-- `t` is `s` but for what `w` lists, `PC` and `STATE`: every other field half, counter, the selector, `INVZ`, the
trap record, `ENTRY`, every word of IMEM and every other byte of DMEM reads as before. -/
structure Frame (w : Writes) (s t : State) : Prop where
  halves : ∀ k h, (k, h) ∉ w.halves → t.half k h = s.half k h
  counters : ∀ cr, cr ∉ w.counters → t.counter cr = s.counter cr
  selector : w.selector = false → t.sel = s.sel ∧ t.vsel = s.vsel
  invz : w.inversion = false → t.invz = s.invz
  cause : t.cause = s.cause
  epc : t.epc = s.epc
  finfo : t.finfo = s.finfo
  entry : t.entry = s.entry
  program : ∀ n, t.wordAt n = s.wordAt n
  bytes : ∀ a, w.outside a → t.byteAt a = s.byteAt a

/-- What an instruction may write, by the tables above. -/
def instrWrites (c : Config) (i : Instr) (s : State) : Writes where
  halves := i.destHalves
  counters := i.destCounters
  selector := i.writesSel
  inversion := i.inverts
  stored := if i.stores then accessRange c i s else none

/-- `t` is `s` after an instruction that writes `w` and goes on to the next one (R41, R44). -/
structure Completes (w : Writes) (s t : State) : Prop where
  frame : Frame w s t
  pc : t.pc = s.pc + 1
  run : t.run = s.run

/-! ## Values -/

/-- A half holds a readable value (R34). -/
def HalfReg.holds (r : HalfReg) (v : Nat) : Prop := r.valid = true ∧ r.val = v

/-- Both halves of a register are readable and hold an element (R31, R34). -/
def State.regHolds (s : State) (k : FIdx) (v : Fp2) : Prop := (s.half k .a).holds v.a ∧ (s.half k .b).holds v.b

/-- A pair of registers holds a pair of elements (R33). -/
def State.pairHolds (s : State) (k : FIdx) (v : Pair) : Prop := s.regHolds k v.x ∧ s.regHolds (nextReg k) v.z

/-- A triple of registers holds a triple of elements (R33). -/
def State.tripleHolds (s : State) (k : FIdx) (v : Triple) : Prop :=
  s.regHolds k v.k0 ∧ s.regHolds (nextReg k) v.k1 ∧ s.regHolds (nextReg (nextReg k)) v.k2

/-- A counter is readable and holds a number (R36, R37). -/
def State.counterHolds (s : State) (cr : CIdx) (v : BitVec 16) : Prop :=
  (s.counter cr).valid = true ∧ (s.counter cr).val = v

/-- A stored element: both halves below `P` (R32). -/
abbrev Fp2.reduced (c : Config) (x : Fp2) : Prop := x.a < c.p ∧ x.b < c.p

/-- The element zero. -/
abbrev Fp2.isZero (x : Fp2) : Prop := x.a = 0 ∧ x.b = 0

/-! ## Represented values (R15, R11, R19) -/

/-- GF(p^2) as the rules write it: `a + b*i` over GF(p), `i^2 = -1` (R11, R19). -/
abbrev Fp2Value (c : Config) := QuadraticAlgebra (ZMod c.p) (-1) 0

/-- The value a stored element represents: each half times `R^-1` modulo `P` (R15). -/
def Fp2.value (c : Config) (x : Fp2) : Fp2Value c := ⟨x.a * c.rInv, x.b * c.rInv⟩

/-- A stored element is the one register image of a value: it represents the value, and both halves are below `P`
(R15, R32). -/
def Fp2.denotes (c : Config) (x : Fp2) (v : Fp2Value c) : Prop := x.reduced c ∧ x.value c = v

/-! ## The end of a run (R398) -/

/-- A run has ended. -/
def State.ended (s : State) : Prop := s.run = .done ∨ s.run = .fault

/-- A run has ended well. -/
def State.endedWell (s : State) : Prop := s.run = .done

/-! ## The invariant -/

/-- The fields that hold no readable value hold zero (R52, R56; log entry 4). -/
structure State.CleanRegs (s : State) : Prop where
  halves : ∀ k h, (s.half k h).valid = false → (s.half k h).val = 0
  counters : ∀ cr, (s.counter cr).valid = false → (s.counter cr).val = 0
  selector : s.vsel = false → s.sel = .zero

/-- The invariant of the machine: every half is a reduced value (R32); `PC` is in `[0, 65536]` (R40) and `ENTRY` below
65536 (R47); the memories are canonical lists of locations that exist (R53); the trap record is zero but in `FAULT`,
where it holds a code of R341 and the index `PC` stands at (R46, R350); in `IDLE` no register is readable and `INVZ` is
clear (R52, R56). -/
structure State.Inv (c : Config) (s : State) : Prop where
  reduced : ∀ k h, (s.half k h).val < c.p
  clean : s.CleanRegs
  pc : s.pc ≤ 65536
  entry : s.entry.toNat < 65536
  dmemWf : s.dmem.wf = true
  dmemBelow : cellsBelow c.dmemBytes s.dmem = true
  imemWf : s.imem.wf = true
  imemBelow : cellsBelow c.imemWords s.imem = true
  noFault : s.run ≠ .fault → s.cause = 0 ∧ s.epc = 0 ∧ s.finfo = 0
  fault : s.run = .fault → 1 ≤ s.cause.toNat ∧ s.cause.toNat ≤ 7 ∧ s.epc.toNat = s.pc
  idle : s.run = .idle →
    (∀ k h, (s.half k h).valid = false) ∧ (∀ cr, (s.counter cr).valid = false) ∧ s.vsel = false ∧ s.invz = false

/-! ## The public part of a state (R36, R402) -/

/-- Two states that differ at most in data: the values in `F`, the selector, `INVZ` and the bytes of DMEM. Everything
that decides which instruction runs next, which register it names and which address it uses is equal. -/
structure SamePublic (s t : State) : Prop where
  pc : t.pc = s.pc
  run : t.run = s.run
  program : ∀ n, t.wordAt n = s.wordAt n
  counters : ∀ cr, t.counter cr = s.counter cr
  readable : ∀ k h, (t.half k h).valid = (s.half k h).valid
  selReadable : t.vsel = s.vsel
  cause : t.cause = s.cause
  epc : t.epc = s.epc
  finfo : t.finfo = s.finfo
  entry : t.entry = s.entry
  written : t.dmem.map Prod.fst = s.dmem.map Prod.fst

/-- The state's trap record names an exception that the content of DMEM raised: `MalformedInput` or `IllegalSelector`
(R402: these "do depend on DMEM contents"). -/
def State.dataFault (s : State) : Prop := s.cause = 5 ∨ s.cause = 6

end Machine

end Sys2Proof
end

