-- ==== Sys2Proof/Certificates/Slice0/Obligations.lean ====
section
/-!
DEFINITION. Certificates/Slice0/Obligations.lean: what is claimed of the model, rule by rule of the spec. The terms are
those of Safety.lean. `exec` and `step` are the machine in `Config.core` (P434); the statements about the arithmetic
itself are made for every configuration that meets R9 and R12.
-/
section
open Sys2Proof
open Sys2Proof.Machine

/-! ## Encoding (30_encoding.md) -/

/-- R102 to R110: the encoder and the decoder agree on every instruction, whatever the values of its operands. -/
def Obligations.DecodeEncode : Prop := ∀ i : Instr, decode (encode i) = some i

/-- R110, R112: an instruction has one word only. -/
def Obligations.EncodeDecode : Prop := ∀ (w : Word) (i : Instr), decode w = some i → encode i = w

/-- R110: "a word w is the instruction exactly when `w AND mask = match`". The table has 46 rows with different
mnemonics, a row accepts exactly the words that decode to its instruction, and every decoded word has its row. -/
def Obligations.DecodeFollowsTable : Prop :=
  opTable.length = 46 ∧ (opTable.map OpRow.mnemonic).Nodup
    ∧ (∀ r ∈ opTable, ∀ w : Word, r.accepts w = true ↔ ∃ i, decode w = some i ∧ i.mnemonic = r.mnemonic)
    ∧ ∀ (w : Word) (i : Instr), decode w = some i → ∃ r ∈ opTable, r.mnemonic = i.mnemonic ∧ r.accepts w = true

/-- Words of 95_test_vectors.md section 4, at least one per family, with the instruction each stands for. -/
def Obligations.SpecWordsDecode : Prop :=
  decode 0x0C8000D8 = some (.ldi 1 216) ∧ decode 0x1080FF92 = some (.addi 1 0xFF92)
    ∧ decode 0x18000003 = some (.djnz 0 3) ∧ decode 0x2064006E = some (.ldf 3 1 110)
    ∧ decode 0x27FCFFFF = some (.stf 31 7 65535) ∧ decode 0x340C0009 = some (.selst 3 9)
    ∧ decode 0x40611005 = some (.fpadd 3 .b 1 .a 2 .b) ∧ decode 0x50C70002 = some (.fpinv 6 .a 7 .b)
    ∧ decode 0x68400800 = some (.f2mul 2 0 1) ∧ decode 0x8D000004 = some (.f2invn 8 0 4)
    ∧ decode 0xA48010D8 = some (.xdble 4 0 2 216) ∧ decode 0xB4041180 = some (.xdbladd 0 4 2 6)
    ∧ decode 0xB8800180 = some (.get4iso 4 0 6) ∧ decode 0xC9840002 = some (.jinvM24 12 4)
    ∧ decode 0xCC0110C0 = some (.geta 0 1 2 3)

/-- R111, and R112 in its form "a word that matches no row of rule R110 is illegal". -/
def Obligations.IllegalInstruction : Prop :=
  (∀ s : State, s.run = .running → s.pc < Config.core.imemWords →
    (opField (s.wordAt s.pc) ∈ [0x00, 0x07, 0x0E, 0x0F, 0x24, 0x25, 0x26, 0x27] ∨ 0x34 ≤ opField (s.wordAt s.pc)) →
    step s = .next (takeTrap (.illegalInstruction (s.wordAt s.pc)) s))
  ∧ opField 0x00000000 = 0x00 ∧ opField 0xFFFFFFFF = 0x3F
  ∧ ∀ s : State, s.run = .running → s.pc < Config.core.imemWords →
    (∀ r ∈ opTable, r.accepts (s.wordAt s.pc) = false) →
    step s = .next (takeTrap (.illegalInstruction (s.wordAt s.pc)) s)

/-- R114, R115, R116: exactly which operands are refused, and that the refusal comes before any register is read
(nothing is assumed of the registers); `FINFO` is the fetched word. -/
def Obligations.IllegalOperand : Prop :=
  (∀ rd ra rb : FIdx, ∀ i ∈ [Instr.xdbl rd ra rb, .xtpl rd ra rb, .eval3iso rd ra rb],
    i.wellFormed = false ↔ rd = 31 ∨ ra = 31 ∨ rb = 31)
  ∧ (∀ (rd ra rb : FIdx) (e : BitVec 11), ∀ i ∈ [Instr.xdble rd ra rb e, .xtple rd ra rb e],
    i.wellFormed = false ↔ rd = 31 ∨ ra = 31 ∨ rb = 31)
  ∧ (∀ rd ra rb rc : FIdx, (Instr.xadd rd ra rb rc).wellFormed = false ↔ rd = 31 ∨ ra = 31 ∨ rb = 31)
  ∧ (∀ rd ra rb rc : FIdx, (Instr.xdbladd rd ra rb rc).wellFormed = false ↔
    rd = 31 ∨ ra = 31 ∨ rc = 31 ∨ (rd.val < ra.val + 2 ∧ ra.val < rd.val + 2))
  ∧ (∀ rd ra rc : FIdx, (Instr.get4iso rd ra rc).wellFormed = false ↔
    rd = 31 ∨ ra = 31 ∨ rc = 30 ∨ rc = 31 ∨ (rc.val ≤ rd.val + 1 ∧ rd.val ≤ rc.val + 2))
  ∧ (∀ rd ra rb : FIdx, (Instr.eval4iso rd ra rb).wellFormed = false ↔ rd = 31 ∨ ra = 31 ∨ rb = 30 ∨ rb = 31)
  ∧ (∀ rd ra rc : FIdx, (Instr.get3iso rd ra rc).wellFormed = false ↔
    rd = 31 ∨ ra = 31 ∨ rc = 31 ∨ (rd.val < rc.val + 2 ∧ rc.val < rd.val + 2))
  ∧ (∀ rd ra : FIdx, ∀ i ∈ [Instr.jinvAc rd ra, .jinvP24 rd ra, .jinvM24 rd ra], i.wellFormed = false ↔ ra = 31)
  ∧ (∀ rd ra rb : FIdx, (Instr.f2inv3 rd ra rb).wellFormed = false ↔ rd = ra ∨ rd = rb ∨ ra = rb)
  ∧ (∀ (rd ra : FIdx) (n : BitVec 11), (Instr.f2invn rd ra n).wellFormed = false ↔
    n = 0 ∨ 32 < n.toNat ∨ 32 < rd.val + n.toNat ∨ 32 < ra.val + n.toNat)
  ∧ (∀ i : Instr, i.wellFormed = false → i.mnemonic ∈ ["XDBL", "XDBLE", "XTPL", "XTPLE", "XADD", "XDBLADD", "GET4ISO",
      "EVAL4ISO", "GET3ISO", "EVAL3ISO", "JINV.AC", "JINV.P24", "JINV.M24", "F2INV3", "F2INVN"])
  ∧ (∀ (i : Instr) (s : State), i.wellFormed = false → exec i s = .next (takeTrap (.illegalOperand (encode i)) s))
  ∧ ∀ (i : Instr) (s : State), s.run = .running → s.pc < Config.core.imemWords → decode (s.wordAt s.pc) = some i →
    i.wellFormed = false → step s = .next (takeTrap (.illegalOperand (s.wordAt s.pc)) s)

/-! ## The sequencer (R71, R116, R394, 60_exceptions.md) -/

/-- R71, R116, R394: a step runs the decoded instruction and adds nothing to it. -/
def Obligations.StepRunsDecoded : Prop :=
  ∀ (s : State) (i : Instr), s.run = .running → s.pc < Config.core.imemWords → decode (s.wordAt s.pc) = some i →
    step s = exec i s

/-- R350 with the codes and the extra words of R341: what trap entry writes and what it leaves, how the trap is
delivered (`STATUS`, `irq`, CSRs 5 to 7), and that a step that enters FAULT has had no other effect (precise). -/
def Obligations.TrapEntry : Prop :=
  (∀ (e : Trap) (s : State),
    (takeTrap e s).cause = e.code ∧ (takeTrap e s).epc = BitVec.ofNat 17 s.pc ∧ (takeTrap e s).finfo = e.info
    ∧ (takeTrap e s).run = .fault ∧ (takeTrap e s).pc = s.pc
    ∧ (∀ k h, (takeTrap e s).half k h = s.half k h) ∧ (∀ cr, (takeTrap e s).counter cr = s.counter cr)
    ∧ (takeTrap e s).sel = s.sel ∧ (takeTrap e s).vsel = s.vsel ∧ (takeTrap e s).invz = s.invz
    ∧ (takeTrap e s).entry = s.entry ∧ (∀ n, (takeTrap e s).wordAt n = s.wordAt n)
    ∧ (∀ a, (takeTrap e s).byteAt a = s.byteAt a)
    ∧ csrStatus (takeTrap e s) &&& 3 = 3 ∧ irq (takeTrap e s) = true
    ∧ csrRead Config.core (takeTrap e s) 5 = e.code.setWidth 32
    ∧ csrRead Config.core (takeTrap e s) 6 = (BitVec.ofNat 17 s.pc).setWidth 32
    ∧ csrRead Config.core (takeTrap e s) 7 = e.info)
  ∧ (∀ w, (Trap.illegalInstruction w).code = 1 ∧ (Trap.illegalInstruction w).info = w)
  ∧ (∀ w, (Trap.illegalOperand w).code = 2 ∧ (Trap.illegalOperand w).info = w)
  ∧ (∀ n, (Trap.uninitRegister n).code = 3 ∧ (Trap.uninitRegister n).info = BitVec.ofNat 32 n)
  ∧ (∀ a, (Trap.dmemAccessFault a).code = 4 ∧ (Trap.dmemAccessFault a).info = BitVec.ofNat 32 a)
  ∧ (∀ a, (Trap.malformedInput a).code = 5 ∧ (Trap.malformedInput a).info = BitVec.ofNat 32 a)
  ∧ (∀ a, (Trap.illegalSelector a).code = 6 ∧ (Trap.illegalSelector a).info = BitVec.ofNat 32 a)
  ∧ (∀ n, (Trap.fetchFault n).code = 7 ∧ (Trap.fetchFault n).info = BitVec.ofNat 32 n)
  ∧ ∀ s t : State, s.run = .running → step s = .next t → t.run = .fault → ∃ e, t = takeTrap e s

/-- R345: of several conditions the first in the order of the rule is reported, one exception at most; and with none
of them the instruction completes. -/
def Obligations.ExceptionPriority : Prop :=
  ∀ s : State, s.run = .running →
    (Config.core.imemWords ≤ s.pc → step s = .next (takeTrap (.fetchFault s.pc) s))
    ∧ (s.pc < Config.core.imemWords → decode (s.wordAt s.pc) = none →
      step s = .next (takeTrap (.illegalInstruction (s.wordAt s.pc)) s))
    ∧ ∀ i : Instr, s.pc < Config.core.imemWords → decode (s.wordAt s.pc) = some i →
      (∀ e, raises Config.core i s = some e → step s = .next (takeTrap e s))
      ∧ (raises Config.core i s = none → ∃ t, step s = .next t ∧ t.run ≠ .fault)

/-- R343 (with R34, R37, R39): the source that is reported when an instruction reads registers that nothing has
written in this run, for every instruction. -/
def Obligations.UninitRegister : Prop :=
  (∀ (i : Instr) (s : State) (code : Nat), i.wellFormed = true → unreadableSource i s = some code →
    exec i s = .next (takeTrap (.uninitRegister code) s))
  ∧ ∀ (i : Instr) (s t : State), s.cause = 0 → exec i s = .next t → t.cause = 3 → ∃ code, unreadableSource i s = some code

/-- Every instruction completes wherever it raises nothing, and then: it writes at most what the tables of Safety.lean
list for it, `STATE` changes by `HALT` alone, and a set `INVZ` stays set (R45, R350, R395). -/
def Obligations.InstructionFrame : Prop :=
  ∀ (i : Instr) (s : State), raises Config.core i s = none →
    ∃ t, exec i s = .next t ∧ Frame (instrWrites Config.core i s) s t
      ∧ t.run = (if i = .halt then .done else s.run) ∧ (s.invz = true → t.invz = true)

/-- R41, R42: where `PC` goes, for every instruction. It never wraps: `PC` is a natural number. -/
def Obligations.Advance : Prop :=
  ∀ (i : Instr) (s t : State), s.run = .running → exec i s = .next t →
    (t.run = .fault ∧ t.pc = s.pc ∧ t.epc = BitVec.ofNat 17 s.pc)
    ∨ (i = .halt ∧ t.pc = s.pc)
    ∨ (∃ imm, i = .jmp imm ∧ t.pc = imm.toNat)
    ∨ (∃ cr imm, i = .djnz cr imm ∧ (t.counter cr).val ≠ 0 ∧ t.pc = imm.toNat)
    ∨ (i ≠ .halt ∧ (∀ imm, i ≠ .jmp imm) ∧ (∀ cr imm, i = .djnz cr imm → (t.counter cr).val = 0) ∧ t.pc = s.pc + 1)

/-! ## Control (41_control.md) -/

/-- R160. -/
def Obligations.NopResult : Prop :=
  decode 0x04000000 = some .nop ∧ encode .nop = 0x04000000
    ∧ ∀ s : State, ∃ t, exec .nop s = .next t ∧ Completes Writes.nothing s t

/-- R161: `PC` stays, `STATE` becomes DONE, everything else keeps its value, and no further instruction is fetched
(that a step in DONE answers the same state is the model's, log entry 6). -/
def Obligations.HaltResult : Prop :=
  decode 0x08000000 = some .halt ∧ encode .halt = 0x08000000
    ∧ ∀ s : State, ∃ t, exec .halt s = .next t ∧ Frame Writes.nothing s t ∧ t.pc = s.pc ∧ t.run = .done
      ∧ step t = .next t

/-- R162. It reads no counter, so it runs in every state. -/
def Obligations.LdiResult : Prop :=
  decode 0x0C8000D8 = some (.ldi 1 216)
    ∧ ∀ (cr : CIdx) (imm : BitVec 16) (s : State), ∃ t, exec (.ldi cr imm) s = .next t
      ∧ Completes (Writes.ofCounter cr) s t ∧ t.counterHolds cr imm

/-- R163: the sum is taken modulo 65536, the immediate signed. -/
def Obligations.AddiResult : Prop :=
  decode 0x1080FF92 = some (.addi 1 0xFF92)
    ∧ (∀ (cr : CIdx) (imm : BitVec 16) (s : State), (s.counter cr).valid = true →
      ∃ t, exec (.addi cr imm) s = .next t ∧ Completes (Writes.ofCounter cr) s t ∧ (t.counter cr).valid = true
        ∧ ((t.counter cr).val.toNat : Int) = (((s.counter cr).val.toNat : Int) + imm.toInt) % 65536)
    ∧ ∀ (cr : CIdx) (imm : BitVec 16) (s : State), (s.counter cr).valid = false →
      exec (.addi cr imm) s = .next (takeTrap (.uninitRegister (0x100 + cr.val)) s)

/-- R164: the target is absolute, it may lie outside IMEM (then the next fetch faults there), and a jump to itself
leaves the machine as it is. -/
def Obligations.JmpResult : Prop :=
  decode 0x14000005 = some (.jmp 5)
    ∧ (∀ (imm : BitVec 16) (s : State), ∃ t, exec (.jmp imm) s = .next t ∧ Frame Writes.nothing s t
      ∧ t.run = s.run ∧ t.pc = imm.toNat
      ∧ (s.run = .running → Config.core.imemWords ≤ imm.toNat → step t = .next (takeTrap (.fetchFault imm.toNat) t)))
    ∧ ∀ (imm : BitVec 16) (s : State), s.run = .running → s.pc = imm.toNat → s.pc < Config.core.imemWords →
      decode (s.wordAt s.pc) = some (.jmp imm) → step s = .next s

/-- R165: the counter is decremented modulo 65536 and the jump is taken unless it became 0. -/
def Obligations.DjnzResult : Prop :=
  decode 0x18000003 = some (.djnz 0 3)
    ∧ (∀ (cr : CIdx) (imm : BitVec 16) (s : State), (s.counter cr).valid = true →
      ∃ t, exec (.djnz cr imm) s = .next t ∧ Frame (Writes.ofCounter cr) s t ∧ t.run = s.run
        ∧ (t.counter cr).valid = true
        ∧ (t.counter cr).val.toNat = ((s.counter cr).val.toNat + 65535) % 65536
        ∧ t.pc = if (s.counter cr).val = 1 then s.pc + 1 else imm.toNat)
    ∧ ∀ (cr : CIdx) (imm : BitVec 16) (s : State), (s.counter cr).valid = false →
      exec (.djnz cr imm) s = .next (takeTrap (.uninitRegister (0x100 + cr.val)) s)

/-! ## Memory (42_memory_ops.md, 20_memory.md) -/

/-- R181 where it completes: the two canonical numbers, converted into Montgomery form. -/
def Obligations.LdfResult : Prop :=
  ∀ (rd : FIdx) (cr : CIdx) (imm : BitVec 16) (s : State), (s.counter cr).valid = true →
    s.address cr imm + 2 * Config.core.nBytes ≤ Config.core.dmemBytes →
    s.numberAt (s.address cr imm) Config.core.nBytes < Config.core.p →
    s.numberAt (s.address cr imm + Config.core.nBytes) Config.core.nBytes < Config.core.p →
    ∃ t, exec (.ldf rd cr imm) s = .next t ∧ Completes (Writes.ofRegs [rd]) s t
      ∧ t.regHolds rd
        { a := s.numberAt (s.address cr imm) Config.core.nBytes * Config.core.r % Config.core.p
          b := s.numberAt (s.address cr imm + Config.core.nBytes) Config.core.nBytes * Config.core.r % Config.core.p }

/-- R183 where it completes: the two raw numbers as they stand. -/
def Obligations.LdfmResult : Prop :=
  ∀ (rd : FIdx) (cr : CIdx) (imm : BitVec 16) (s : State), (s.counter cr).valid = true →
    s.address cr imm + 2 * Config.core.mBytes ≤ Config.core.dmemBytes →
    s.numberAt (s.address cr imm) Config.core.mBytes < Config.core.p →
    s.numberAt (s.address cr imm + Config.core.mBytes) Config.core.mBytes < Config.core.p →
    ∃ t, exec (.ldfm rd cr imm) s = .next t ∧ Completes (Writes.ofRegs [rd]) s t
      ∧ t.regHolds rd
        { a := s.numberAt (s.address cr imm) Config.core.mBytes
          b := s.numberAt (s.address cr imm + Config.core.mBytes) Config.core.mBytes }

/-- R73, R76, R78, R181, R183: what the two loads refuse, in which order, and with which address in `FINFO`; a value
that is not below `P` is "never silently reduced". -/
def Obligations.LoadTraps : Prop :=
  ∀ (rd : FIdx) (cr : CIdx) (imm : BitVec 16) (s : State), (s.counter cr).valid = true →
    ∀ x ∈ [(Instr.ldf rd cr imm, Config.core.nBytes), (Instr.ldfm rd cr imm, Config.core.mBytes)],
      (Config.core.dmemBytes < s.address cr imm + 2 * x.2 →
        exec x.1 s = .next (takeTrap (.dmemAccessFault (s.address cr imm)) s))
      ∧ (s.address cr imm + 2 * x.2 ≤ Config.core.dmemBytes → Config.core.p ≤ s.numberAt (s.address cr imm) x.2 →
        exec x.1 s = .next (takeTrap (.malformedInput (s.address cr imm)) s))
      ∧ (s.address cr imm + 2 * x.2 ≤ Config.core.dmemBytes → s.numberAt (s.address cr imm) x.2 < Config.core.p →
        Config.core.p ≤ s.numberAt (s.address cr imm + x.2) x.2 →
        exec x.1 s = .next (takeTrap (.malformedInput (s.address cr imm + x.2)) s))

/-- R182: the canonical bytes of the represented values, at `C[cr] + imm16`, or nothing at all. -/
def Obligations.StfResult : Prop :=
  ∀ (rd : FIdx) (cr : CIdx) (imm : BitVec 16) (s : State) (x : Fp2), s.regHolds rd x → (s.counter cr).valid = true →
    (s.address cr imm + 2 * Config.core.nBytes ≤ Config.core.dmemBytes →
      ∃ t, exec (.stf rd cr imm) s = .next t
        ∧ Completes (Writes.ofBytes (s.address cr imm) (2 * Config.core.nBytes)) s t
        ∧ t.bytesAt (s.address cr imm) (2 * Config.core.nBytes)
          = leBytes Config.core.nBytes (x.a * Config.core.rInv % Config.core.p)
            ++ leBytes Config.core.nBytes (x.b * Config.core.rInv % Config.core.p))
    ∧ (Config.core.dmemBytes < s.address cr imm + 2 * Config.core.nBytes →
      exec (.stf rd cr imm) s = .next (takeTrap (.dmemAccessFault (s.address cr imm)) s))

/-- R184: the raw image of the register, at `C[cr] + imm16`, or nothing at all. -/
def Obligations.StfmResult : Prop :=
  ∀ (rd : FIdx) (cr : CIdx) (imm : BitVec 16) (s : State) (x : Fp2), s.regHolds rd x → (s.counter cr).valid = true →
    (s.address cr imm + 2 * Config.core.mBytes ≤ Config.core.dmemBytes →
      ∃ t, exec (.stfm rd cr imm) s = .next t
        ∧ Completes (Writes.ofBytes (s.address cr imm) (2 * Config.core.mBytes)) s t
        ∧ t.bytesAt (s.address cr imm) (2 * Config.core.mBytes)
          = leBytes Config.core.mBytes x.a ++ leBytes Config.core.mBytes x.b)
    ∧ (Config.core.dmemBytes < s.address cr imm + 2 * Config.core.mBytes →
      exec (.stfm rd cr imm) s = .next (takeTrap (.dmemAccessFault (s.address cr imm)) s))

/-- R185, R90: the word loaded is one of the two selectors, or `IllegalSelector` with `SEL` and `VSEL` unchanged. -/
def Obligations.SelldResult : Prop :=
  ∀ (cr : CIdx) (imm : BitVec 16) (s : State), (s.counter cr).valid = true →
    (s.address cr imm + Config.core.wordBytes ≤ Config.core.dmemBytes →
      (∀ v : Selector, s.bytesAt (s.address cr imm) Config.core.wordBytes
          = List.replicate Config.core.wordBytes (if v = .allOnes then 0xFF else 0x00) →
        ∃ t, exec (.selld cr imm) s = .next t ∧ Completes Writes.ofSelector s t ∧ t.sel = v ∧ t.vsel = true)
      ∧ (s.bytesAt (s.address cr imm) Config.core.wordBytes ≠ List.replicate Config.core.wordBytes 0x00 →
        s.bytesAt (s.address cr imm) Config.core.wordBytes ≠ List.replicate Config.core.wordBytes 0xFF →
        exec (.selld cr imm) s = .next (takeTrap (.illegalSelector (s.address cr imm)) s)))
    ∧ (Config.core.dmemBytes < s.address cr imm + Config.core.wordBytes →
      exec (.selld cr imm) s = .next (takeTrap (.dmemAccessFault (s.address cr imm)) s))

/-- R186: the selector's word, at `C[cr] + imm16`, or nothing at all. -/
def Obligations.SelstResult : Prop :=
  ∀ (cr : CIdx) (imm : BitVec 16) (s : State), s.vsel = true → (s.counter cr).valid = true →
    (s.address cr imm + Config.core.wordBytes ≤ Config.core.dmemBytes →
      ∃ t, exec (.selst cr imm) s = .next t
        ∧ Completes (Writes.ofBytes (s.address cr imm) Config.core.wordBytes) s t
        ∧ t.bytesAt (s.address cr imm) Config.core.wordBytes
          = List.replicate Config.core.wordBytes (if s.sel = .allOnes then 0xFF else 0x00))
    ∧ (Config.core.dmemBytes < s.address cr imm + Config.core.wordBytes →
      exec (.selst cr imm) s = .next (takeTrap (.dmemAccessFault (s.address cr imm)) s))

/-- R182, R184, R85: `LDF` and then `STF` of the same register to the same place leaves every byte of DMEM as it was;
`STFM` and then `LDFM` from the same place, into any register, gives that register the element stored. -/
def Obligations.StoreLoadRoundTrips : Prop :=
  (∀ (rd : FIdx) (cr : CIdx) (imm : BitVec 16) (s : State), (s.counter cr).valid = true →
    s.address cr imm + 2 * Config.core.nBytes ≤ Config.core.dmemBytes →
    s.numberAt (s.address cr imm) Config.core.nBytes < Config.core.p →
    s.numberAt (s.address cr imm + Config.core.nBytes) Config.core.nBytes < Config.core.p →
    ∃ t u, exec (.ldf rd cr imm) s = .next t ∧ exec (.stf rd cr imm) t = .next u
      ∧ ∀ a, u.byteAt a = s.byteAt a)
  ∧ ∀ (rs rd : FIdx) (cr : CIdx) (imm : BitVec 16) (s : State) (x : Fp2), s.regHolds rs x → x.reduced Config.core →
    (s.counter cr).valid = true → s.address cr imm + 2 * Config.core.mBytes ≤ Config.core.dmemBytes →
    ∃ t u, exec (.stfm rs cr imm) s = .next t ∧ exec (.ldfm rd cr imm) t = .next u
      ∧ u.regHolds rd x ∧ ∀ k h, k ≠ rd → u.half k h = s.half k h

/-! ## GF(p) (43_fp.md). Operands are halves that hold reduced values (R32) -/

/-- R200, R201, R202, R205. -/
def Obligations.FpBinaryResults : Prop :=
  ∀ (rd : FIdx) (hd : Half) (ra : FIdx) (ha : Half) (rb : FIdx) (hb : Half) (s : State) (x y : Nat),
    (s.half ra ha).holds x → (s.half rb hb).holds y → x < Config.core.p → y < Config.core.p →
    (∃ t, exec (.fpadd rd hd ra ha rb hb) s = .next t ∧ Completes (Writes.ofHalves [(rd, hd)]) s t
      ∧ (t.half rd hd).holds ((x + y) % Config.core.p))
    ∧ (∃ t, exec (.fpsub rd hd ra ha rb hb) s = .next t ∧ Completes (Writes.ofHalves [(rd, hd)]) s t
      ∧ (t.half rd hd).holds ((x + Config.core.p - y) % Config.core.p))
    ∧ ∃ t, exec (.fpmul rd hd ra ha rb hb) s = .next t ∧ Completes (Writes.ofHalves [(rd, hd)]) s t
      ∧ (t.half rd hd).holds (x * y * Config.core.rInv % Config.core.p)

/-- R200, R203, R208, R209, R210. -/
def Obligations.FpUnaryResults : Prop :=
  ∀ (rd : FIdx) (hd : Half) (ra : FIdx) (ha : Half) (s : State) (x : Nat),
    (s.half ra ha).holds x → x < Config.core.p →
    (∃ t, exec (.fpneg rd hd ra ha) s = .next t ∧ Completes (Writes.ofHalves [(rd, hd)]) s t
      ∧ (t.half rd hd).holds ((Config.core.p - x) % Config.core.p))
    ∧ (∃ t, exec (.fpmov rd hd ra ha) s = .next t ∧ Completes (Writes.ofHalves [(rd, hd)]) s t
      ∧ (t.half rd hd).holds x)
    ∧ (∃ t, exec (.fptom rd hd ra ha) s = .next t ∧ Completes (Writes.ofHalves [(rd, hd)]) s t
      ∧ (t.half rd hd).holds (x * Config.core.r % Config.core.p))
    ∧ ∃ t, exec (.fpfrm rd hd ra ha) s = .next t ∧ Completes (Writes.ofHalves [(rd, hd)]) s t
      ∧ (t.half rd hd).holds (x * Config.core.rInv % Config.core.p)

/-- R207: the inverse of R206 (what it is: FpinvLaw), and `INVZ` exactly when the operand is 0 or it was set. -/
def Obligations.FpinvResult : Prop :=
  ∀ (rd : FIdx) (hd : Half) (ra : FIdx) (ha : Half) (s : State) (x : Nat), (s.half ra ha).holds x →
    ∃ t, exec (.fpinv rd hd ra ha) s = .next t ∧ Completes (Writes.ofHalves [(rd, hd)]).andInvz s t
      ∧ (t.half rd hd).holds (fpinv Config.core x) ∧ (t.invz = true ↔ s.invz = true ∨ x = 0)

/-! ## GF(p^2) (44_fp2.md) -/

/-- R230, R231, R232, R233: sums and differences by halves, and the product with `i^2 = -1`. -/
def Obligations.F2BinaryResults : Prop :=
  ∀ (rd ra rb : FIdx) (s : State) (x y : Fp2), s.regHolds ra x → s.regHolds rb y →
    x.reduced Config.core → y.reduced Config.core →
    (∃ t, exec (.f2add rd ra rb) s = .next t ∧ Completes (Writes.ofRegs [rd]) s t
      ∧ t.regHolds rd { a := (x.a + y.a) % Config.core.p, b := (x.b + y.b) % Config.core.p })
    ∧ (∃ t, exec (.f2sub rd ra rb) s = .next t ∧ Completes (Writes.ofRegs [rd]) s t
      ∧ t.regHolds rd { a := (x.a + Config.core.p - y.a) % Config.core.p
                        b := (x.b + Config.core.p - y.b) % Config.core.p })
    ∧ ∃ t v, exec (.f2mul rd ra rb) s = .next t ∧ Completes (Writes.ofRegs [rd]) s t ∧ t.regHolds rd v
      ∧ (v.a : Int) = ((x.a : Int) * y.a - x.b * y.b) * Config.core.rInv % Config.core.p
      ∧ (v.b : Int) = ((x.a : Int) * y.b + x.b * y.a) * Config.core.rInv % Config.core.p

/-- R234, R236, R237. -/
def Obligations.F2UnaryResults : Prop :=
  ∀ (rd ra : FIdx) (s : State) (x : Fp2), s.regHolds ra x → x.reduced Config.core →
    (∃ t v, exec (.f2sqr rd ra) s = .next t ∧ Completes (Writes.ofRegs [rd]) s t ∧ t.regHolds rd v
      ∧ (v.a : Int) = ((x.a : Int) * x.a - x.b * x.b) * Config.core.rInv % Config.core.p
      ∧ (v.b : Int) = (2 * (x.a : Int) * x.b) * Config.core.rInv % Config.core.p)
    ∧ (∃ t, exec (.f2conj rd ra) s = .next t ∧ Completes (Writes.ofRegs [rd]) s t
      ∧ t.regHolds rd { a := x.a, b := (Config.core.p - x.b) % Config.core.p })
    ∧ ∃ t, exec (.f2mov rd ra) s = .next t ∧ Completes (Writes.ofRegs [rd]) s t ∧ t.regHolds rd x

/-- R235: the inverse through the norm (what it is: F2invLaw), and `INVZ` exactly when the norm is 0 or it was set. -/
def Obligations.F2invResult : Prop :=
  ∀ (rd ra : FIdx) (s : State) (x : Fp2), s.regHolds ra x →
    ∃ t, exec (.f2inv rd ra) s = .next t ∧ Completes (Writes.ofRegs [rd]).andInvz s t
      ∧ t.regHolds rd
        { a := fpmul Config.core x.a (fpinv Config.core (f2norm Config.core x))
          b := fpneg Config.core (fpmul Config.core x.b (fpinv Config.core (f2norm Config.core x))) }
      ∧ (t.invz = true ↔ s.invz = true ∨ (x.a * x.a + x.b * x.b) * Config.core.rInv % Config.core.p = 0)

/-- R238, R134: the whole source or nothing; the destination is a source too. The selected value is also what the bit
formula of R134 gives on digit arrays, `d XOR (SEL AND (d XOR s))`. -/
def Obligations.F2cmovResult : Prop :=
  (∀ (rd ra : FIdx) (s : State) (d x : Fp2), s.regHolds rd d → s.regHolds ra x → s.vsel = true →
    ∃ t, exec (.f2cmov rd ra) s = .next t ∧ Completes (Writes.ofRegs [rd]) s t
      ∧ t.regHolds rd (if s.sel = .allOnes then x else d))
  ∧ ∀ (c : Config) (d x : Nat) (v : Selector), d < c.r → x < c.r →
    mpCmovBits c d x v = if v = .allOnes then x else d

/-- R239, R240: the two predicates, which write the selector alone. -/
def Obligations.F2PredicateResults : Prop :=
  ∀ (ra rb : FIdx) (s : State) (x y : Fp2), s.regHolds ra x → s.regHolds rb y →
    (∃ t, exec (.f2eq ra rb) s = .next t ∧ Completes Writes.ofSelector s t ∧ t.vsel = true
      ∧ t.sel = if x = y then .allOnes else .zero)
    ∧ ∃ t, exec (.f2isz ra) s = .next t ∧ Completes Writes.ofSelector s t ∧ t.vsel = true
      ∧ t.sel = if x.a = 0 ∧ x.b = 0 then .allOnes else .zero

/-- R241: three registers inverted in place through one inversion (what the results are: BatchedInversion). -/
def Obligations.F2inv3Result : Prop :=
  ∀ (rd ra rb : FIdx) (s : State) (z1 z2 z3 : Fp2), rd ≠ ra → rd ≠ rb → ra ≠ rb →
    s.regHolds rd z1 → s.regHolds ra z2 → s.regHolds rb z3 →
    ∃ t, exec (.f2inv3 rd ra rb) s = .next t ∧ Completes (Writes.ofRegs [rd, ra, rb]).andInvz s t
      ∧ t.regHolds rd (inv3Way Config.core z1 z2 z3).k0 ∧ t.regHolds ra (inv3Way Config.core z1 z2 z3).k1
      ∧ t.regHolds rb (inv3Way Config.core z1 z2 z3).k2
      ∧ (t.invz = true ↔ s.invz = true
        ∨ f2norm Config.core (f2mul Config.core z3 (f2mul Config.core z1 z2)) = 0)

/-- R242: a vector of `n` registers inverted into another, which may overlap it in any way (what the results are:
BatchedInversion). -/
def Obligations.F2invnResult : Prop :=
  ∀ (rd ra : FIdx) (n : BitVec 11) (s : State) (v : Fp2) (vs : List Fp2), n.toNat ≤ 32 →
    rd.val + n.toNat ≤ 32 → ra.val + n.toNat ≤ 32 → (v :: vs).length = n.toNat →
    (∀ j (h : j < n.toNat) (hl : j < (v :: vs).length) (hr : ra.val + j < 32), s.regHolds ⟨ra.val + j, hr⟩ ((v :: vs)[j])) →
    ∃ t, exec (.f2invn rd ra n) s = .next t
      ∧ Completes (Writes.ofRegs (vectorRegs rd n.toNat)).andInvz s t
      ∧ (invN Config.core v vs).length = n.toNat
      ∧ (∀ j (h : j < (invN Config.core v vs).length) (hr : rd.val + j < 32),
        t.regHolds ⟨rd.val + j, hr⟩ ((invN Config.core v vs)[j]))
      ∧ (t.invz = true ↔ s.invz = true ∨ f2norm Config.core (vs.foldl (f2mul Config.core) v) = 0)

/-! ## Curve and isogeny (45_curve.md, 46_isogeny.md). Pairs and triples that do not run past F[31] -/

/-- R271, R273, where they complete; and the value laws of the two sequences, as the rules' own comments give them, in
every configuration: `X2 = C24*(X-Z)^2*(X+Z)^2`, `Z2 = 4XZ*(C24*(X-Z)^2 + A24plus*4XZ)`, and for the tripling, with
`u = A24minus*(X-Z)^4 - A24plus*(X+Z)^4` and `v = 2(X^2-Z^2)*(A24plus*(X+Z)^2 - A24minus*(X-Z)^2)`, `X3 = 2X*(u+v)^2` and
`Z3 = 2Z*(u-v)^2`. -/
def Obligations.XdblXtplResults : Prop :=
  (∀ (rd ra rb : FIdx) (s : State) (p k : Pair), rd ≠ 31 → ra ≠ 31 → rb ≠ 31 → s.pairHolds ra p → s.pairHolds rb k →
    (∃ t, exec (.xdbl rd ra rb) s = .next t ∧ Completes (Writes.ofRegs [rd, rd + 1]) s t
      ∧ t.pairHolds rd (xdbl Config.core p k))
    ∧ ∃ t, exec (.xtpl rd ra rb) s = .next t ∧ Completes (Writes.ofRegs [rd, rd + 1]) s t
      ∧ t.pairHolds rd (xtpl Config.core p k))
  ∧ ∀ c : Config, c.WellFormed → ∀ (p k : Pair) (X Z K L : Fp2Value c),
    p.x.denotes c X → p.z.denotes c Z → k.x.denotes c K → k.z.denotes c L →
    (xdbl c p k).x.denotes c (L * (X - Z) ^ 2 * (X + Z) ^ 2)
    ∧ (xdbl c p k).z.denotes c (4 * X * Z * (L * (X - Z) ^ 2 + K * (4 * X * Z)))
    ∧ ∀ u v : Fp2Value c, u = K * (X - Z) ^ 4 - L * (X + Z) ^ 4 →
      v = 2 * (X ^ 2 - Z ^ 2) * (L * (X + Z) ^ 2 - K * (X - Z) ^ 2) →
      (xtpl c p k).x.denotes c (2 * X * (u + v) ^ 2) ∧ (xtpl c p k).z.denotes c (2 * Z * (u - v) ^ 2)

/-- R272, R274: `e` successive doublings or triplings with the coefficients read once; `e = 0` copies the point. -/
def Obligations.XdbleXtpleResults : Prop :=
  ∀ (rd ra rb : FIdx) (e : BitVec 11) (s : State) (p k : Pair), rd ≠ 31 → ra ≠ 31 → rb ≠ 31 →
    s.pairHolds ra p → s.pairHolds rb k →
    (∃ t, exec (.xdble rd ra rb e) s = .next t ∧ Completes (Writes.ofRegs [rd, rd + 1]) s t
      ∧ t.pairHolds rd ((fun q => xdbl Config.core q k)^[e.toNat] p))
    ∧ ∃ t, exec (.xtple rd ra rb e) s = .next t ∧ Completes (Writes.ofRegs [rd, rd + 1]) s t
      ∧ t.pairHolds rd ((fun q => xtpl Config.core q k)^[e.toNat] p)

/-- R275, R276: the fused instruction gives exactly the results of R271 and R275 on the same inputs; and the value law
of the differential addition in every configuration: with `u = (XP+ZP)(XQ-ZQ)` and `v = (XP-ZP)(XQ+ZQ)`,
`Xs = (u+v)^2` and `Zs = xPQ*(u-v)^2`. -/
def Obligations.XaddXdbladdResults : Prop :=
  (∀ (rd ra rb rc : FIdx) (s : State) (p q : Pair) (x : Fp2), rd ≠ 31 → ra ≠ 31 → rb ≠ 31 →
    s.pairHolds ra p → s.pairHolds rb q → s.regHolds rc x →
    ∃ t, exec (.xadd rd ra rb rc) s = .next t ∧ Completes (Writes.ofRegs [rd, rd + 1]) s t
      ∧ t.pairHolds rd (xadd Config.core p q x))
  ∧ (∀ (rd ra rb rc : FIdx) (s : State) (p q k : Pair) (x : Fp2), rd ≠ 31 → ra ≠ 31 → rc ≠ 31 →
    (rd.val + 2 ≤ ra.val ∨ ra.val + 2 ≤ rd.val) →
    s.pairHolds rd p → s.pairHolds ra q → s.regHolds rb x → s.pairHolds rc k →
    ∃ t, exec (.xdbladd rd ra rb rc) s = .next t ∧ Completes (Writes.ofRegs [rd, rd + 1, ra, ra + 1]) s t
      ∧ t.pairHolds rd (xdbl Config.core p k) ∧ t.pairHolds ra (xadd Config.core p q x))
  ∧ ∀ c : Config, c.WellFormed → ∀ (p q : Pair) (x : Fp2) (XP ZP XQ ZQ D u v : Fp2Value c),
    p.x.denotes c XP → p.z.denotes c ZP → q.x.denotes c XQ → q.z.denotes c ZQ → x.denotes c D →
    u = (XP + ZP) * (XQ - ZQ) → v = (XP - ZP) * (XQ + ZQ) →
    (xadd c p q x).x.denotes c ((u + v) ^ 2) ∧ (xadd c p q x).z.denotes c (D * (u - v) ^ 2)

/-- R301 to R304: construction writes a curve pair and coefficients, evaluation a point; and the value laws of the four
sequences in every configuration. R301 gives its closed form; those of R302 to R304 are the sequences multiplied out
(for R303, `(3X-Z)^3*(X+Z)` and `(3X+Z)^3*(X-Z)`). -/
def Obligations.IsogenyResults : Prop :=
  (∀ (rd ra rc : FIdx) (s : State) (p : Pair), rd ≠ 31 → ra ≠ 31 → rc.val ≤ 29 →
    (rd.val + 2 ≤ rc.val ∨ rc.val + 3 ≤ rd.val) → s.pairHolds ra p →
    ∃ t, exec (.get4iso rd ra rc) s = .next t ∧ Completes (Writes.ofRegs [rd, rd + 1, rc, rc + 1, rc + 2]) s t
      ∧ t.pairHolds rd (get4isoCurve Config.core p) ∧ t.tripleHolds rc (get4isoCoeffs Config.core p))
  ∧ (∀ (rd ra rb : FIdx) (s : State) (p : Pair) (k : Triple), rd ≠ 31 → ra ≠ 31 → rb.val ≤ 29 →
    s.pairHolds ra p → s.tripleHolds rb k →
    ∃ t, exec (.eval4iso rd ra rb) s = .next t ∧ Completes (Writes.ofRegs [rd, rd + 1]) s t
      ∧ t.pairHolds rd (eval4iso Config.core p k))
  ∧ (∀ (rd ra rc : FIdx) (s : State) (p : Pair), rd ≠ 31 → ra ≠ 31 → rc ≠ 31 →
    (rd.val + 2 ≤ rc.val ∨ rc.val + 2 ≤ rd.val) → s.pairHolds ra p →
    ∃ t, exec (.get3iso rd ra rc) s = .next t ∧ Completes (Writes.ofRegs [rd, rd + 1, rc, rc + 1]) s t
      ∧ t.pairHolds rd (get3isoCurve Config.core p) ∧ t.pairHolds rc (get3isoCoeffs Config.core p))
  ∧ (∀ (rd ra rb : FIdx) (s : State) (p k : Pair), rd ≠ 31 → ra ≠ 31 → rb ≠ 31 →
    s.pairHolds ra p → s.pairHolds rb k →
    ∃ t, exec (.eval3iso rd ra rb) s = .next t ∧ Completes (Writes.ofRegs [rd, rd + 1]) s t
      ∧ t.pairHolds rd (eval3iso Config.core p k))
  ∧ ∀ c : Config, c.WellFormed → ∀ (p : Pair) (X Z : Fp2Value c), p.x.denotes c X → p.z.denotes c Z →
    (get4isoCurve c p).x.denotes c (4 * X ^ 4) ∧ (get4isoCurve c p).z.denotes c (4 * Z ^ 4)
    ∧ (get4isoCoeffs c p).k0.denotes c (4 * Z ^ 2) ∧ (get4isoCoeffs c p).k1.denotes c (X - Z)
    ∧ (get4isoCoeffs c p).k2.denotes c (X + Z)
    ∧ (get3isoCurve c p).x.denotes c ((3 * X - Z) ^ 3 * (X + Z)) ∧ (get3isoCurve c p).z.denotes c ((3 * X + Z) ^ 3 * (X - Z))
    ∧ (get3isoCoeffs c p).x.denotes c (X - Z) ∧ (get3isoCoeffs c p).z.denotes c (X + Z)
    ∧ (∀ (k : Triple) (K0 K1 K2 u v w : Fp2Value c), k.k0.denotes c K0 → k.k1.denotes c K1 → k.k2.denotes c K2 →
      u = (X + Z) * K1 + (X - Z) * K2 → v = (X + Z) * K1 - (X - Z) * K2 → w = (X + Z) * (X - Z) * K0 →
      (eval4iso c p k).x.denotes c ((u ^ 2 + w) * u ^ 2) ∧ (eval4iso c p k).z.denotes c ((v ^ 2 - w) * v ^ 2))
    ∧ ∀ (k : Pair) (K0 K1 : Fp2Value c), k.x.denotes c K0 → k.z.denotes c K1 →
      (eval3iso c p k).x.denotes c (X * ((X + Z) * K0 + (X - Z) * K1) ^ 2)
      ∧ (eval3iso c p k).z.denotes c (Z * ((X - Z) * K1 - (X + Z) * K0) ^ 2)

/-- R305 and R20: the three forms are one invariant of `(A, C)`, which `.P24` and `.M24` first recover from their pair;
`INVZ` exactly when the norm of the denominator is 0 or it was set. In every configuration the denominator is
`C^4*(A^2-4C^2)`, the numerator `256*(A^2-3C^2)^3` and the recovered pairs are the rule's; where `P` is prime (a premise,
log entry 18) the denominator is zero exactly on the degenerate coefficients, where the result is `(0, 0)`, elsewhere the
result is the quotient, and the three forms give one element for one curve, whatever common factor its pairs carry. -/
def Obligations.JinvResults : Prop :=
  (∀ (rd ra : FIdx) (s : State) (p : Pair), ra ≠ 31 → s.pairHolds ra p →
    ∀ x ∈ [(Instr.jinvAc rd ra, p), (Instr.jinvP24 rd ra, acOfP24 Config.core p),
        (Instr.jinvM24 rd ra, acOfM24 Config.core p)],
      ∃ t, exec x.1 s = .next t ∧ Completes (Writes.ofRegs [rd]).andInvz s t
        ∧ t.regHolds rd (jinv Config.core x.2)
        ∧ (t.invz = true ↔ s.invz = true ∨ f2norm Config.core (jDenominator Config.core x.2) = 0))
  ∧ ∀ c : Config, c.WellFormed → ∀ (p : Pair) (A C : Fp2Value c), p.x.denotes c A → p.z.denotes c C →
    (jDenominator c p).denotes c (C ^ 4 * (A ^ 2 - 4 * C ^ 2)) ∧ (jNumerator c p).denotes c (256 * (A ^ 2 - 3 * C ^ 2) ^ 3)
    ∧ (acOfP24 c p).x.denotes c (4 * A - 2 * C) ∧ (acOfP24 c p).z.denotes c C
    ∧ (acOfM24 c p).x.denotes c (2 * (C + A)) ∧ (acOfM24 c p).z.denotes c (C - A)
    ∧ (c.PrimeField →
      (f2norm c (jDenominator c p) = 0 ↔ C = 0 ∨ A = 2 * C ∨ A = -2 * C)
      ∧ ((C = 0 ∨ A = 2 * C ∨ A = -2 * C) → jinv c p = { a := 0, b := 0 })
      ∧ (¬ (C = 0 ∨ A = 2 * C ∨ A = -2 * C) →
        ∃ j, (jinv c p).denotes c j ∧ j * (C ^ 4 * (A ^ 2 - 4 * C ^ 2)) = 256 * (A ^ 2 - 3 * C ^ 2) ^ 3)
      ∧ ∀ (q : Pair) (l : Fp2Value c), l ≠ 0 →
        (q.x.denotes c (l * (A + 2 * C)) → q.z.denotes c (l * (4 * C)) → jinv c (acOfP24 c q) = jinv c p)
        ∧ (q.x.denotes c (l * (A - 2 * C)) → q.z.denotes c (l * (A + 2 * C)) → jinv c (acOfM24 c q) = jinv c p)
        ∧ (q.x.denotes c (l * A) → q.z.denotes c (l * C) → jinv c q = jinv c p))

/-- R306; and its value in every configuration where `P` is prime (a premise, log entry 18): the quotient less the three
coordinates, or, where a coordinate is zero, minus their sum. -/
def Obligations.GetaResult : Prop :=
  (∀ (rd ra rb rc : FIdx) (s : State) (xp xq xr : Fp2), s.regHolds ra xp → s.regHolds rb xq → s.regHolds rc xr →
    ∃ t, exec (.geta rd ra rb rc) s = .next t ∧ Completes (Writes.ofRegs [rd]).andInvz s t
      ∧ t.regHolds rd (getA Config.core xp xq xr)
      ∧ (t.invz = true ↔ s.invz = true ∨ f2norm Config.core (getADenominator Config.core xp xq xr) = 0))
  ∧ ∀ c : Config, c.WellFormed → ∀ (xp xq xr : Fp2) (U V W : Fp2Value c),
    xp.denotes c U → xq.denotes c V → xr.denotes c W →
    (getADenominator c xp xq xr).denotes c (4 * U * V * W)
    ∧ (c.PrimeField →
      (f2norm c (getADenominator c xp xq xr) = 0 ↔ U * V * W = 0)
      ∧ (U * V * W = 0 → (getA c xp xq xr).denotes c (-(U + V + W)))
      ∧ (U * V * W ≠ 0 → ∃ A, (getA c xp xq xr).denotes c A
        ∧ (A + U + V + W) * (4 * U * V * W) = (1 - U * V - U * W - V * W) ^ 2))

/-! ## The arithmetic (40_mp_datapath.md, 43_fp.md, 44_fp2.md), in every configuration -/

/-- R131, R132, with their corner cases (which the spec marks `[derived]`). -/
def Obligations.MpAddSub : Prop :=
  ∀ c : Config, c.WellFormed →
    (∀ a b, a < c.r → b < c.r →
      (mpAdd c a b).1 = (a + b) % c.r ∧ (mpAdd c a b).2 = (a + b) / c.r ∧ (mpAdd c a b).2 ≤ 1
        ∧ a + b = (mpAdd c a b).1 + (mpAdd c a b).2 * c.r)
    ∧ mpAdd c 0 0 = (0, 0) ∧ mpAdd c (c.r - 1) 1 = (0, 1) ∧ mpAdd c (c.r - 1) (c.r - 1) = (c.r - 2, 1)
    ∧ (∀ a b, a < c.r → b < c.r →
      (mpSub c a b).2 = (if a < b then 1 else 0) ∧ (mpSub c a b).1 < c.r
        ∧ ((mpSub c a b).1 : Int) = ((a : Int) - b) % c.r
        ∧ ((mpSub c a b).1 : Int) = (a : Int) - b + (mpSub c a b).2 * c.r)
    ∧ mpSub c 0 0 = (0, 0) ∧ mpSub c 0 1 = (c.r - 1, 1) ∧ ∀ a, mpSub c a a = (0, 0)

/-- R137 (with R14): the digit-by-digit addition, subtraction and multiplication "each equals the value-level rule". -/
def Obligations.DigitAlgorithms : Prop :=
  ∀ c : Config, c.WellFormed → ∀ a b, a < c.r → b < c.r →
    (digitsVal (digitBase c) (digitsOf (digitBase c) c.nWords a) = a)
    ∧ (digitsVal (digitBase c)
        (addDigits (digitBase c) 0 (digitsOf (digitBase c) c.nWords a) (digitsOf (digitBase c) c.nWords b)).1
        = (mpAdd c a b).1)
    ∧ (addDigits (digitBase c) 0 (digitsOf (digitBase c) c.nWords a) (digitsOf (digitBase c) c.nWords b)).2
        = (mpAdd c a b).2
    ∧ (digitsVal (digitBase c)
        (subDigits (digitBase c) 0 (digitsOf (digitBase c) c.nWords a) (digitsOf (digitBase c) c.nWords b)).1
        = (mpSub c a b).1)
    ∧ (subDigits (digitBase c) 0 (digitsOf (digitBase c) c.nWords a) (digitsOf (digitBase c) c.nWords b)).2
        = (mpSub c a b).2
    ∧ (mulDigits (digitBase c) (digitsOf (digitBase c) c.nWords a) (digitsOf (digitBase c) c.nWords b)).length
        = 2 * c.nWords
    ∧ digitsVal (digitBase c)
        (mulDigits (digitBase c) (digitsOf (digitBase c) c.nWords a) (digitsOf (digitBase c) c.nWords b))
        = mpMul a b

/-- R138: the reduction is `T * R^-1 mod P`, below `P`; the three steps compute it, the division is exact, and one
conditional subtraction suffices. -/
def Obligations.MontReduce : Prop :=
  ∀ c : Config, c.WellFormed → ∀ t, t < c.p * c.r →
    montReduce c t = t * c.rInv % c.p ∧ montReduce c t < c.p ∧ montReduce c t * c.r % c.p = t % c.p
    ∧ (t + montM c t * c.p) % c.r = 0 ∧ montU c t < 2 * c.p ∧ montReduceSteps c t = montReduce c t

/-- R204, R201, R202, R15: the laws of the Montgomery multiplier and of the conversions, and that the sum and the
difference are those of the represented values. -/
def Obligations.MontgomeryLaws : Prop :=
  ∀ c : Config, c.WellFormed → ∀ x y, x < c.p → y < c.p →
    fpmul c x y = x * y * c.rInv % c.p ∧ fpmul c x y < c.p ∧ fpmul c x y = fpmul c y x ∧ fpmul c x 0 = 0
    ∧ fpmul c x c.montOne = x
    ∧ rep c (fpmul c x y) = rep c x * rep c y % c.p
    ∧ rep c (fpadd c x y) = (rep c x + rep c y) % c.p
    ∧ rep c (fpsub c x y) = (rep c x + c.p - rep c y) % c.p
    ∧ toMontgomery c x = x * c.r % c.p ∧ fromMontgomery c x = x * c.rInv % c.p
    ∧ fromMontgomery c (toMontgomery c x) = x ∧ toMontgomery c (fromMontgomery c x) = x
    ∧ rep c (sto c x) = x ∧ sto c (rep c x) = x

/-- R201, R202 "in terms of the primitives": the add-and-correct and subtract-and-correct datapaths, carry included,
give the modular sum and difference. -/
def Obligations.FieldAddDatapath : Prop :=
  ∀ c : Config, c.WellFormed → ∀ x y, x < c.p → y < c.p →
    fpaddDatapath c x y = (x + y) % c.p ∧ fpadd c x y = (x + y) % c.p
    ∧ fpsubDatapath c x y = (x + c.p - y) % c.p ∧ fpsub c x y = (x + c.p - y) % c.p
    ∧ fpneg c x = (c.p - x) % c.p ∧ fpneg c (fpneg c x) = x

/-- R206: what `fpinv` is; and its laws where `P` is prime (R9; a premise, log entry 18). -/
def Obligations.FpinvLaw : Prop :=
  ∀ c : Config, c.WellFormed →
    (∀ x, x < c.p → fpinv c x = (x * c.rInv % c.p) ^ (c.p - 2) % c.p * c.r % c.p)
    ∧ fpinv c 0 = 0
    ∧ (c.PrimeField → ∀ x, 0 < x → x < c.p →
      fpmul c x (fpinv c x) = c.montOne ∧ x * fpinv c x % c.p = c.r * c.r % c.p ∧ fpinv c (fpinv c x) = x)

/-- R235, the source's testable property 3: "for all nonzero x in GF(p^2), `multiply(x, invert(x)) == (1,0)`", where
`P` is prime (a premise, log entry 18) and `P mod 4 = 3`; and the inverse of zero is zero. -/
def Obligations.F2invLaw : Prop :=
  ∀ c : Config, c.WellFormed → c.PrimeField →
    (∀ x : Fp2, x.reduced c → ¬ x.isZero →
      f2norm c x ≠ 0 ∧ (f2inv c x).reduced c ∧ f2mul c x (f2inv c x) = { a := c.montOne, b := 0 })
    ∧ f2inv c { a := 0, b := 0 } = { a := 0, b := 0 }

/-- R241, R242, "Results": with every input non-zero each output is exactly the inverse of its input; with any input
zero every output is `(0, 0)`. `P` prime is a premise (log entry 18). -/
def Obligations.BatchedInversion : Prop :=
  ∀ c : Config, c.WellFormed → c.PrimeField →
    (∀ z1 z2 z3 : Fp2, z1.reduced c → z2.reduced c → z3.reduced c →
      inv3Way c z1 z2 z3 =
        if z1.isZero ∨ z2.isZero ∨ z3.isZero then
          { k0 := { a := 0, b := 0 }, k1 := { a := 0, b := 0 }, k2 := { a := 0, b := 0 } }
        else { k0 := f2inv c z1, k1 := f2inv c z2, k2 := f2inv c z3 })
    ∧ ∀ (v : Fp2) (vs : List Fp2), (∀ x ∈ v :: vs, x.reduced c) →
      ((∀ x ∈ v :: vs, ¬ x.isZero) → invN c v vs = (v :: vs).map (f2inv c))
      ∧ ((∃ x ∈ v :: vs, x.isZero) → invN c v vs = (v :: vs).map fun _ => { a := 0, b := 0 })

/-- R271, R273, R275, R301, R302, R304, corner cases: infinity doubles (to `X2 = C24*X^4`), triples and maps to infinity;
the point `(0, 0)` doubles to infinity and triples to itself; equal points have no differential sum, where equal is as
projective points, whatever representatives the two pairs are; a kernel generator maps to infinity under its own
isogeny; and `xadd` is symmetric exactly. -/
def Obligations.CurveCorners : Prop :=
  ∀ c : Config, c.WellFormed → ∀ (p q k : Pair) (x l : Fp2),
    (∀ v ∈ [p.x, p.z, q.x, q.z, k.x, k.z, x, l], v.reduced c) →
    (p.z.isZero → (xdbl c p k).z.isZero ∧ (xdbl c p k).x = f2mul c k.z (f2sqr c (f2sqr c p.x))
      ∧ (xtpl c p k).z.isZero ∧ (eval3iso c p k).z.isZero)
    ∧ (p.x.isZero → (xdbl c p k).z.isZero ∧ (xtpl c p k).x.isZero)
    ∧ (p.x = p.z → (xdbl c p k).x.isZero)
    ∧ ((f2add c p.x p.z).isZero → (xdbl c p k).x.isZero)
    ∧ (f2mul c p.x q.z = f2mul c q.x p.z → (xadd c p q x).z.isZero)
    ∧ (xadd c p { x := f2mul c l p.x, z := f2mul c l p.z } x).z.isZero
    ∧ (x.isZero → (xadd c p q x).z.isZero)
    ∧ xadd c p q x = xadd c q p x
    ∧ (p.z.isZero → (get4isoCurve c p).z.isZero ∧ (get4isoCoeffs c p).k0.isZero)
    ∧ (eval4iso c p (get4isoCoeffs c p)).z.isZero
    ∧ (p.z.isZero → (eval4iso c p (get4isoCoeffs c q)).z.isZero)
    ∧ (eval3iso c p (get3isoCoeffs c p)).z.isZero

/-! ## Reset, the host port and the run lifecycle (10_state.md, 20_memory.md, 70_reset_and_hazards.md) -/

/-- R56, R390, R391: the reset table; a reset of a machine that holds memory keeps both memories, and one that arrives
inside a store (whatever bytes had landed; log entry 10) every byte outside that store. The zero digits of the counters
and the selector, and the free power-up contents, are the model's (log entries 2, 3, 4) and are not claimed here. -/
def Obligations.ResetState : Prop :=
  (State.reset.run = .idle ∧ State.reset.pc = 0 ∧ State.reset.entry = 0 ∧ State.reset.cause = 0
    ∧ State.reset.epc = 0 ∧ State.reset.finfo = 0 ∧ State.reset.invz = false ∧ State.reset.vsel = false
    ∧ (∀ k h, (State.reset.half k h).valid = false ∧ (State.reset.half k h).val = 0)
    ∧ ∀ cr, (State.reset.counter cr).valid = false)
  ∧ ∀ (s : State) (landed : List Bool),
    s.hardReset = { State.reset with imem := s.imem, dmem := s.dmem }
    ∧ { (resetInside Config.core landed s) with dmem := s.dmem } = s.hardReset
    ∧ (∀ n, (resetInside Config.core landed s).wordAt n = s.wordAt n)
    ∧ ∀ a, (∀ addr bytes, pendingStore Config.core s = some (addr, bytes) → a < addr ∨ addr + bytes.length ≤ a) →
      (resetInside Config.core landed s).byteAt a = s.byteAt a

/-- R49, R394, R396: START and CLEAR, when they have effect and which. -/
def Obligations.RunControl : Prop :=
  (∀ (s : State) (v : BitVec 32), v ≠ 1 → v ≠ 2 → writeCtrl s v = s)
  ∧ (∀ s : State, s.run ≠ .idle → writeCtrl s 1 = s)
  ∧ (∀ s : State, s.run = .idle →
    (writeCtrl s 1).run = .running ∧ (writeCtrl s 1).pc = s.entry.toNat ∧ (writeCtrl s 1).invz = false
    ∧ (∀ k h, ((writeCtrl s 1).half k h).valid = false) ∧ (∀ cr, ((writeCtrl s 1).counter cr).valid = false)
    ∧ (writeCtrl s 1).vsel = false ∧ (writeCtrl s 1).cause = s.cause ∧ (writeCtrl s 1).epc = s.epc
    ∧ (writeCtrl s 1).finfo = s.finfo ∧ (writeCtrl s 1).entry = s.entry
    ∧ (∀ n, (writeCtrl s 1).wordAt n = s.wordAt n) ∧ ∀ a, (writeCtrl s 1).byteAt a = s.byteAt a)
  ∧ (∀ s : State, s.run = .running → writeCtrl s 2 = s)
  ∧ ∀ s : State, s.run ≠ .running →
    (writeCtrl s 2).run = .idle ∧ (writeCtrl s 2).pc = s.pc ∧ (writeCtrl s 2).invz = false
    ∧ (∀ k h, ((writeCtrl s 2).half k h).valid = false) ∧ (∀ cr, ((writeCtrl s 2).counter cr).valid = false)
    ∧ (writeCtrl s 2).vsel = false ∧ (writeCtrl s 2).cause = 0 ∧ (writeCtrl s 2).epc = 0 ∧ (writeCtrl s 2).finfo = 0
    ∧ (writeCtrl s 2).entry = s.entry ∧ (∀ n, (writeCtrl s 2).wordAt n = s.wordAt n)
    ∧ ∀ a, (writeCtrl s 2).byteAt a = s.byteAt a

/-- R48, R50, R371: what the host reads in each CSR, the bits of `STATUS` (its low two are the codes of R44: IDLE 0,
RUNNING 1, DONE 2, FAULT 3), and the `irq` output. -/
def Obligations.StatusAndCsrs : Prop :=
  ∀ s : State,
    (csrRead Config.core s 0 = 0x00010000 ∧ csrRead Config.core s 1 = 0 ∧ csrRead Config.core s 2 = csrStatus s
      ∧ csrRead Config.core s 3 = (s.entry.setWidth 32) &&& 0xFFFF
      ∧ csrRead Config.core s 4 = BitVec.ofNat 32 s.pc &&& 0x1FFFF
      ∧ csrRead Config.core s 5 = s.cause.setWidth 32 ∧ csrRead Config.core s 6 = s.epc.setWidth 32
      ∧ csrRead Config.core s 7 = s.finfo ∧ csrRead Config.core s 8 = 0x074001B2
      ∧ ∀ i, 9 ≤ i → csrRead Config.core s i = 0)
    ∧ ((s.run = .idle → csrStatus s &&& 3 = 0) ∧ (s.run = .running → csrStatus s &&& 3 = 1)
      ∧ (s.run = .done → csrStatus s &&& 3 = 2) ∧ (s.run = .fault → csrStatus s &&& 3 = 3)
      ∧ (csrStatus s).getLsbD 2 = s.invz ∧ (csrStatus s).getLsbD 3 = s.vsel
      ∧ ((csrStatus s).getLsbD 4 = true ↔ s.vsel = true ∧ s.sel = .allOnes)
      ∧ ∀ j, 5 ≤ j → (csrStatus s).getLsbD j = false)
    ∧ (irq s = true ↔ s.run = .done ∨ s.run = .fault)

/-- R80, R47, R82: the six transactions. While a run is in progress the host reads the CSRs and "can change nothing at
all"; otherwise a location that exists is read or written, and no other changes. -/
def Obligations.HostPort : Prop :=
  (∀ (q : HostRequest) (s : State), s.run = .running → (hostAccess Config.core q s).2 = s)
  ∧ (∀ (i : Nat) (s : State), hostAccess Config.core (.csrRead i) s = (.okWord (csrRead Config.core s i), s))
  ∧ (∀ (v : BitVec 32) (s : State), (hostAccess Config.core (.csrWrite 1 v) s) = (.ok, writeCtrl s v))
  ∧ (∀ (v : BitVec 32) (s : State), s.run = .running → (hostAccess Config.core (.csrWrite 3 v) s).1 = .refused)
  ∧ (∀ (v : BitVec 32) (s : State), s.run ≠ .running → hostAccess Config.core (.csrWrite 3 v) s
    = (.ok, { s with entry := BitVec.ofNat 17 (v.toNat % 65536) }))
  ∧ (∀ (i : Nat) (v : BitVec 32) (s : State), i ≠ 1 → i ≠ 3 → hostAccess Config.core (.csrWrite i v) s = (.ok, s))
  ∧ (∀ (n : Nat) (w : Word) (s : State), s.run = .running ∨ Config.core.imemWords ≤ n →
    hostAccess Config.core (.imemRead n) s = (.refused, s) ∧ hostAccess Config.core (.imemWrite n w) s = (.refused, s))
  ∧ (∀ (a : Nat) (b : Byte) (s : State), s.run = .running ∨ Config.core.dmemBytes ≤ a →
    hostAccess Config.core (.dmemRead a) s = (.refused, s) ∧ hostAccess Config.core (.dmemWrite a b) s = (.refused, s))
  ∧ (∀ (n : Nat) (w : Word) (s : State), s.run ≠ .running → n < Config.core.imemWords →
    hostAccess Config.core (.imemRead n) s = (.okWord (s.wordAt n), s)
    ∧ ∃ t, hostAccess Config.core (.imemWrite n w) s = (.ok, t) ∧ { t with imem := s.imem } = s
      ∧ ∀ m, t.wordAt m = if m = n then w else s.wordAt m)
  ∧ ∀ (a : Nat) (b : Byte) (s : State), s.run ≠ .running → a < Config.core.dmemBytes →
    hostAccess Config.core (.dmemRead a) s = (.okByte (s.byteAt a), s)
    ∧ ∃ t, hostAccess Config.core (.dmemWrite a b) s = (.ok, t) ∧ { t with dmem := s.dmem } = s
      ∧ ∀ m, t.byteAt m = if m = a then b else s.byteAt m

/-- R397, R44, R395, R384: the complete transition table, over everything that can happen to a CORE. Outside RUNNING a
step changes nothing at all (log entry 6). -/
def Obligations.TransitionTable : Prop :=
  (∀ s : State, s.run ≠ .running → step s = .next s)
  ∧ (∀ s t : State, s.run = .running → step s = .next t →
    (t.run = .running ∨ t.run = .done ∨ t.run = .fault)
    ∧ (t.run = .done ↔ s.pc < Config.core.imemWords ∧ decode (s.wordAt s.pc) = some .halt)
    ∧ (t.run = .fault ↔ ∃ e, t = takeTrap e s))
  ∧ (∀ (s : State) (landed : List Bool), (afterEvent Config.core (.reset landed) s).run = .idle)
  ∧ ∀ (s : State) (q : HostRequest),
    (s.run = .idle → q = .csrWrite 1 1 → (afterEvent Config.core (.host q) s).run = .running)
    ∧ (s.run ≠ .running → q = .csrWrite 1 2 → (afterEvent Config.core (.host q) s).run = .idle)
    ∧ ((s.run = .idle → q ≠ .csrWrite 1 1) → (s.run ≠ .running → q ≠ .csrWrite 1 2) →
      (afterEvent Config.core (.host q) s).run = s.run)

/-! ## Invariant and isolation -/

/-- The reset state meets the invariant (R32, R40, R46, R47, R53, R56; its clean registers are log entry 4). -/
def Obligations.ResetInv : Prop := State.reset.Inv Config.core

/-- Every step keeps the invariant: reduced halves (R32), a `PC` in `[0, 65536]` (R40), canonical memories that list
existing locations (R53), a trap record that is empty but in FAULT (R46), registers that are unreadable in IDLE (R52);
that an unreadable register holds zero is the model's for `C` and `SEL` (log entry 4). -/
def Obligations.StepKeepsInv : Prop :=
  ∀ s t : State, s.Inv Config.core → step s = .next t → t.Inv Config.core

/-- So does every event: a step, a host transaction, a reset wherever it lands (log entries 4, 10, 11). -/
def Obligations.EventsKeepInv : Prop :=
  ∀ (e : Event) (s : State), s.Inv Config.core → (afterEvent Config.core e s).Inv Config.core

/-- R402, R36, R6: no branch, no register number and no address depends on data. From two states that differ only in
the values of `F`, the selector, `INVZ` and DMEM bytes, a step goes to two such states, unless the content of DMEM
raised `MalformedInput` or `IllegalSelector` in one of them. -/
def Obligations.ConstantTime : Prop :=
  ∀ s t s' t' : State, SamePublic s t → step s = .next s' → step t = .next t' →
    ¬ s'.dataFault → ¬ t'.dataFault → SamePublic s' t'

end
end

