-- ==== Sys2Proof/Laws/Arith.lean ====
section
/-!
SUPPORT. Laws/Arith.lean: the GF(p) functions as arithmetic in `ZMod P`, one lemma per function, and the range of every
function that writes a half (10_state.md R32: every instruction "writes a value in `[0, P)`").
-/
namespace Sys2Proof

/-! ## What a well-formed configuration gives -/

theorem Config.WellFormed.p_mod {c : Config} (h : c.WellFormed) : c.p % 4 = 3 := h.1

theorem Config.WellFormed.three_le {c : Config} (h : c.WellFormed) : 3 ≤ c.p := by
  have := h.1; omega

theorem Config.WellFormed.p_pos {c : Config} (h : c.WellFormed) : 0 < c.p := by
  have := h.1; omega

/-- The default CORE meets R9 and R12. -/
theorem Config.core_wellFormed : Config.core.WellFormed := by decide +kernel

theorem Config.WellFormed.r_mul_rInv {c : Config} (h : c.WellFormed) : c.r * c.rInv % c.p = 1 :=
  h.2.2.2.2.2.2.2.2.1

theorem Config.WellFormed.p_mul_pPrime {c : Config} (h : c.WellFormed) : c.p * c.pPrime % c.r = c.r - 1 :=
  h.2.2.2.2.2.2.2.2.2.2

theorem Config.r_pos (c : Config) : 0 < c.r := Nat.two_pow_pos _

/-- `R > P` (R9). -/
theorem Config.WellFormed.p_lt_r {c : Config} (h : c.WellFormed) : c.p < c.r := by
  have h1 : c.p < 2 ^ c.bitLen := Nat.lt_log2_self
  have h2 : c.bitLen ≤ c.rBits := by
    have hw : 0 < c.wordBits := by have := h.2.2.1; omega
    have := Nat.div_add_mod (c.bitLen + c.wordBits - 1) c.wordBits
    have := Nat.mod_lt (c.bitLen + c.wordBits - 1) hw
    simp only [Config.rBits, Config.nWords, Nat.mul_comm _ c.wordBits]
    omega
  exact Nat.lt_of_lt_of_le h1 (Nat.pow_le_pow_right (by decide) h2)

namespace Machine

theorem cast_r_mul_rInv {c : Config} (h : c.WellFormed) : (c.r : ZMod c.p) * (c.rInv : ZMod c.p) = 1 := by
  have h1 : ((c.r * c.rInv : ℕ) : ZMod c.p) = ((1 : ℕ) : ZMod c.p) := by
    rw [ZMod.natCast_eq_natCast_iff, Nat.ModEq, h.r_mul_rInv, Nat.mod_eq_of_lt]
    have := h.three_le; omega
  simpa using h1

/-- Two reduced values are equal when they are equal in `ZMod P`. -/
theorem eq_of_cast_eq {c : Config} {a b : Nat} (ha : a < c.p) (hb : b < c.p) (h : (a : ZMod c.p) = b) : a = b := by
  rw [ZMod.natCast_eq_natCast_iff, Nat.ModEq, Nat.mod_eq_of_lt ha, Nat.mod_eq_of_lt hb] at h
  exact h

/-! ## Range (R32) -/

section range
variable {c : Config} (h : c.WellFormed)
include h

theorem montReduce_lt (t : Nat) : montReduce c t < c.p := Nat.mod_lt _ h.p_pos

theorem fpmul_lt (x y : Nat) : fpmul c x y < c.p := montReduce_lt h _

theorem toMontgomery_lt (x : Nat) : toMontgomery c x < c.p := fpmul_lt h _ _

theorem fromMontgomery_lt (x : Nat) : fromMontgomery c x < c.p := fpmul_lt h _ _

theorem sto_lt (x : Nat) : sto c x < c.p := Nat.mod_lt _ h.p_pos

theorem rep_lt (x : Nat) : rep c x < c.p := Nat.mod_lt _ h.p_pos

theorem fpinv_lt (x : Nat) : fpinv c x < c.p := sto_lt h _

theorem montOne_lt : c.montOne < c.p := Nat.mod_lt _ h.p_pos
end range

theorem fpadd_lt {c : Config} {x y : Nat} (hx : x < c.p) (hy : y < c.p) : fpadd c x y < c.p := by
  simp only [fpadd]; split <;> omega

theorem fpsub_lt {c : Config} {x y : Nat} (hx : x < c.p) (hy : y < c.p) : fpsub c x y < c.p := by
  simp only [fpsub]; split <;> omega

theorem fpneg_lt {c : Config} {x : Nat} (hx : x < c.p) : fpneg c x < c.p := fpsub_lt (by omega) hx

/-! ## Values modulo `P` -/

theorem cast_fpadd (c : Config) (x y : Nat) : (fpadd c x y : ZMod c.p) = x + y := by
  simp only [fpadd]
  split
  · rename_i h
    rw [Nat.cast_sub h]
    simp
  · simp

theorem cast_fpsub {c : Config} {x y : Nat} (hy : y < c.p) : (fpsub c x y : ZMod c.p) = x - y := by
  simp only [fpsub]
  split
  · rw [Nat.cast_sub (by omega)]
    simp
  · rw [Nat.cast_sub (by omega)]

theorem cast_fpneg {c : Config} {x : Nat} (hx : x < c.p) : (fpneg c x : ZMod c.p) = -x := by
  rw [fpneg, cast_fpsub hx]
  simp

theorem cast_montReduce (c : Config) (t : Nat) : (montReduce c t : ZMod c.p) = t * c.rInv := by
  simp [montReduce]

theorem cast_fpmul (c : Config) (x y : Nat) : (fpmul c x y : ZMod c.p) = x * y * c.rInv := by
  simp [fpmul, mpMul, cast_montReduce]

theorem cast_rep (c : Config) (x : Nat) : (rep c x : ZMod c.p) = x * c.rInv := by simp [rep]

theorem cast_sto (c : Config) (x : Nat) : (sto c x : ZMod c.p) = x * c.r := by simp [sto]

theorem cast_montOne (c : Config) : (c.montOne : ZMod c.p) = c.r := by simp [Config.montOne]

theorem cast_toMontgomery {c : Config} (h : c.WellFormed) (x : Nat) : (toMontgomery c x : ZMod c.p) = x * c.r := by
  rw [toMontgomery, cast_fpmul]
  simp only [Config.montR2, ZMod.natCast_mod, Nat.cast_mul]
  linear_combination (x : ZMod c.p) * c.r * cast_r_mul_rInv h

theorem cast_fromMontgomery (c : Config) (x : Nat) : (fromMontgomery c x : ZMod c.p) = x * c.rInv := by
  simp [fromMontgomery, cast_fpmul]

/-- A reduced value is a number taken modulo `P` when the two are equal in `ZMod P`. -/
theorem int_eq_emod {c : Config} {v : Nat} {z : Int} (h : v < c.p) (e : (v : ZMod c.p) = (z : ZMod c.p)) :
    (v : Int) = z % c.p := by
  have e2 : ((v : Int) : ZMod c.p) = (z : ZMod c.p) := by simpa using e
  rw [ZMod.intCast_eq_intCast_iff, Int.ModEq] at e2
  rw [← e2, Int.emod_eq_of_lt] <;> omega

theorem fpadd_eq_mod {c : Config} {x y : Nat} (hx : x < c.p) (hy : y < c.p) : fpadd c x y = (x + y) % c.p := by
  simp only [fpadd]
  split
  · rw [Nat.mod_eq_sub_mod ‹_›, Nat.mod_eq_of_lt (by omega)]
  · exact (Nat.mod_eq_of_lt (by omega)).symm

theorem fpsub_eq_mod {c : Config} {x y : Nat} (hx : x < c.p) (hy : y < c.p) :
    fpsub c x y = (x + c.p - y) % c.p := by
  simp only [fpsub]
  split
  · exact (Nat.mod_eq_of_lt (by omega)).symm
  · rw [show x + c.p - y = x - y + c.p by omega, Nat.add_mod_right]
    exact (Nat.mod_eq_of_lt (by omega)).symm

theorem fpneg_eq_mod {c : Config} {x : Nat} (hx : x < c.p) : fpneg c x = (c.p - x) % c.p := by
  rw [fpneg, fpsub_eq_mod (by omega) hx, Nat.zero_add]

/-- Square and multiply is exponentiation, for exponents of at most `n` bits. -/
theorem powMod_eq (m b n e : Nat) (h : e < 2 ^ n) : powMod m b n e = b ^ e % m := by
  induction n generalizing e with
  | zero =>
    have : e = 0 := by simpa using h
    subst this
    simp [powMod]
  | succ n ih =>
    have h2 : e / 2 < 2 ^ n := by rw [pow_succ] at h; omega
    simp only [powMod, ih _ h2]
    have he := Nat.div_add_mod e 2
    split
    · rename_i h1
      conv_rhs => rw [← he, h1, pow_succ, Nat.mul_comm 2, pow_mul, pow_two]
      simp [Nat.mul_mod]
    · rename_i h1
      have h0 : e % 2 = 0 := by omega
      conv_rhs => rw [← he, h0, Nat.add_zero, Nat.mul_comm 2, pow_mul, pow_two]
      simp [Nat.mul_mod]

/-- R206. -/
theorem fpinv_eq {c : Config} (x : Nat) :
    fpinv c x = rep c x ^ (c.p - 2) % c.p * c.r % c.p := by
  have h : c.p - 2 < 2 ^ c.bitLen := Nat.lt_of_le_of_lt (Nat.sub_le _ _) Nat.lt_log2_self
  simp only [fpinv, sto, powMod_eq _ _ _ _ h]

theorem cast_fpinv (c : Config) (x : Nat) : (fpinv c x : ZMod c.p) = (x * c.rInv : ZMod c.p) ^ (c.p - 2) * c.r := by
  rw [fpinv_eq]
  simp [cast_rep]

/-! ## Range of the GF(p^2) functions and of the sequences -/

/-- Both halves below `P`. -/
def Below (c : Config) (x : Fp2) : Prop := x.a < c.p ∧ x.b < c.p

section below
variable {c : Config}

theorem below_f2add {x y : Fp2} (hx : Below c x) (hy : Below c y) : Below c (f2add c x y) :=
  ⟨fpadd_lt hx.1 hy.1, fpadd_lt hx.2 hy.2⟩

theorem below_f2sub {x y : Fp2} (hx : Below c x) (hy : Below c y) : Below c (f2sub c x y) :=
  ⟨fpsub_lt hx.1 hy.1, fpsub_lt hx.2 hy.2⟩

variable (h : c.WellFormed)
include h

theorem below_zero : Below c Fp2.zero := ⟨h.p_pos, h.p_pos⟩

theorem below_f2one : Below c (f2one c) := ⟨montOne_lt h, h.p_pos⟩

theorem below_f2mul (x y : Fp2) : Below c (f2mul c x y) :=
  ⟨fpsub_lt (fpmul_lt h _ _) (fpmul_lt h _ _), fpadd_lt (fpmul_lt h _ _) (fpmul_lt h _ _)⟩

theorem below_f2sqr (x : Fp2) : Below c (f2sqr c x) :=
  ⟨fpsub_lt (fpmul_lt h _ _) (fpmul_lt h _ _), fpadd_lt (fpmul_lt h _ _) (fpmul_lt h _ _)⟩

theorem f2norm_lt (x : Fp2) : f2norm c x < c.p := fpadd_lt (fpmul_lt h _ _) (fpmul_lt h _ _)

theorem below_f2inv (x : Fp2) : Below c (f2inv c x) := ⟨fpmul_lt h _ _, fpneg_lt (fpmul_lt h _ _)⟩

omit h in
theorem below_f2conj {x : Fp2} (hx : Below c x) : Below c (f2conj c x) := ⟨hx.1, fpneg_lt hx.2⟩

omit h in
theorem below_f2cmov {x y : Fp2} (hx : Below c x) (hy : Below c y) (v : Selector) : Below c (f2cmov x y v) := by
  cases v
  · exact hx
  · exact hy

theorem below_inv3Way (z1 z2 z3 : Fp2) :
    Below c (inv3Way c z1 z2 z3).k0 ∧ Below c (inv3Way c z1 z2 z3).k1 ∧ Below c (inv3Way c z1 z2 z3).k2 :=
  ⟨below_f2mul h _ _, below_f2mul h _ _, below_f2mul h _ _⟩

theorem below_invNFrom (acc : Fp2) (vs : List Fp2) :
    (∀ x ∈ (invNFrom c acc vs).1, Below c x) ∧ Below c (invNFrom c acc vs).2 := by
  induction vs generalizing acc with
  | nil => exact ⟨by simp [invNFrom], below_f2inv h _⟩
  | cons v vs ih =>
    refine ⟨?_, below_f2mul h _ _⟩
    intro x hx
    rcases List.mem_cons.1 hx with rfl | hx
    · exact below_f2mul h _ _
    · exact (ih _).1 x hx

theorem below_invN (v : Fp2) (vs : List Fp2) : ∀ x ∈ invN c v vs, Below c x := by
  intro x hx
  rcases List.mem_cons.1 hx with rfl | hx
  · exact (below_invNFrom h _ _).2
  · exact (below_invNFrom h _ _).1 x hx

theorem below_xdbl (p k : Pair) : Below c (xdbl c p k).x ∧ Below c (xdbl c p k).z :=
  ⟨below_f2mul h _ _, below_f2mul h _ _⟩

theorem below_xtpl (p k : Pair) : Below c (xtpl c p k).x ∧ Below c (xtpl c p k).z :=
  ⟨below_f2mul h _ _, below_f2mul h _ _⟩

theorem below_xadd (p q : Pair) (x : Fp2) : Below c (xadd c p q x).x ∧ Below c (xadd c p q x).z :=
  ⟨below_f2sqr h _, below_f2mul h _ _⟩

omit h in
theorem below_repeatTimes {g : Pair → Pair} (hg : ∀ q, Below c (g q).x ∧ Below c (g q).z) (n : Nat) {p : Pair}
    (hp : Below c p.x ∧ Below c p.z) : Below c (repeatTimes g n p).x ∧ Below c (repeatTimes g n p).z := by
  induction n generalizing p with
  | zero => exact hp
  | succ n ih => exact ih (hg p)

theorem below_get4isoCurve (p : Pair) : Below c (get4isoCurve c p).x ∧ Below c (get4isoCurve c p).z :=
  ⟨below_f2sqr h _, below_f2sqr h _⟩

theorem below_get4isoCoeffs {p : Pair} (hp : Below c p.x ∧ Below c p.z) :
    Below c (get4isoCoeffs c p).k0 ∧ Below c (get4isoCoeffs c p).k1 ∧ Below c (get4isoCoeffs c p).k2 := by
  have h1 := below_f2add (below_f2sqr h p.z) (below_f2sqr h p.z)
  exact ⟨below_f2add h1 h1, below_f2sub hp.1 hp.2, below_f2add hp.1 hp.2⟩

theorem below_eval4iso (p : Pair) (k : Triple) : Below c (eval4iso c p k).x ∧ Below c (eval4iso c p k).z :=
  ⟨below_f2mul h _ _, below_f2mul h _ _⟩

omit h in
theorem below_get3isoCoeffs {p : Pair} (hp : Below c p.x ∧ Below c p.z) :
    Below c (get3isoCoeffs c p).x ∧ Below c (get3isoCoeffs c p).z :=
  ⟨below_f2sub hp.1 hp.2, below_f2add hp.1 hp.2⟩

theorem below_get3isoCurve (p : Pair) : Below c (get3isoCurve c p).x ∧ Below c (get3isoCurve c p).z :=
  ⟨below_f2mul h _ _, below_f2add (below_f2mul h _ _) (below_f2sub (below_f2mul h _ _) (below_f2mul h _ _))⟩

theorem below_eval3iso (p k : Pair) : Below c (eval3iso c p k).x ∧ Below c (eval3iso c p k).z :=
  ⟨below_f2mul h _ _, below_f2mul h _ _⟩

theorem below_jinv (p : Pair) : Below c (jinv c p) := below_f2mul h _ _

theorem below_getA {xp xq xr : Fp2} (hp : Below c xp) (hq : Below c xq) (hr : Below c xr) :
    Below c (getA c xp xq xr) :=
  below_f2sub (below_f2mul h _ _) (below_f2add (below_f2add hp hq) hr)
end below

end Machine

end Sys2Proof
end

