-- ==== Sys2Proof/Laws/Decode.lean ====
section
/-!
SUPPORT. Laws/Decode.lean: what each field of an encoded word reads as, one lemma per format and field, and the bits a
slice of a word is made of.
-/
namespace Sys2Proof

/-! ## Half-select bits -/

@[simp] theorem ofBit_bit (h : Half) : Half.ofBit h.bit = h := by cases h <;> rfl

theorem bit_lt (h : Half) : h.bit < 2 := by cases h <;> decide

theorem halfFn_lt (hd ha hb : Half) : halfFn hd ha hb < 8 := by
  cases hd <;> cases ha <;> cases hb <;> decide

@[simp] theorem bit_a : Half.a.bit = 0 := rfl

/-- The bits of `fn` in the GF(p) instructions (R108). -/
theorem halfFn_bits (hd ha hb : Half) :
    halfFn hd ha hb / 8 = 0 ∧ halfFn hd ha hb / 4 % 2 = hd.bit ∧ halfFn hd ha hb / 2 % 2 = ha.bit
      ∧ halfFn hd ha hb % 2 = hb.bit := by
  cases hd <;> cases ha <;> cases hb <;> decide

/-! ## Format Z and J (R102, R104) -/

section formatJ
variable (op : Nat) (imm : BitVec 16)

theorem slice_encZ_op (h : op < 64) : slice (encZ op) 31 26 = op := by
  simp only [slice, encZ, BitVec.toNat_ofNat]; omega

theorem slice_encZ_rest : slice (encZ op) 25 0 = 0 := by
  simp only [slice, encZ, BitVec.toNat_ofNat]; omega

theorem slice_encJ_op (h : op < 64) : slice (encJ op imm) 31 26 = op := by
  simp only [slice, encJ, BitVec.toNat_ofNat]; omega

theorem slice_encJ_zero : slice (encJ op imm) 25 16 = 0 := by
  simp only [slice, encJ, BitVec.toNat_ofNat]; omega

theorem slice_encJ_imm : slice (encJ op imm) 15 0 = imm.toNat := by
  simp only [slice, encJ, BitVec.toNat_ofNat]; omega
end formatJ

/-! ## Format CI (R103) -/

section formatCI
variable (op : Nat) (cr : CIdx) (imm : BitVec 16)

theorem slice_encCI_op (h : op < 64) : slice (encCI op cr imm) 31 26 = op := by
  simp only [slice, encCI, BitVec.toNat_ofNat]; omega

theorem slice_encCI_cr : slice (encCI op cr imm) 25 23 = cr.val := by
  simp only [slice, encCI, BitVec.toNat_ofNat]; omega

theorem slice_encCI_zero : slice (encCI op cr imm) 22 16 = 0 := by
  simp only [slice, encCI, BitVec.toNat_ofNat]; omega

theorem slice_encCI_imm : slice (encCI op cr imm) 15 0 = imm.toNat := by
  simp only [slice, encCI, BitVec.toNat_ofNat]; omega
end formatCI

/-! ## Formats M and MS (R105) -/

section formatM
variable (op : Nat) (rd : FIdx) (cr : CIdx) (imm : BitVec 16)

theorem slice_encM_op (h : op < 64) : slice (encM op rd cr imm) 31 26 = op := by
  simp only [slice, encM, BitVec.toNat_ofNat]; omega

theorem slice_encM_rd : slice (encM op rd cr imm) 25 21 = rd.val := by
  simp only [slice, encM, BitVec.toNat_ofNat]; omega

theorem slice_encM_cr : slice (encM op rd cr imm) 20 18 = cr.val := by
  simp only [slice, encM, BitVec.toNat_ofNat]; omega

theorem slice_encM_zero : slice (encM op rd cr imm) 17 16 = 0 := by
  simp only [slice, encM, BitVec.toNat_ofNat]; omega

theorem slice_encM_imm : slice (encM op rd cr imm) 15 0 = imm.toNat := by
  simp only [slice, encM, BitVec.toNat_ofNat]; omega
end formatM

/-! ## Format R (R106) -/

section formatR
variable (op : Nat) (rd ra rb rc : FIdx) (fn : Nat)

theorem slice_encR_op (h : op < 64) (hf : fn < 64) : slice (encR op rd ra rb rc fn) 31 26 = op := by
  simp only [slice, encR, BitVec.toNat_ofNat]; omega

theorem slice_encR_rd (hf : fn < 64) : slice (encR op rd ra rb rc fn) 25 21 = rd.val := by
  simp only [slice, encR, BitVec.toNat_ofNat]; omega

theorem slice_encR_ra (hf : fn < 64) : slice (encR op rd ra rb rc fn) 20 16 = ra.val := by
  simp only [slice, encR, BitVec.toNat_ofNat]; omega

theorem slice_encR_rb (hf : fn < 64) : slice (encR op rd ra rb rc fn) 15 11 = rb.val := by
  simp only [slice, encR, BitVec.toNat_ofNat]; omega

theorem slice_encR_rc (hf : fn < 64) : slice (encR op rd ra rb rc fn) 10 6 = rc.val := by
  simp only [slice, encR, BitVec.toNat_ofNat]; omega

theorem slice_encR_fn (hf : fn < 64) : slice (encR op rd ra rb rc fn) 5 0 = fn := by
  simp only [slice, encR, BitVec.toNat_ofNat]; omega

theorem slice_encR_10_3 (hf : fn < 64) : slice (encR op rd ra rb rc fn) 10 3 = rc.val * 8 + fn / 8 := by
  simp only [slice, encR, BitVec.toNat_ofNat]; omega

theorem slice_encR_15_3 (hf : fn < 64) : slice (encR op rd ra rb rc fn) 15 3 = rb.val * 256 + rc.val * 8 + fn / 8 := by
  simp only [slice, encR, BitVec.toNat_ofNat]; omega

theorem slice_encR_10_0 (hf : fn < 64) : slice (encR op rd ra rb rc fn) 10 0 = rc.val * 64 + fn := by
  simp only [slice, encR, BitVec.toNat_ofNat]; omega

theorem slice_encR_15_0 (hf : fn < 64) : slice (encR op rd ra rb rc fn) 15 0 = rb.val * 2048 + rc.val * 64 + fn := by
  simp only [slice, encR, BitVec.toNat_ofNat]; omega

theorem slice_encR_15_2 (hf : fn < 64) : slice (encR op rd ra rb rc fn) 15 2 = rb.val * 512 + rc.val * 16 + fn / 4 := by
  simp only [slice, encR, BitVec.toNat_ofNat]; omega

theorem slice_encR_1_0 : slice (encR op rd ra rb rc fn) 1 0 = fn % 4 := by
  simp only [slice, encR, BitVec.toNat_ofNat]; omega

theorem slice_encR_2 : slice (encR op rd ra rb rc fn) 2 2 = fn / 4 % 2 := by
  simp only [slice, encR, BitVec.toNat_ofNat]; omega

theorem slice_encR_1 : slice (encR op rd ra rb rc fn) 1 1 = fn / 2 % 2 := by
  simp only [slice, encR, BitVec.toNat_ofNat]; omega

theorem slice_encR_0 : slice (encR op rd ra rb rc fn) 0 0 = fn % 2 := by
  simp only [slice, encR, BitVec.toNat_ofNat]; omega
end formatR

/-! ## Format RI (R107) -/

section formatRI
variable (op : Nat) (rd ra rb : FIdx) (imm : BitVec 11)

theorem slice_encRI_op (h : op < 64) : slice (encRI op rd ra rb imm) 31 26 = op := by
  simp only [slice, encRI, BitVec.toNat_ofNat]; omega

theorem slice_encRI_rd : slice (encRI op rd ra rb imm) 25 21 = rd.val := by
  simp only [slice, encRI, BitVec.toNat_ofNat]; omega

theorem slice_encRI_ra : slice (encRI op rd ra rb imm) 20 16 = ra.val := by
  simp only [slice, encRI, BitVec.toNat_ofNat]; omega

theorem slice_encRI_rb : slice (encRI op rd ra rb imm) 15 11 = rb.val := by
  simp only [slice, encRI, BitVec.toNat_ofNat]; omega

theorem slice_encRI_imm : slice (encRI op rd ra rb imm) 10 0 = imm.toNat := by
  simp only [slice, encRI, BitVec.toNat_ofNat]; omega
end formatRI

/-! ## Slices as bits -/

/-- A slice is below its number of values. -/
theorem slice_lt (w : Word) (hi lo : Nat) : slice w hi lo < 2 ^ (hi - lo + 1) := Nat.mod_lt _ (by positivity)

/-- The bits of a slice are the word's bits from `lo` up (R13). -/
theorem testBit_slice (w : Word) (hi lo j : Nat) (h : j < hi - lo + 1) :
    (slice w hi lo).testBit j = w.getLsbD (lo + j) := by
  simp [slice, Nat.testBit_mod_two_pow, Nat.testBit_div_two_pow, h, BitVec.getLsbD, Nat.add_comm]

/-- A slice has a value exactly when its bits are those of the value. -/
theorem slice_eq_iff (w : Word) (hi lo v : Nat) (hv : v < 2 ^ (hi - lo + 1)) :
    slice w hi lo = v ↔ ∀ j < hi - lo + 1, w.getLsbD (lo + j) = v.testBit j := by
  constructor
  · intro h j hj
    rw [← testBit_slice w hi lo j hj, h]
  · intro h
    refine Nat.eq_of_testBit_eq fun j => ?_
    by_cases hj : j < hi - lo + 1
    · rw [testBit_slice w hi lo j hj, h j hj]
    · have h2 : 2 ^ (hi - lo + 1) ≤ 2 ^ j := Nat.pow_le_pow_right (by decide) (by omega)
      rw [Nat.testBit_lt_two_pow (Nat.lt_of_lt_of_le (slice_lt w hi lo) h2),
        Nat.testBit_lt_two_pow (Nat.lt_of_lt_of_le hv h2)]

/-! ## A row of R110 as fields: the mask covers some fields, the match gives each its value -/

/-- A field and its value: `v = w[hi:lo]`. -/
structure FieldValue where
  hi : Nat
  lo : Nat
  v : Nat

/-- The mask is exactly the fields of the list and the match holds their values. -/
def fieldsOf (fs : List FieldValue) (mask pattern : Word) : Bool :=
  (fs.all fun f => decide (f.lo ≤ f.hi) && decide (f.hi < 32) && decide (f.v < 2 ^ (f.hi - f.lo + 1))
    && (List.range (f.hi - f.lo + 1)).all fun j => pattern.getLsbD (f.lo + j) == f.v.testBit j && mask.getLsbD (f.lo + j))
  && (List.range 32).all fun i => (fs.any fun f => decide (f.lo ≤ i) && decide (i ≤ f.hi)) || (!mask.getLsbD i && !pattern.getLsbD i)

/-- A word passes the test of R110 exactly when each field has its value. -/
theorem and_eq_iff_fields {fs : List FieldValue} {mask pattern : Word} (h : fieldsOf fs mask pattern = true) (w : Word) :
    w &&& mask = pattern ↔ ∀ f ∈ fs, slice w f.hi f.lo = f.v := by
  simp only [fieldsOf, Bool.and_eq_true, List.all_eq_true, decide_eq_true_eq, List.mem_range, beq_iff_eq,
    Bool.or_eq_true, List.any_eq_true, Bool.not_eq_true'] at h
  obtain ⟨h1, h2⟩ := h
  constructor
  · intro hw f hf
    obtain ⟨⟨⟨hlo, hhi⟩, hv⟩, hb⟩ := h1 f hf
    refine (slice_eq_iff w f.hi f.lo f.v hv).2 fun j hj => ?_
    obtain ⟨hp, hm⟩ := hb j hj
    rw [← hp, ← hw, BitVec.getLsbD_and, hm, Bool.and_true]
  · intro hw
    refine BitVec.eq_of_getLsbD_eq fun i hi => ?_
    rw [BitVec.getLsbD_and]
    rcases h2 i hi with ⟨f, hf, hl, hh⟩ | ⟨hm, hp⟩
    · obtain ⟨⟨⟨hlo, hhi⟩, hv⟩, hb⟩ := h1 f hf
      obtain ⟨hp, hm⟩ := hb (i - f.lo) (by omega)
      have hs := (slice_eq_iff w f.hi f.lo f.v hv).1 (hw f hf) (i - f.lo) (by omega)
      rw [Nat.add_sub_cancel' hl] at hp hm hs
      rw [hm, hp, hs, Bool.and_true]
    · rw [hm, hp, Bool.and_false]

/-- A row of the table accepts a word exactly when each of its fields has its value. -/
theorem accepts_iff_fields {r : OpRow} (fs : List FieldValue) (h : fieldsOf fs r.mask r.pattern = true) (w : Word) :
    r.accepts w = true ↔ ∀ f ∈ fs, slice w f.hi f.lo = f.v := by
  rw [← and_eq_iff_fields h w]
  simp [OpRow.accepts]

end Sys2Proof
end

