-- ==== Sys2Proof/Laws/Memory.lean ====
section
/-!
SUPPORT. Laws/Memory.lean: read after write on memory cells, that every memory operation keeps the canonical form,
and the byte encodings.
-/
namespace Sys2Proof.Machine

/-! ## Cells -/

/-- Reading after writing: the value written at its address, the old value everywhere else. -/
theorem cellGet_cellSet {α : Type} (m : List (Nat × α)) (a : Nat) (v : α) (b : Nat) :
    cellGet (cellSet m a v) b = if b = a then some v else cellGet m b := by
  induction m with
  | nil => simp [cellSet, cellGet, eq_comm]
  | cons e m ih =>
    obtain ⟨k, w⟩ := e
    simp only [cellSet]
    split
    · by_cases h : b = a
      · simp [cellGet, h]
      · simp [cellGet, h, Ne.symm h]
    · split
      · rename_i h1 h2
        subst h2
        by_cases h : b = k
        · simp [cellGet, h]
        · simp [cellGet, h, Ne.symm h]
      · rename_i h1 h2
        simp only [cellGet, ih]
        by_cases h : k = b
        · subst h
          simp [h2]
        · simp [h]

/-- The canonical form of a list that begins with one entry. -/
theorem cellsWf_cons {α : Type} (k : Nat) (w : α) (m : List (Nat × α)) :
    cellsWf ((k, w) :: m) = true ↔ (∀ e ∈ m, k < e.1) ∧ cellsWf m = true := by
  induction m generalizing k w with
  | nil => simp [cellsWf]
  | cons e m ih =>
    obtain ⟨j, x⟩ := e
    simp only [cellsWf, Bool.and_eq_true, decide_eq_true_eq, List.mem_cons, forall_eq_or_imp]
    constructor
    · rintro ⟨hkj, hm⟩
      exact ⟨⟨hkj, fun e he => Nat.lt_trans hkj (((ih j x).1 hm).1 e he)⟩, hm⟩
    · rintro ⟨⟨hkj, -⟩, hm⟩
      exact ⟨hkj, hm⟩

/-- The addresses listed after a write. -/
theorem mem_cellSet {α : Type} {m : List (Nat × α)} {a : Nat} {v : α} {e : Nat × α} (h : e ∈ cellSet m a v) :
    e = (a, v) ∨ e ∈ m := by
  induction m with
  | nil => simpa [cellSet] using h
  | cons x m ih =>
    obtain ⟨k, w⟩ := x
    simp only [cellSet] at h
    split at h
    · simpa using h
    · split at h
      · rcases List.mem_cons.1 h with h | h
        · exact .inl h
        · exact .inr (List.mem_cons_of_mem _ h)
      · rcases List.mem_cons.1 h with h | h
        · exact .inr (h ▸ List.mem_cons_self)
        · exact (ih h).imp_right (List.mem_cons_of_mem _)

/-- A write keeps the canonical form. -/
theorem cellsWf_cellSet {α : Type} (m : List (Nat × α)) (a : Nat) (v : α) (h : cellsWf m = true) :
    cellsWf (cellSet m a v) = true := by
  induction m with
  | nil => rfl
  | cons x m ih =>
    obtain ⟨k, w⟩ := x
    obtain ⟨hk, hm⟩ := (cellsWf_cons k w m).1 h
    simp only [cellSet]
    split
    · rename_i hak
      refine (cellsWf_cons a v _).2 ⟨fun e he => ?_, h⟩
      rcases List.mem_cons.1 he with he | he
      · exact he ▸ hak
      · exact Nat.lt_trans hak (hk e he)
    · split
      · rename_i h1 h2
        exact (cellsWf_cons a v m).2 ⟨h2 ▸ hk, hm⟩
      · rename_i h1 h2
        refine (cellsWf_cons k w _).2 ⟨fun e he => ?_, ih hm⟩
        rcases mem_cellSet he with he | he
        · subst he
          exact Nat.lt_of_le_of_ne (Nat.not_lt.1 h1) h2
        · exact hk e he

/-- A write inside the memory lists no address outside it. -/
theorem cellsBelow_cellSet {α : Type} (n : Nat) (m : List (Nat × α)) (a : Nat) (v : α) (ha : a < n)
    (h : cellsBelow n m = true) : cellsBelow n (cellSet m a v) = true := by
  simp only [cellsBelow, List.all_eq_true, decide_eq_true_eq] at *
  intro e he
  rcases mem_cellSet he with he | he
  · exact he ▸ ha
  · exact h e he

/-! ## DMEM -/

/-- Reading one byte after writing one. -/
theorem byteAt_cellSet (m : Memory) (a : Nat) (b : Byte) (x : Nat) :
    Memory.byteAt (cellSet m a b) x = if x = a then b else m.byteAt x := by
  simp only [Memory.byteAt, cellGet_cellSet]
  split <;> rfl

/-- Reading one byte after writing consecutive bytes (R74, R85). -/
theorem byteAt_writeBytes (m : Memory) (a : Nat) (bs : List Byte) (x : Nat) :
    Memory.byteAt (writeBytes m a bs) x =
      if h : a ≤ x ∧ x - a < bs.length then bs[x - a]'h.2 else m.byteAt x := by
  induction bs generalizing m a with
  | nil => simp [writeBytes]
  | cons b bs ih =>
    rw [writeBytes, ih]
    by_cases hx : x = a
    · subst hx
      simp [byteAt_cellSet]
    · by_cases h : a + 1 ≤ x ∧ x - (a + 1) < bs.length
      · have h1 : a ≤ x := by omega
        have h2 : x - a = x - (a + 1) + 1 := by omega
        simp [h, h1, h2]
      · have h' : ¬(a ≤ x ∧ x - a < (b :: bs).length) := by
          simp only [List.length_cons]
          omega
        rw [dif_neg h, dif_neg h', byteAt_cellSet, if_neg hx]

/-- Writing bytes keeps the canonical form. -/
theorem writeBytes_wf (m : Memory) (a : Nat) (bs : List Byte) (h : m.wf = true) :
    Memory.wf (writeBytes m a bs) = true := by
  induction bs generalizing m a with
  | nil => exact h
  | cons b bs ih => exact ih _ _ (cellsWf_cellSet m a b h)

/-- Writing bytes inside the memory lists no address outside it. -/
theorem writeBytes_below (n : Nat) (m : Memory) (a : Nat) (bs : List Byte) (ha : a + bs.length ≤ n)
    (h : cellsBelow n m = true) : cellsBelow n (writeBytes m a bs) = true := by
  induction bs generalizing m a with
  | nil => exact h
  | cons b bs ih =>
    simp only [List.length_cons] at ha
    exact ih _ _ (by omega) (cellsBelow_cellSet n m a b (by omega) h)

@[simp] theorem length_bytesAt (s : State) (a n : Nat) : (s.bytesAt a n).length = n := by
  simp [State.bytesAt]

/-- The bytes read back where bytes were written are those bytes. -/
theorem bytesAt_writeBytes (s : State) (a : Nat) (bs : List Byte) :
    State.bytesAt { s with dmem := writeBytes s.dmem a bs } a bs.length = bs := by
  refine List.ext_getElem (by simp) fun i h1 h2 => ?_
  simp only [State.bytesAt, List.getElem_map, List.getElem_range, State.byteAt, byteAt_writeBytes]
  simp [h2]

/-! ## Byte encodings (R16, R75) -/

@[simp] theorem length_leBytes (n v : Nat) : (leBytes n v).length = n := by
  induction n generalizing v with
  | zero => rfl
  | succ n ih => simp [leBytes, ih]

/-- `le(le_n(v)) = v` for `v < 256^n`. -/
theorem le_leBytes (n v : Nat) (h : v < 256 ^ n) : le (leBytes n v) = v := by
  induction n generalizing v with
  | zero => simp only [pow_zero, Nat.lt_one_iff] at h; simp [leBytes, le, h]
  | succ n ih =>
    have : v / 256 < 256 ^ n := Nat.div_lt_of_lt_mul (by rwa [pow_succ, Nat.mul_comm] at h)
    simp only [leBytes, le, ih _ this, BitVec.toNat_ofNat]
    omega

/-- The value of `n` bytes is below `256^n`. -/
theorem le_lt (bs : List Byte) : le bs < 256 ^ bs.length := by
  induction bs with
  | nil => simp [le]
  | cons b bs ih =>
    have hb : b.toNat < 256 := b.isLt
    simp only [le, List.length_cons, pow_succ]
    omega

/-- `le_n(le(bytes)) = bytes` for `n` bytes. -/
theorem leBytes_le (bs : List Byte) : leBytes bs.length (le bs) = bs := by
  induction bs with
  | nil => rfl
  | cons b bs ih =>
    have hb : b.toNat < 256 := b.isLt
    have h1 : (b.toNat + 256 * le bs) / 256 = le bs := by omega
    have h2 : BitVec.ofNat 8 (b.toNat + 256 * le bs) = b := by
      apply BitVec.eq_of_toNat_eq
      simp only [BitVec.toNat_ofNat]
      omega
    simp [le, leBytes, h1, h2, ih]

end Sys2Proof.Machine
end

