-- ==== Sys2Proof/Laws/Ops.lean ====
section
/-!
SUPPORT. Laws/Ops.lean: one lemma per shared operation that says everything it can do: when a check passes, what it
raises when it does not, and what an instruction answers.
-/
namespace Sys2Proof.Machine

@[simp] theorem attempt_ok (s t : State) : attempt s (.ok t) = .next t := rfl

@[simp] theorem attempt_pure (s t : State) : attempt s (pure t) = .next t := rfl

@[simp] theorem attempt_error (s : State) (e : Trap) : attempt s (.error e) = .next (takeTrap e s) := rfl

/-- What an instruction answers: always a next state, its effect or the trap it raised. -/
theorem attempt_eq_next {s t : State} {m : Except Trap State} :
    attempt s m = .next t ↔ m = .ok t ∨ ∃ e, m = .error e ∧ t = takeTrap e s := by
  cases m with
  | ok u => simp [attempt]
  | error e => simp [attempt, eq_comm]

/-- Two checked computations in a row. -/
theorem except_bind_eq_ok {α β : Type} {x : Except Trap α} {g : α → Except Trap β} {b : β} :
    (x >>= g) = .ok b ↔ ∃ a, x = .ok a ∧ g a = .ok b := by
  cases x with
  | ok a => simp [bind, Except.bind]
  | error e => simp [bind, Except.bind]

/-- The operand check passes exactly on a well-formed instruction. -/
@[simp] theorem checkOperands_eq_ok (i : Instr) : checkOperands i = .ok () ↔ i.wellFormed = true := by
  simp only [checkOperands]
  split <;> simp_all

/-- No half of a list is unreadable exactly when each is valid. -/
theorem unreadable_eq_nil (s : State) (hs : List (FIdx × Half)) :
    unreadable s hs = [] ↔ ∀ x ∈ hs, (s.half x.1 x.2).valid = true := by
  simp [unreadable, List.filter_eq_nil_iff]

/-- Reading halves passes exactly when each is valid (R34). -/
@[simp] theorem needHalves_eq_ok (s : State) (hs : List (FIdx × Half)) :
    needHalves s hs = .ok () ↔ ∀ x ∈ hs, (s.half x.1 x.2).valid = true := by
  rw [← unreadable_eq_nil]
  simp only [needHalves]
  split
  · rename_i h
    simpa using List.min?_eq_none_iff.1 h
  · rename_i code h
    constructor
    · intro h'; cases h'
    · intro h'; simp [h'] at h

/-- What a failed read of halves raises: the lowest code among the invalid ones (R34, R343). -/
theorem needHalves_eq_error {s : State} {hs : List (FIdx × Half)} {e : Trap} :
    needHalves s hs = .error e ↔ ∃ code, (unreadable s hs).min? = some code ∧ e = .uninitRegister code := by
  simp only [needHalves]
  split
  · rename_i h; simp [h]
  · rename_i code h; simp [h, eq_comm]

/-- Reading registers passes exactly when both halves of each are valid (R34). -/
@[simp] theorem needRegs_eq_ok (s : State) (ks : List FIdx) :
    needRegs s ks = .ok () ↔ ∀ k ∈ ks, (s.half k .a).valid = true ∧ (s.half k .b).valid = true := by
  simp only [needRegs, needHalves_eq_ok, bothHalves, List.mem_flatMap, List.mem_cons, List.not_mem_nil, or_false]
  constructor
  · intro h k hk
    exact ⟨h (k, .a) ⟨k, hk, .inl rfl⟩, h (k, .b) ⟨k, hk, .inr rfl⟩⟩
  · rintro h x ⟨k, hk, rfl | rfl⟩
    · exact (h k hk).1
    · exact (h k hk).2

@[simp] theorem needSel_eq_ok (s : State) : needSel s = .ok () ↔ s.vsel = true := by
  simp only [needSel]
  split <;> simp_all

@[simp] theorem needCounter_eq_ok (s : State) (cr : CIdx) :
    needCounter s cr = .ok () ↔ (s.counter cr).valid = true := by
  simp only [needCounter]
  split <;> simp_all

@[simp] theorem checkRange_eq_ok (c : Config) (a n : Nat) : checkRange c a n = .ok () ↔ a + n ≤ c.dmemBytes := by
  simp only [checkRange]
  split <;> simp_all

/-- `MemRead` (R73): either the whole range exists and its bytes are answered, or `DmemAccessFault(addr)`. -/
theorem memRead_eq (c : Config) (s : State) (a n : Nat) :
    memRead c s a n = if a + n ≤ c.dmemBytes then .ok (s.bytesAt a n) else .error (.dmemAccessFault a) := by
  simp only [memRead, checkRange]
  by_cases h : a + n ≤ c.dmemBytes
  · simp [h, Nat.not_lt.2 h, bind, Except.bind, pure, Except.pure]
  · simp [h, Nat.lt_of_not_le h, bind, Except.bind]

/-- `MemWrite` (R74): either the whole range exists and the bytes are written, or `DmemAccessFault(addr)`. -/
theorem memWrite_eq (c : Config) (s : State) (a : Nat) (bs : List Byte) :
    memWrite c s a bs =
      if a + bs.length ≤ c.dmemBytes then .ok { s with dmem := writeBytes s.dmem a bs }
      else .error (.dmemAccessFault a) := by
  simp only [memWrite, checkRange]
  by_cases h : a + bs.length ≤ c.dmemBytes
  · simp [h, Nat.not_lt.2 h, bind, Except.bind, pure, Except.pure]
  · simp [h, Nat.lt_of_not_le h, bind, Except.bind]

/-- What a store answers: its bytes written and `pc + 1`, or a trap. -/
theorem performStore_ok {c : Config} {s : State} {what : Except Trap (Nat × List Byte)} {a : Nat} {bs : List Byte}
    (h : what = .ok (a, bs)) (hr : a + bs.length ≤ c.dmemBytes) :
    performStore c s what = .next (State.advance { s with dmem := writeBytes s.dmem a bs }) := by
  subst h
  simp [performStore, memWrite_eq, hr, bind, Except.bind, pure, Except.pure]

end Sys2Proof.Machine
end

