-- ==== Sys2Proof/Laws/Exec.lean ====
section
/-!
SUPPORT. Laws/Exec.lean: `exec` and `step` are the instruction set and the sequencer of AnyConfig.lean in the
machine's own configuration.
-/
namespace Sys2Proof.Machine

/-- `exec` is the instruction set in `Config.core`. -/
theorem exec_eq_execIn (i : Instr) (s : State) : exec i s = execIn Config.core i s := by
  cases i <;> rfl

/-- `step` is the sequencer in `Config.core`. -/
theorem step_eq_stepIn (s : State) : step s = stepIn Config.core s := by
  have h : exec = execIn Config.core := funext fun i => funext fun s => exec_eq_execIn i s
  simp only [step, stepIn, h]

/-- A state that does not run stays as it is (R44, R384). -/
theorem step_of_not_running {s : State} (h : s.run ≠ .running) : step s = .next s := by
  simp only [step, sequencerStep]
  split <;> simp_all

end Sys2Proof.Machine
end

