-- ==== Sys2Proof/Laws/State.lean ====
section
/-!
SUPPORT. Laws/State.lean: one lemma per field per update of the state, true by unfolding, so that no later proof
unfolds a record update; then what the register accessors read after a register is written.
-/
namespace Sys2Proof.Machine

section setHalf
variable (s : State) (k : FIdx) (h : Half) (v : Nat)
@[simp] theorem setHalf_c : (s.setHalf k h v).c = s.c := rfl
@[simp] theorem setHalf_sel : (s.setHalf k h v).sel = s.sel := rfl
@[simp] theorem setHalf_vsel : (s.setHalf k h v).vsel = s.vsel := rfl
@[simp] theorem setHalf_pc : (s.setHalf k h v).pc = s.pc := rfl
@[simp] theorem setHalf_run : (s.setHalf k h v).run = s.run := rfl
@[simp] theorem setHalf_invz : (s.setHalf k h v).invz = s.invz := rfl
@[simp] theorem setHalf_cause : (s.setHalf k h v).cause = s.cause := rfl
@[simp] theorem setHalf_epc : (s.setHalf k h v).epc = s.epc := rfl
@[simp] theorem setHalf_finfo : (s.setHalf k h v).finfo = s.finfo := rfl
@[simp] theorem setHalf_entry : (s.setHalf k h v).entry = s.entry := rfl
@[simp] theorem setHalf_imem : (s.setHalf k h v).imem = s.imem := rfl
@[simp] theorem setHalf_dmem : (s.setHalf k h v).dmem = s.dmem := rfl
@[simp] theorem counter_setHalf (d : CIdx) : (s.setHalf k h v).counter d = s.counter d := rfl
@[simp] theorem byteAt_setHalf (i : Nat) : (s.setHalf k h v).byteAt i = s.byteAt i := rfl
@[simp] theorem wordAt_setHalf (i : Nat) : (s.setHalf k h v).wordAt i = s.wordAt i := rfl
end setHalf

section setReg
variable (s : State) (k : FIdx) (v : Fp2)
@[simp] theorem setReg_c : (s.setReg k v).c = s.c := rfl
@[simp] theorem setReg_sel : (s.setReg k v).sel = s.sel := rfl
@[simp] theorem setReg_vsel : (s.setReg k v).vsel = s.vsel := rfl
@[simp] theorem setReg_pc : (s.setReg k v).pc = s.pc := rfl
@[simp] theorem setReg_run : (s.setReg k v).run = s.run := rfl
@[simp] theorem setReg_invz : (s.setReg k v).invz = s.invz := rfl
@[simp] theorem setReg_cause : (s.setReg k v).cause = s.cause := rfl
@[simp] theorem setReg_epc : (s.setReg k v).epc = s.epc := rfl
@[simp] theorem setReg_finfo : (s.setReg k v).finfo = s.finfo := rfl
@[simp] theorem setReg_entry : (s.setReg k v).entry = s.entry := rfl
@[simp] theorem setReg_imem : (s.setReg k v).imem = s.imem := rfl
@[simp] theorem setReg_dmem : (s.setReg k v).dmem = s.dmem := rfl
@[simp] theorem counter_setReg (d : CIdx) : (s.setReg k v).counter d = s.counter d := rfl
@[simp] theorem byteAt_setReg (i : Nat) : (s.setReg k v).byteAt i = s.byteAt i := rfl
@[simp] theorem wordAt_setReg (i : Nat) : (s.setReg k v).wordAt i = s.wordAt i := rfl
end setReg

section setPair
variable (s : State) (k : FIdx) (v : Pair)
@[simp] theorem setPair_c : (s.setPair k v).c = s.c := rfl
@[simp] theorem setPair_sel : (s.setPair k v).sel = s.sel := rfl
@[simp] theorem setPair_vsel : (s.setPair k v).vsel = s.vsel := rfl
@[simp] theorem setPair_pc : (s.setPair k v).pc = s.pc := rfl
@[simp] theorem setPair_run : (s.setPair k v).run = s.run := rfl
@[simp] theorem setPair_invz : (s.setPair k v).invz = s.invz := rfl
@[simp] theorem setPair_cause : (s.setPair k v).cause = s.cause := rfl
@[simp] theorem setPair_epc : (s.setPair k v).epc = s.epc := rfl
@[simp] theorem setPair_finfo : (s.setPair k v).finfo = s.finfo := rfl
@[simp] theorem setPair_entry : (s.setPair k v).entry = s.entry := rfl
@[simp] theorem setPair_imem : (s.setPair k v).imem = s.imem := rfl
@[simp] theorem setPair_dmem : (s.setPair k v).dmem = s.dmem := rfl
@[simp] theorem counter_setPair (d : CIdx) : (s.setPair k v).counter d = s.counter d := rfl
@[simp] theorem byteAt_setPair (i : Nat) : (s.setPair k v).byteAt i = s.byteAt i := rfl
@[simp] theorem wordAt_setPair (i : Nat) : (s.setPair k v).wordAt i = s.wordAt i := rfl
end setPair

section setTriple
variable (s : State) (k : FIdx) (v : Triple)
@[simp] theorem setTriple_c : (s.setTriple k v).c = s.c := rfl
@[simp] theorem setTriple_sel : (s.setTriple k v).sel = s.sel := rfl
@[simp] theorem setTriple_vsel : (s.setTriple k v).vsel = s.vsel := rfl
@[simp] theorem setTriple_pc : (s.setTriple k v).pc = s.pc := rfl
@[simp] theorem setTriple_run : (s.setTriple k v).run = s.run := rfl
@[simp] theorem setTriple_invz : (s.setTriple k v).invz = s.invz := rfl
@[simp] theorem setTriple_cause : (s.setTriple k v).cause = s.cause := rfl
@[simp] theorem setTriple_epc : (s.setTriple k v).epc = s.epc := rfl
@[simp] theorem setTriple_finfo : (s.setTriple k v).finfo = s.finfo := rfl
@[simp] theorem setTriple_entry : (s.setTriple k v).entry = s.entry := rfl
@[simp] theorem setTriple_imem : (s.setTriple k v).imem = s.imem := rfl
@[simp] theorem setTriple_dmem : (s.setTriple k v).dmem = s.dmem := rfl
@[simp] theorem counter_setTriple (d : CIdx) : (s.setTriple k v).counter d = s.counter d := rfl
@[simp] theorem byteAt_setTriple (i : Nat) : (s.setTriple k v).byteAt i = s.byteAt i := rfl
@[simp] theorem wordAt_setTriple (i : Nat) : (s.setTriple k v).wordAt i = s.wordAt i := rfl
end setTriple

section setCounter
variable (s : State) (cr : CIdx) (v : BitVec 16)
@[simp] theorem setCounter_f : (s.setCounter cr v).f = s.f := rfl
@[simp] theorem setCounter_sel : (s.setCounter cr v).sel = s.sel := rfl
@[simp] theorem setCounter_vsel : (s.setCounter cr v).vsel = s.vsel := rfl
@[simp] theorem setCounter_pc : (s.setCounter cr v).pc = s.pc := rfl
@[simp] theorem setCounter_run : (s.setCounter cr v).run = s.run := rfl
@[simp] theorem setCounter_invz : (s.setCounter cr v).invz = s.invz := rfl
@[simp] theorem setCounter_cause : (s.setCounter cr v).cause = s.cause := rfl
@[simp] theorem setCounter_epc : (s.setCounter cr v).epc = s.epc := rfl
@[simp] theorem setCounter_finfo : (s.setCounter cr v).finfo = s.finfo := rfl
@[simp] theorem setCounter_entry : (s.setCounter cr v).entry = s.entry := rfl
@[simp] theorem setCounter_imem : (s.setCounter cr v).imem = s.imem := rfl
@[simp] theorem setCounter_dmem : (s.setCounter cr v).dmem = s.dmem := rfl
@[simp] theorem half_setCounter (j : FIdx) (x : Half) : (s.setCounter cr v).half j x = s.half j x := rfl
@[simp] theorem reg_setCounter (j : FIdx) : (s.setCounter cr v).reg j = s.reg j := rfl
@[simp] theorem pair_setCounter (j : FIdx) : (s.setCounter cr v).pair j = s.pair j := rfl
@[simp] theorem triple_setCounter (j : FIdx) : (s.setCounter cr v).triple j = s.triple j := rfl
@[simp] theorem byteAt_setCounter (i : Nat) : (s.setCounter cr v).byteAt i = s.byteAt i := rfl
@[simp] theorem wordAt_setCounter (i : Nat) : (s.setCounter cr v).wordAt i = s.wordAt i := rfl
end setCounter

section setSel
variable (s : State) (v : Selector)
@[simp] theorem setSel_f : (s.setSel v).f = s.f := rfl
@[simp] theorem setSel_c : (s.setSel v).c = s.c := rfl
@[simp] theorem setSel_sel : (s.setSel v).sel = v := rfl
@[simp] theorem setSel_vsel : (s.setSel v).vsel = true := rfl
@[simp] theorem setSel_pc : (s.setSel v).pc = s.pc := rfl
@[simp] theorem setSel_run : (s.setSel v).run = s.run := rfl
@[simp] theorem setSel_invz : (s.setSel v).invz = s.invz := rfl
@[simp] theorem setSel_cause : (s.setSel v).cause = s.cause := rfl
@[simp] theorem setSel_epc : (s.setSel v).epc = s.epc := rfl
@[simp] theorem setSel_finfo : (s.setSel v).finfo = s.finfo := rfl
@[simp] theorem setSel_entry : (s.setSel v).entry = s.entry := rfl
@[simp] theorem setSel_imem : (s.setSel v).imem = s.imem := rfl
@[simp] theorem setSel_dmem : (s.setSel v).dmem = s.dmem := rfl
@[simp] theorem half_setSel (j : FIdx) (x : Half) : (s.setSel v).half j x = s.half j x := rfl
@[simp] theorem reg_setSel (j : FIdx) : (s.setSel v).reg j = s.reg j := rfl
@[simp] theorem pair_setSel (j : FIdx) : (s.setSel v).pair j = s.pair j := rfl
@[simp] theorem triple_setSel (j : FIdx) : (s.setSel v).triple j = s.triple j := rfl
@[simp] theorem counter_setSel (d : CIdx) : (s.setSel v).counter d = s.counter d := rfl
@[simp] theorem byteAt_setSel (i : Nat) : (s.setSel v).byteAt i = s.byteAt i := rfl
@[simp] theorem wordAt_setSel (i : Nat) : (s.setSel v).wordAt i = s.wordAt i := rfl
end setSel

section jump
variable (s : State) (t : Nat)
@[simp] theorem jump_f : (s.jump t).f = s.f := rfl
@[simp] theorem jump_c : (s.jump t).c = s.c := rfl
@[simp] theorem jump_sel : (s.jump t).sel = s.sel := rfl
@[simp] theorem jump_vsel : (s.jump t).vsel = s.vsel := rfl
@[simp] theorem jump_pc : (s.jump t).pc = t := rfl
@[simp] theorem jump_run : (s.jump t).run = s.run := rfl
@[simp] theorem jump_invz : (s.jump t).invz = s.invz := rfl
@[simp] theorem jump_cause : (s.jump t).cause = s.cause := rfl
@[simp] theorem jump_epc : (s.jump t).epc = s.epc := rfl
@[simp] theorem jump_finfo : (s.jump t).finfo = s.finfo := rfl
@[simp] theorem jump_entry : (s.jump t).entry = s.entry := rfl
@[simp] theorem jump_imem : (s.jump t).imem = s.imem := rfl
@[simp] theorem jump_dmem : (s.jump t).dmem = s.dmem := rfl
@[simp] theorem half_jump (j : FIdx) (x : Half) : (s.jump t).half j x = s.half j x := rfl
@[simp] theorem reg_jump (j : FIdx) : (s.jump t).reg j = s.reg j := rfl
@[simp] theorem pair_jump (j : FIdx) : (s.jump t).pair j = s.pair j := rfl
@[simp] theorem triple_jump (j : FIdx) : (s.jump t).triple j = s.triple j := rfl
@[simp] theorem counter_jump (d : CIdx) : (s.jump t).counter d = s.counter d := rfl
@[simp] theorem byteAt_jump (i : Nat) : (s.jump t).byteAt i = s.byteAt i := rfl
@[simp] theorem wordAt_jump (i : Nat) : (s.jump t).wordAt i = s.wordAt i := rfl
end jump

section advance
variable (s : State)
@[simp] theorem advance_f : (s.advance).f = s.f := rfl
@[simp] theorem advance_c : (s.advance).c = s.c := rfl
@[simp] theorem advance_sel : (s.advance).sel = s.sel := rfl
@[simp] theorem advance_vsel : (s.advance).vsel = s.vsel := rfl
@[simp] theorem advance_pc : (s.advance).pc = s.pc + 1 := rfl
@[simp] theorem advance_run : (s.advance).run = s.run := rfl
@[simp] theorem advance_invz : (s.advance).invz = s.invz := rfl
@[simp] theorem advance_cause : (s.advance).cause = s.cause := rfl
@[simp] theorem advance_epc : (s.advance).epc = s.epc := rfl
@[simp] theorem advance_finfo : (s.advance).finfo = s.finfo := rfl
@[simp] theorem advance_entry : (s.advance).entry = s.entry := rfl
@[simp] theorem advance_imem : (s.advance).imem = s.imem := rfl
@[simp] theorem advance_dmem : (s.advance).dmem = s.dmem := rfl
@[simp] theorem half_advance (j : FIdx) (x : Half) : (s.advance).half j x = s.half j x := rfl
@[simp] theorem reg_advance (j : FIdx) : (s.advance).reg j = s.reg j := rfl
@[simp] theorem pair_advance (j : FIdx) : (s.advance).pair j = s.pair j := rfl
@[simp] theorem triple_advance (j : FIdx) : (s.advance).triple j = s.triple j := rfl
@[simp] theorem counter_advance (d : CIdx) : (s.advance).counter d = s.counter d := rfl
@[simp] theorem byteAt_advance (i : Nat) : (s.advance).byteAt i = s.byteAt i := rfl
@[simp] theorem wordAt_advance (i : Nat) : (s.advance).wordAt i = s.wordAt i := rfl
end advance

section noteInversion
variable (s : State) (n : Nat)
@[simp] theorem noteInversion_f : (s.noteInversion n).f = s.f := rfl
@[simp] theorem noteInversion_c : (s.noteInversion n).c = s.c := rfl
@[simp] theorem noteInversion_sel : (s.noteInversion n).sel = s.sel := rfl
@[simp] theorem noteInversion_vsel : (s.noteInversion n).vsel = s.vsel := rfl
@[simp] theorem noteInversion_pc : (s.noteInversion n).pc = s.pc := rfl
@[simp] theorem noteInversion_run : (s.noteInversion n).run = s.run := rfl
@[simp] theorem noteInversion_invz : (s.noteInversion n).invz = (s.invz || n == 0) := rfl
@[simp] theorem noteInversion_cause : (s.noteInversion n).cause = s.cause := rfl
@[simp] theorem noteInversion_epc : (s.noteInversion n).epc = s.epc := rfl
@[simp] theorem noteInversion_finfo : (s.noteInversion n).finfo = s.finfo := rfl
@[simp] theorem noteInversion_entry : (s.noteInversion n).entry = s.entry := rfl
@[simp] theorem noteInversion_imem : (s.noteInversion n).imem = s.imem := rfl
@[simp] theorem noteInversion_dmem : (s.noteInversion n).dmem = s.dmem := rfl
@[simp] theorem half_noteInversion (j : FIdx) (x : Half) : (s.noteInversion n).half j x = s.half j x := rfl
@[simp] theorem reg_noteInversion (j : FIdx) : (s.noteInversion n).reg j = s.reg j := rfl
@[simp] theorem pair_noteInversion (j : FIdx) : (s.noteInversion n).pair j = s.pair j := rfl
@[simp] theorem triple_noteInversion (j : FIdx) : (s.noteInversion n).triple j = s.triple j := rfl
@[simp] theorem counter_noteInversion (d : CIdx) : (s.noteInversion n).counter d = s.counter d := rfl
@[simp] theorem byteAt_noteInversion (i : Nat) : (s.noteInversion n).byteAt i = s.byteAt i := rfl
@[simp] theorem wordAt_noteInversion (i : Nat) : (s.noteInversion n).wordAt i = s.wordAt i := rfl
end noteInversion

section takeTrap
variable (s : State) (e : Trap)
@[simp] theorem takeTrap_f : (takeTrap e s).f = s.f := rfl
@[simp] theorem takeTrap_c : (takeTrap e s).c = s.c := rfl
@[simp] theorem takeTrap_sel : (takeTrap e s).sel = s.sel := rfl
@[simp] theorem takeTrap_vsel : (takeTrap e s).vsel = s.vsel := rfl
@[simp] theorem takeTrap_pc : (takeTrap e s).pc = s.pc := rfl
@[simp] theorem takeTrap_run : (takeTrap e s).run = .fault := rfl
@[simp] theorem takeTrap_invz : (takeTrap e s).invz = s.invz := rfl
@[simp] theorem takeTrap_cause : (takeTrap e s).cause = e.code := rfl
@[simp] theorem takeTrap_epc : (takeTrap e s).epc = BitVec.ofNat 17 s.pc := rfl
@[simp] theorem takeTrap_finfo : (takeTrap e s).finfo = e.info := rfl
@[simp] theorem takeTrap_entry : (takeTrap e s).entry = s.entry := rfl
@[simp] theorem takeTrap_imem : (takeTrap e s).imem = s.imem := rfl
@[simp] theorem takeTrap_dmem : (takeTrap e s).dmem = s.dmem := rfl
@[simp] theorem half_takeTrap (j : FIdx) (x : Half) : (takeTrap e s).half j x = s.half j x := rfl
@[simp] theorem reg_takeTrap (j : FIdx) : (takeTrap e s).reg j = s.reg j := rfl
@[simp] theorem pair_takeTrap (j : FIdx) : (takeTrap e s).pair j = s.pair j := rfl
@[simp] theorem triple_takeTrap (j : FIdx) : (takeTrap e s).triple j = s.triple j := rfl
@[simp] theorem counter_takeTrap (d : CIdx) : (takeTrap e s).counter d = s.counter d := rfl
@[simp] theorem byteAt_takeTrap (i : Nat) : (takeTrap e s).byteAt i = s.byteAt i := rfl
@[simp] theorem wordAt_takeTrap (i : Nat) : (takeTrap e s).wordAt i = s.wordAt i := rfl
end takeTrap

section invalidate
variable (s : State)
@[simp] theorem invalidate_f : (s.invalidate).f = Vector.replicate 32 FieldReg.empty := rfl
@[simp] theorem invalidate_c : (s.invalidate).c = Vector.replicate 8 CounterReg.empty := rfl
@[simp] theorem invalidate_sel : (s.invalidate).sel = .zero := rfl
@[simp] theorem invalidate_vsel : (s.invalidate).vsel = false := rfl
@[simp] theorem invalidate_pc : (s.invalidate).pc = s.pc := rfl
@[simp] theorem invalidate_run : (s.invalidate).run = s.run := rfl
@[simp] theorem invalidate_invz : (s.invalidate).invz = false := rfl
@[simp] theorem invalidate_cause : (s.invalidate).cause = s.cause := rfl
@[simp] theorem invalidate_epc : (s.invalidate).epc = s.epc := rfl
@[simp] theorem invalidate_finfo : (s.invalidate).finfo = s.finfo := rfl
@[simp] theorem invalidate_entry : (s.invalidate).entry = s.entry := rfl
@[simp] theorem invalidate_imem : (s.invalidate).imem = s.imem := rfl
@[simp] theorem invalidate_dmem : (s.invalidate).dmem = s.dmem := rfl
@[simp] theorem byteAt_invalidate (i : Nat) : (s.invalidate).byteAt i = s.byteAt i := rfl
@[simp] theorem wordAt_invalidate (i : Nat) : (s.invalidate).wordAt i = s.wordAt i := rfl
end invalidate

section hardReset
variable (s : State)
@[simp] theorem hardReset_f : (s.hardReset).f = Vector.replicate 32 FieldReg.empty := rfl
@[simp] theorem hardReset_c : (s.hardReset).c = Vector.replicate 8 CounterReg.empty := rfl
@[simp] theorem hardReset_sel : (s.hardReset).sel = .zero := rfl
@[simp] theorem hardReset_vsel : (s.hardReset).vsel = false := rfl
@[simp] theorem hardReset_pc : (s.hardReset).pc = 0 := rfl
@[simp] theorem hardReset_run : (s.hardReset).run = .idle := rfl
@[simp] theorem hardReset_invz : (s.hardReset).invz = false := rfl
@[simp] theorem hardReset_cause : (s.hardReset).cause = 0 := rfl
@[simp] theorem hardReset_epc : (s.hardReset).epc = 0 := rfl
@[simp] theorem hardReset_finfo : (s.hardReset).finfo = 0 := rfl
@[simp] theorem hardReset_entry : (s.hardReset).entry = 0 := rfl
@[simp] theorem hardReset_imem : (s.hardReset).imem = s.imem := rfl
@[simp] theorem hardReset_dmem : (s.hardReset).dmem = s.dmem := rfl
@[simp] theorem byteAt_hardReset (i : Nat) : (s.hardReset).byteAt i = s.byteAt i := rfl
@[simp] theorem wordAt_hardReset (i : Nat) : (s.hardReset).wordAt i = s.wordAt i := rfl
end hardReset

section setVector
@[simp] theorem setVector_c (s : State) (k : FIdx) (vs : List Fp2) : (s.setVector k vs).c = s.c := by
  induction vs generalizing s k with
  | nil => rfl
  | cons v vs ih => simp [State.setVector, ih]
@[simp] theorem setVector_sel (s : State) (k : FIdx) (vs : List Fp2) : (s.setVector k vs).sel = s.sel := by
  induction vs generalizing s k with
  | nil => rfl
  | cons v vs ih => simp [State.setVector, ih]
@[simp] theorem setVector_vsel (s : State) (k : FIdx) (vs : List Fp2) : (s.setVector k vs).vsel = s.vsel := by
  induction vs generalizing s k with
  | nil => rfl
  | cons v vs ih => simp [State.setVector, ih]
@[simp] theorem setVector_pc (s : State) (k : FIdx) (vs : List Fp2) : (s.setVector k vs).pc = s.pc := by
  induction vs generalizing s k with
  | nil => rfl
  | cons v vs ih => simp [State.setVector, ih]
@[simp] theorem setVector_run (s : State) (k : FIdx) (vs : List Fp2) : (s.setVector k vs).run = s.run := by
  induction vs generalizing s k with
  | nil => rfl
  | cons v vs ih => simp [State.setVector, ih]
@[simp] theorem setVector_invz (s : State) (k : FIdx) (vs : List Fp2) : (s.setVector k vs).invz = s.invz := by
  induction vs generalizing s k with
  | nil => rfl
  | cons v vs ih => simp [State.setVector, ih]
@[simp] theorem setVector_cause (s : State) (k : FIdx) (vs : List Fp2) : (s.setVector k vs).cause = s.cause := by
  induction vs generalizing s k with
  | nil => rfl
  | cons v vs ih => simp [State.setVector, ih]
@[simp] theorem setVector_epc (s : State) (k : FIdx) (vs : List Fp2) : (s.setVector k vs).epc = s.epc := by
  induction vs generalizing s k with
  | nil => rfl
  | cons v vs ih => simp [State.setVector, ih]
@[simp] theorem setVector_finfo (s : State) (k : FIdx) (vs : List Fp2) : (s.setVector k vs).finfo = s.finfo := by
  induction vs generalizing s k with
  | nil => rfl
  | cons v vs ih => simp [State.setVector, ih]
@[simp] theorem setVector_entry (s : State) (k : FIdx) (vs : List Fp2) : (s.setVector k vs).entry = s.entry := by
  induction vs generalizing s k with
  | nil => rfl
  | cons v vs ih => simp [State.setVector, ih]
@[simp] theorem setVector_imem (s : State) (k : FIdx) (vs : List Fp2) : (s.setVector k vs).imem = s.imem := by
  induction vs generalizing s k with
  | nil => rfl
  | cons v vs ih => simp [State.setVector, ih]
@[simp] theorem setVector_dmem (s : State) (k : FIdx) (vs : List Fp2) : (s.setVector k vs).dmem = s.dmem := by
  induction vs generalizing s k with
  | nil => rfl
  | cons v vs ih => simp [State.setVector, ih]
@[simp] theorem counter_setVector (s : State) (k : FIdx) (vs : List Fp2) (d : CIdx) : (s.setVector k vs).counter d = s.counter d := by
  simp [State.counter]
@[simp] theorem byteAt_setVector (s : State) (k : FIdx) (vs : List Fp2) (i : Nat) : (s.setVector k vs).byteAt i = s.byteAt i := by
  simp [State.byteAt]
@[simp] theorem wordAt_setVector (s : State) (k : FIdx) (vs : List Fp2) (i : Nat) : (s.setVector k vs).wordAt i = s.wordAt i := by
  simp [State.wordAt]
end setVector

/-! ## The accessors depend on their field alone -/

theorem half_eq_of_f {s t : State} (h : t.f = s.f) (k : FIdx) (x : Half) : t.half k x = s.half k x := by
  simp [State.half, h]

theorem reg_eq_of_f {s t : State} (h : t.f = s.f) (k : FIdx) : t.reg k = s.reg k := by
  simp [State.reg, half_eq_of_f h]

theorem counter_eq_of_c {s t : State} (h : t.c = s.c) (cr : CIdx) : t.counter cr = s.counter cr := by
  simp [State.counter, h]

theorem byteAt_eq_of_dmem {s t : State} (h : t.dmem = s.dmem) (a : Nat) : t.byteAt a = s.byteAt a := by
  simp [State.byteAt, h]

theorem wordAt_eq_of_imem {s t : State} (h : t.imem = s.imem) (n : Nat) : t.wordAt n = s.wordAt n := by
  simp [State.wordAt, h]

/-! ## Read after write: halves, registers, counters -/

theorem half_setHalf (s : State) (k : FIdx) (h : Half) (v : Nat) (j : FIdx) (x : Half) :
    (s.setHalf k h v).half j x = if j = k ∧ x = h then { val := v, valid := true } else s.half j x := by
  by_cases hj : j = k
  · subst hj
    cases h <;> cases x <;> simp [State.half, State.setHalf, FieldReg.half, FieldReg.withHalf]
  · have hv : k.val ≠ j.val := fun e => hj (Fin.ext e.symm)
    simp [State.half, State.setHalf, hj, Vector.getElem_set_ne, hv]

theorem half_setReg (s : State) (k : FIdx) (v : Fp2) (j : FIdx) (x : Half) :
    (s.setReg k v).half j x =
      if j = k then { val := match x with | .a => v.a | .b => v.b, valid := true } else s.half j x := by
  by_cases hj : j = k
  · subst hj
    cases x <;> simp [State.half, State.setReg, FieldReg.half]
  · have hv : k.val ≠ j.val := fun e => hj (Fin.ext e.symm)
    simp [State.half, State.setReg, hj, Vector.getElem_set_ne, hv]

@[simp] theorem reg_setReg_self (s : State) (k : FIdx) (v : Fp2) : (s.setReg k v).reg k = v := by
  simp [State.reg, half_setReg]

theorem reg_setReg_ne (s : State) {k j : FIdx} (v : Fp2) (h : j ≠ k) : (s.setReg k v).reg j = s.reg j := by
  simp [State.reg, half_setReg, h]

theorem counter_setCounter (s : State) (cr : CIdx) (v : BitVec 16) (d : CIdx) :
    (s.setCounter cr v).counter d = if d = cr then { val := v, valid := true } else s.counter d := by
  by_cases hd : d = cr
  · subst hd
    simp [State.counter, State.setCounter]
  · have hv : cr.val ≠ d.val := fun e => hd (Fin.ext e.symm)
    simp [State.counter, State.setCounter, hd, Vector.getElem_set_ne, hv]

/-- A register and the one after it are different. -/
theorem nextReg_ne (k : FIdx) : nextReg k ≠ k := by
  revert k; decide

@[simp] theorem pair_setPair_self (s : State) (k : FIdx) (v : Pair) : (s.setPair k v).pair k = v := by
  simp [State.setPair, State.pair, reg_setReg_ne _ _ (nextReg_ne k).symm]

/-- What a half reads after a pair is written. -/
theorem half_setPair (s : State) (k : FIdx) (v : Pair) (j : FIdx) (x : Half) (h : j ∉ pairRegs k) :
    (s.setPair k v).half j x = s.half j x := by
  simp only [pairRegs, List.mem_cons, List.not_mem_nil, or_false, not_or] at h
  simp [State.setPair, half_setReg, h.1, h.2]

/-- What a half reads after a triple is written. -/
theorem half_setTriple (s : State) (k : FIdx) (v : Triple) (j : FIdx) (x : Half) (h : j ∉ tripleRegs k) :
    (s.setTriple k v).half j x = s.half j x := by
  simp only [tripleRegs, List.mem_cons, List.not_mem_nil, or_false, not_or] at h
  simp [State.setTriple, half_setReg, h.1, h.2.1, h.2.2]

/-- What a half reads after a vector is written. -/
theorem half_setVector (s : State) (k : FIdx) (vs : List Fp2) (j : FIdx) (x : Half)
    (h : j ∉ vectorRegs k vs.length) : (s.setVector k vs).half j x = s.half j x := by
  induction vs generalizing s k with
  | nil => rfl
  | cons v vs ih =>
    simp only [List.length_cons, vectorRegs, List.mem_cons, not_or] at h
    simp [State.setVector, ih _ _ h.2, half_setReg, h.1]

end Sys2Proof.Machine
end

