-- ==== Sys2Proof/Laws/Effect.lean ====
section
/-!
SUPPORT. Laws/Effect.lean: one case analysis of the whole instruction set, made once: an instruction raises the
exception `raises` names (R345), or it has the effect `effect` writes out. Later proofs about every instruction go
through these two and unfold no meaning.
-/
namespace Sys2Proof.Machine

/-- Bytes written to DMEM, the range already checked. -/
def State.storeBytes (s : State) (a : Nat) (bs : List Byte) : State := { s with dmem := writeBytes s.dmem a bs }

/-- The effect of an instruction that raises nothing. -/
def effect (c : Config) (i : Instr) (s : State) : State :=
  match i with
  | .nop => s.advance
  | .halt => { s with run := .done }
  | .ldi cr imm => (s.setCounter cr imm).advance
  | .addi cr imm => (s.setCounter cr (addiValue s cr imm)).advance
  | .jmp imm => s.jump imm.toNat
  | .djnz cr imm =>
    if djnzValue s cr ≠ 0 then (s.setCounter cr (djnzValue s cr)).jump imm.toNat
    else (s.setCounter cr (djnzValue s cr)).advance
  | .ldf rd cr imm =>
    (s.setReg rd
      { a := toMontgomery c (s.numberAt (s.address cr imm) c.nBytes)
        b := toMontgomery c (s.numberAt (s.address cr imm + c.nBytes) c.nBytes) }).advance
  | .stf rd cr imm => (s.storeBytes (s.address cr imm) (canonicalBytes c (s.reg rd))).advance
  | .ldfm rd cr imm =>
    (s.setReg rd
      { a := s.numberAt (s.address cr imm) c.mBytes
        b := s.numberAt (s.address cr imm + c.mBytes) c.mBytes }).advance
  | .stfm rd cr imm => (s.storeBytes (s.address cr imm) (rawBytes c (s.reg rd))).advance
  | .selld cr imm =>
    (s.setSel ((selectorOfBytes (s.bytesAt (s.address cr imm) c.wordBytes)).getD .zero)).advance
  | .selst cr imm => (s.storeBytes (s.address cr imm) (selectorBytes c s.sel)).advance
  | .fpadd rd hd ra ha rb hb => (s.setHalf rd hd (fpadd c (s.half ra ha).val (s.half rb hb).val)).advance
  | .fpsub rd hd ra ha rb hb => (s.setHalf rd hd (fpsub c (s.half ra ha).val (s.half rb hb).val)).advance
  | .fpneg rd hd ra ha => (s.setHalf rd hd (fpneg c (s.half ra ha).val)).advance
  | .fpmul rd hd ra ha rb hb => (s.setHalf rd hd (fpmul c (s.half ra ha).val (s.half rb hb).val)).advance
  | .fpinv rd hd ra ha => (s.setHalf rd hd (fpinv c (s.half ra ha).val)).advance.noteInversion (s.half ra ha).val
  | .fpmov rd hd ra ha => (s.setHalf rd hd (s.half ra ha).val).advance
  | .fptom rd hd ra ha => (s.setHalf rd hd (toMontgomery c (s.half ra ha).val)).advance
  | .fpfrm rd hd ra ha => (s.setHalf rd hd (fromMontgomery c (s.half ra ha).val)).advance
  | .f2add rd ra rb => (s.setReg rd (f2add c (s.reg ra) (s.reg rb))).advance
  | .f2sub rd ra rb => (s.setReg rd (f2sub c (s.reg ra) (s.reg rb))).advance
  | .f2mul rd ra rb => (s.setReg rd (f2mul c (s.reg ra) (s.reg rb))).advance
  | .f2sqr rd ra => (s.setReg rd (f2sqr c (s.reg ra))).advance
  | .f2inv rd ra => (s.setReg rd (f2inv c (s.reg ra))).advance.noteInversion (f2norm c (s.reg ra))
  | .f2conj rd ra => (s.setReg rd (f2conj c (s.reg ra))).advance
  | .f2mov rd ra => (s.setReg rd (s.reg ra)).advance
  | .f2cmov rd ra => (s.setReg rd (f2cmov (s.reg rd) (s.reg ra) s.sel)).advance
  | .f2eq ra rb => (s.setSel (Selector.ofBool (f2isEqual (s.reg ra) (s.reg rb)))).advance
  | .f2isz ra => (s.setSel (Selector.ofBool (f2isZero (s.reg ra)))).advance
  | .f2inv3 rd ra rb =>
    ((((s.setReg rd (inv3Way c (s.reg rd) (s.reg ra) (s.reg rb)).k0).setReg ra
      (inv3Way c (s.reg rd) (s.reg ra) (s.reg rb)).k1).setReg rb
      (inv3Way c (s.reg rd) (s.reg ra) (s.reg rb)).k2).noteInversion
      (f2norm c (inv3Product c (s.reg rd) (s.reg ra) (s.reg rb)))).advance
  | .f2invn rd ra n =>
    match s.vector ra n.toNat with
    | [] => s
    | v :: vs => ((s.setVector rd (invN c v vs)).noteInversion (f2norm c (f2product c v vs))).advance
  | .xdbl rd ra rb => (s.setPair rd (xdbl c (s.pair ra) (s.pair rb))).advance
  | .xdble rd ra rb e => (s.setPair rd (repeatTimes (fun t => xdbl c t (s.pair rb)) e.toNat (s.pair ra))).advance
  | .xtpl rd ra rb => (s.setPair rd (xtpl c (s.pair ra) (s.pair rb))).advance
  | .xtple rd ra rb e => (s.setPair rd (repeatTimes (fun t => xtpl c t (s.pair rb)) e.toNat (s.pair ra))).advance
  | .xadd rd ra rb rc => (s.setPair rd (xadd c (s.pair ra) (s.pair rb) (s.reg rc))).advance
  | .xdbladd rd ra rb rc =>
    ((s.setPair rd (xdbl c (s.pair rd) (s.pair rc))).setPair ra
      (xadd c (s.pair rd) (s.pair ra) (s.reg rb))).advance
  | .get4iso rd ra rc =>
    ((s.setPair rd (get4isoCurve c (s.pair ra))).setTriple rc (get4isoCoeffs c (s.pair ra))).advance
  | .eval4iso rd ra rb => (s.setPair rd (eval4iso c (s.pair ra) (s.triple rb))).advance
  | .get3iso rd ra rc =>
    ((s.setPair rd (get3isoCurve c (s.pair ra))).setPair rc (get3isoCoeffs c (s.pair ra))).advance
  | .eval3iso rd ra rb => (s.setPair rd (eval3iso c (s.pair ra) (s.pair rb))).advance
  | .jinvAc rd ra =>
    ((s.setReg rd (jinv c (s.pair ra))).noteInversion (f2norm c (jDenominator c (s.pair ra)))).advance
  | .jinvP24 rd ra =>
    ((s.setReg rd (jinv c (acOfP24 c (s.pair ra)))).noteInversion (f2norm c (jDenominator c (acOfP24 c (s.pair ra))))).advance
  | .jinvM24 rd ra =>
    ((s.setReg rd (jinv c (acOfM24 c (s.pair ra)))).noteInversion (f2norm c (jDenominator c (acOfM24 c (s.pair ra))))).advance
  | .geta rd ra rb rc =>
    ((s.setReg rd (getA c (s.reg ra) (s.reg rb) (s.reg rc))).noteInversion
      (f2norm c (getADenominator c (s.reg ra) (s.reg rb) (s.reg rc)))).advance

/-! ## The checks, as one choice each -/

theorem needHalves_bind {α : Type} (s : State) (hs : List (FIdx × Half)) (g : Unit → Except Trap α) :
    (needHalves s hs >>= g) =
      match (unreadable s hs).min? with
      | none => g ()
      | some code => .error (.uninitRegister code) := by
  simp only [needHalves]
  split <;> simp_all [bind, Except.bind]

theorem needRegs_bind {α : Type} (s : State) (ks : List FIdx) (g : Unit → Except Trap α) :
    (needRegs s ks >>= g) =
      match (unreadable s (bothHalves ks)).min? with
      | none => g ()
      | some code => .error (.uninitRegister code) := needHalves_bind s _ g

theorem needSel_bind {α : Type} (s : State) (g : Unit → Except Trap α) :
    (needSel s >>= g) = if s.vsel then g () else .error (.uninitRegister 0x200) := by
  simp only [needSel]
  split <;> rfl

theorem needCounter_bind {α : Type} (s : State) (cr : CIdx) (g : Unit → Except Trap α) :
    (needCounter s cr >>= g) = if (s.counter cr).valid then g () else .error (.uninitRegister (0x100 + cr.val)) := by
  simp only [needCounter]
  split <;> rfl

theorem checkOperands_bind {α : Type} (i : Instr) (g : Unit → Except Trap α) :
    (checkOperands i >>= g) = if i.wellFormed then g () else .error (.illegalOperand (encode i)) := by
  simp only [checkOperands]
  split <;> rfl

@[simp] theorem pure_eq_ok {α : Type} (a : α) : (pure a : Except Trap α) = .ok a := rfl

@[simp] theorem ok_bind {α β : Type} (a : α) (g : α → Except Trap β) : (Except.ok a >>= g) = g a := rfl

@[simp] theorem error_bind {α β : Type} (e : Trap) (g : α → Except Trap β) :
    ((Except.error e : Except Trap α) >>= g) = .error e := rfl

theorem bytesAt_take (s : State) (a n : Nat) : (s.bytesAt a (2 * n)).take n = s.bytesAt a n := by
  simp only [State.bytesAt, ← List.map_take, List.take_range]
  congr 2; omega

theorem bytesAt_drop (s : State) (a n : Nat) : (s.bytesAt a (2 * n)).drop n = s.bytesAt (a + n) n := by
  refine List.ext_getElem (by simp; omega) fun i h1 h2 => ?_
  simp [State.bytesAt, Nat.add_assoc]

/-- Loading two elements: what `elementTrap` names, else the two numbers. -/
theorem loadElement_eq (c : Config) (s : State) (a n : Nat) :
    loadElement c s a n =
      if c.dmemBytes < a + 2 * n then .error (.dmemAccessFault a)
      else match elementTrap c s a n with
        | some e => .error e
        | none => .ok { a := s.numberAt a n, b := s.numberAt (a + n) n } := by
  simp only [loadElement, memRead_eq, elementTrap, checkElement, State.numberAt]
  by_cases h : a + 2 * n ≤ c.dmemBytes
  · rw [if_pos h, if_neg (Nat.not_lt.2 h)]
    simp only [ok_bind, bytesAt_take, bytesAt_drop]
    by_cases h1 : c.p ≤ le (s.bytesAt a n)
    · simp [h1]
    · by_cases h2 : c.p ≤ le (s.bytesAt (a + n) n)
      · simp [h1, h2]
      · simp [h1, h2]
  · rw [if_neg h, if_pos (Nat.lt_of_not_le h)]
    rfl

@[simp] theorem unreadable_nil (s : State) : unreadable s [] = [] := rfl

/-- What an instruction of no operand check and field sources alone answers. -/
theorem attempt_needHalves {i : Instr} {c : Config} {s t : State} (hw : i.wellFormed = true) (hsel : i.readsSel = false)
    (hc : i.sourceCounter = none) (ha : i.access c = none) (hd : dataTrap c i s = none)
    {m : Except Trap State} (hm : m = needHalves s i.sourceHalves >>= fun _ => .ok t) :
    attempt s m = .next (match raises c i s with | some e => takeTrap e s | none => t) := by
  simp only [hm, needHalves_bind, raises, hw, if_true, unreadableSource, rangeTrap, accessRange, ha, hd, hsel, hc]
  cases (unreadable s i.sourceHalves).min? <;> rfl

/-- What an instruction with an operand check and field sources alone answers. -/
theorem attempt_checked {i : Instr} {c : Config} {s t : State} (hsel : i.readsSel = false)
    (hc : i.sourceCounter = none) (ha : i.access c = none) (hd : dataTrap c i s = none)
    {m : Except Trap State} (hm : m = checkOperands i >>= fun _ => needHalves s i.sourceHalves >>= fun _ => .ok t) :
    attempt s m = .next (match raises c i s with | some e => takeTrap e s | none => t) := by
  simp only [hm, checkOperands_bind, needHalves_bind, raises, unreadableSource, rangeTrap, accessRange, ha, hd, hsel, hc]
  cases i.wellFormed
  · rfl
  · cases (unreadable s i.sourceHalves).min? <;> rfl

/-- What a store answers. -/
theorem performStore_eq {i : Instr} {c : Config} {s : State} (hw : i.wellFormed = true) {cr : CIdx} {imm : BitVec 16} {n : Nat}
    {bs : List Byte} (ha : i.access c = some (cr, imm, n)) (hd : dataTrap c i s = none)
    (hn : bs.length = n)
    {m : Except Trap (Nat × List Byte)}
    (hm : m = match unreadableSource i s with
      | some code => .error (.uninitRegister code)
      | none => .ok (s.address cr imm, bs)) :
    performStore c s m = .next
      (match raises c i s with | some e => takeTrap e s | none => (s.storeBytes (s.address cr imm) bs).advance) := by
  subst hm hn
  simp only [performStore, raises, hw, if_true, rangeTrap, accessRange, ha, hd, memWrite_eq, Option.map_some]
  cases unreadableSource i s with
  | some code => rfl
  | none =>
    by_cases h : s.address cr imm + bs.length ≤ c.dmemBytes
    · simp [h, Nat.not_lt.2 h, State.storeBytes]
    · simp [h, Nat.lt_of_not_le h]

/-- What an instruction answers: the exception `raises` names, else its effect. -/
theorem execIn_eq (c : Config) (i : Instr) (s : State) :
    execIn c i s = .next (match raises c i s with | some e => takeTrap e s | none => effect c i s) := by
  cases i with
  | nop => rfl
  | halt => rfl
  | ldi cr imm => rfl
  | jmp imm => rfl
  | addi cr imm =>
    simp only [execIn, runAddi, needCounter_bind, raises, unreadableSource, Instr.wellFormed, Instr.sourceHalves,
      Instr.readsSel, Instr.sourceCounter, rangeTrap, accessRange, Instr.access, dataTrap, effect]
    cases h : (s.counter cr).valid <;> simp
  | djnz cr imm =>
    simp only [execIn, runDjnz, needCounter_bind, raises, unreadableSource, Instr.wellFormed, Instr.sourceHalves,
      Instr.readsSel, Instr.sourceCounter, rangeTrap, accessRange, Instr.access, dataTrap, effect]
    cases h : (s.counter cr).valid <;> simp
  | ldf rd cr imm =>
    simp only [execIn, runLdf, needCounter_bind, loadElement_eq, raises, unreadableSource, Instr.wellFormed,
      Instr.sourceHalves, Instr.readsSel, Instr.sourceCounter, rangeTrap, accessRange, Instr.access, dataTrap, effect]
    cases h : (s.counter cr).valid
    · simp
    · by_cases hr : c.dmemBytes < s.address cr imm + 2 * c.nBytes
      · simp [hr]
      · cases he : elementTrap c s (s.address cr imm) c.nBytes <;> simp [hr]
  | ldfm rd cr imm =>
    simp only [execIn, runLdfm, needCounter_bind, loadElement_eq, raises, unreadableSource, Instr.wellFormed,
      Instr.sourceHalves, Instr.readsSel, Instr.sourceCounter, rangeTrap, accessRange, Instr.access, dataTrap, effect]
    cases h : (s.counter cr).valid
    · simp
    · by_cases hr : c.dmemBytes < s.address cr imm + 2 * c.mBytes
      · simp [hr]
      · cases he : elementTrap c s (s.address cr imm) c.mBytes <;> simp [hr]
  | selld cr imm =>
    simp only [execIn, runSelld, needCounter_bind, memRead_eq, raises, unreadableSource, Instr.wellFormed,
      Instr.sourceHalves, Instr.readsSel, Instr.sourceCounter, rangeTrap, accessRange, Instr.access, dataTrap, effect]
    cases h : (s.counter cr).valid
    · simp
    · by_cases hr : s.address cr imm + c.wordBytes ≤ c.dmemBytes
      · cases hv : selectorOfBytes (s.bytesAt (s.address cr imm) c.wordBytes) <;>
          simp [hr, Nat.not_lt.2 hr, hv, throw, throwThe, MonadExceptOf.throw]
      · simp [hr, Nat.lt_of_not_le hr]
  | stf rd cr imm =>
    refine performStore_eq rfl rfl rfl (by simp [canonicalBytes]; omega) ?_
    simp only [stfStore, needRegs_bind, needCounter_bind, unreadableSource, Instr.sourceHalves, Instr.readsSel, Instr.sourceCounter]
    cases (unreadable s (bothHalves [rd])).min? <;> cases (s.counter cr).valid <;> rfl
  | stfm rd cr imm =>
    refine performStore_eq rfl rfl rfl (by simp [rawBytes]; omega) ?_
    simp only [stfmStore, needRegs_bind, needCounter_bind, unreadableSource, Instr.sourceHalves, Instr.readsSel, Instr.sourceCounter]
    cases (unreadable s (bothHalves [rd])).min? <;> cases (s.counter cr).valid <;> rfl
  | selst cr imm =>
    refine performStore_eq rfl rfl rfl (by simp [selectorBytes]) ?_
    simp only [selstStore, needSel_bind, needCounter_bind, unreadableSource, Instr.sourceHalves, Instr.readsSel, Instr.sourceCounter]
    cases s.vsel <;> cases (s.counter cr).valid <;> rfl
  | fpinv rd hd ra ha =>
    refine attempt_needHalves rfl rfl rfl rfl rfl ?_
    simp only [fpUnary, needHalves_bind, Instr.sourceHalves]
    cases (unreadable s [(ra, ha)]).min? <;> rfl
  | f2inv rd ra =>
    refine attempt_needHalves rfl rfl rfl rfl rfl ?_
    simp only [f2Unary, needRegs_bind, needHalves_bind, Instr.sourceHalves]
    cases (unreadable s (bothHalves [ra])).min? <;> rfl
  | f2cmov rd ra =>
    simp only [execIn, runF2cmov, needRegs_bind, needSel_bind, raises, unreadableSource, Instr.wellFormed,
      Instr.sourceHalves, Instr.readsSel, Instr.sourceCounter, rangeTrap, accessRange, Instr.access, dataTrap, effect]
    cases (unreadable s (bothHalves [rd, ra])).min? <;> cases s.vsel <;> rfl
  | f2invn rd ra n =>
    simp only [execIn, runF2invn, checkOperands_bind, needRegs_bind, raises, unreadableSource,
      Instr.sourceHalves, Instr.readsSel, Instr.sourceCounter, rangeTrap, accessRange, Instr.access, dataTrap, effect]
    cases hw : (Instr.f2invn rd ra n).wellFormed
    · rfl
    · cases (unreadable s (bothHalves (vectorRegs ra n.toNat))).min? with
      | some code => rfl
      | none =>
        have hn : 1 ≤ n.toNat := by simp [Instr.wellFormed] at hw; omega
        obtain ⟨m, hm⟩ : ∃ m, n.toNat = m + 1 := ⟨n.toNat - 1, by omega⟩
        simp [State.vector, hm, vectorRegs]
  | f2inv3 rd ra rb => exact attempt_checked rfl rfl rfl rfl rfl
  | xdbl rd ra rb => exact attempt_checked rfl rfl rfl rfl rfl
  | xdble rd ra rb e => exact attempt_checked rfl rfl rfl rfl rfl
  | xtpl rd ra rb => exact attempt_checked rfl rfl rfl rfl rfl
  | xtple rd ra rb e => exact attempt_checked rfl rfl rfl rfl rfl
  | xadd rd ra rb rc => exact attempt_checked rfl rfl rfl rfl rfl
  | xdbladd rd ra rb rc => exact attempt_checked rfl rfl rfl rfl rfl
  | get4iso rd ra rc => exact attempt_checked rfl rfl rfl rfl rfl
  | eval4iso rd ra rb => exact attempt_checked rfl rfl rfl rfl rfl
  | get3iso rd ra rc => exact attempt_checked rfl rfl rfl rfl rfl
  | eval3iso rd ra rb => exact attempt_checked rfl rfl rfl rfl rfl
  | jinvAc rd ra => exact attempt_checked rfl rfl rfl rfl rfl
  | jinvP24 rd ra => exact attempt_checked rfl rfl rfl rfl rfl
  | jinvM24 rd ra => exact attempt_checked rfl rfl rfl rfl rfl
  | _ => exact attempt_needHalves rfl rfl rfl rfl rfl rfl

/-- What `exec` answers. -/
theorem exec_eq (i : Instr) (s : State) :
    exec i s = .next (match raises Config.core i s with | some e => takeTrap e s | none => effect Config.core i s) := by
  rw [exec_eq_execIn, execIn_eq]

theorem exec_of_raises {i : Instr} {s : State} {e : Trap} (h : raises Config.core i s = some e) :
    exec i s = .next (takeTrap e s) := by rw [exec_eq, h]

theorem exec_of_none {i : Instr} {s : State} (h : raises Config.core i s = none) :
    exec i s = .next (effect Config.core i s) := by rw [exec_eq, h]

/-- What a step does in RUNNING (R71, R116, R394). -/
theorem step_of_running {s : State} (h : s.run = .running) :
    step s = if Config.core.imemWords ≤ s.pc then .next (takeTrap (.fetchFault s.pc) s)
      else match decode (s.wordAt s.pc) with
        | none => .next (takeTrap (.illegalInstruction (s.wordAt s.pc)) s)
        | some i => exec i s := by
  simp only [step, sequencerStep, h, fetch]
  by_cases hp : Config.core.imemWords ≤ s.pc
  · simp [hp]
  · cases hd : decode (s.wordAt s.pc) <;> simp [hp, hd]

end Sys2Proof.Machine
end

