-- ==== Sys2Proof/Laws/Frame.lean ====
section
/-!
SUPPORT. Laws/Frame.lean: what the effect of an instruction leaves as it was, where it sends `PC`, and what it does to
`STATE` and `INVZ`: one case analysis each.
-/
namespace Sys2Proof.Machine

/-! ## Stored bytes -/

section storeBytes
variable (s : State) (a : Nat) (bs : List Byte)
@[simp] theorem storeBytes_f : (s.storeBytes a bs).f = s.f := rfl
@[simp] theorem storeBytes_c : (s.storeBytes a bs).c = s.c := rfl
@[simp] theorem storeBytes_sel : (s.storeBytes a bs).sel = s.sel := rfl
@[simp] theorem storeBytes_vsel : (s.storeBytes a bs).vsel = s.vsel := rfl
@[simp] theorem storeBytes_pc : (s.storeBytes a bs).pc = s.pc := rfl
@[simp] theorem storeBytes_run : (s.storeBytes a bs).run = s.run := rfl
@[simp] theorem storeBytes_invz : (s.storeBytes a bs).invz = s.invz := rfl
@[simp] theorem storeBytes_cause : (s.storeBytes a bs).cause = s.cause := rfl
@[simp] theorem storeBytes_epc : (s.storeBytes a bs).epc = s.epc := rfl
@[simp] theorem storeBytes_finfo : (s.storeBytes a bs).finfo = s.finfo := rfl
@[simp] theorem storeBytes_entry : (s.storeBytes a bs).entry = s.entry := rfl
@[simp] theorem storeBytes_imem : (s.storeBytes a bs).imem = s.imem := rfl
@[simp] theorem half_storeBytes (j : FIdx) (x : Half) : (s.storeBytes a bs).half j x = s.half j x := rfl
@[simp] theorem counter_storeBytes (d : CIdx) : (s.storeBytes a bs).counter d = s.counter d := rfl
@[simp] theorem wordAt_storeBytes (i : Nat) : (s.storeBytes a bs).wordAt i = s.wordAt i := rfl
@[simp] theorem address_storeBytes (cr : CIdx) (imm : BitVec 16) : (s.storeBytes a bs).address cr imm = s.address cr imm := rfl
end storeBytes

/-- A byte after a store: the stored byte inside the range, the old one outside (R74). -/
theorem byteAt_storeBytes (s : State) (a : Nat) (bs : List Byte) (x : Nat) :
    (s.storeBytes a bs).byteAt x = if h : a ≤ x ∧ x - a < bs.length then bs[x - a]'h.2 else s.byteAt x :=
  byteAt_writeBytes s.dmem a bs x

/-- The bytes read back where bytes were stored are those bytes (R85). -/
theorem bytesAt_storeBytes (s : State) (a : Nat) (bs : List Byte) : (s.storeBytes a bs).bytesAt a bs.length = bs :=
  bytesAt_writeBytes s a bs

/-! ## What an effect leaves as it was -/

theorem length_invNFrom (c : Config) (acc : Fp2) (vs : List Fp2) : (invNFrom c acc vs).1.length = vs.length := by
  induction vs generalizing acc with
  | nil => rfl
  | cons v vs ih => simp [invNFrom, ih]

@[simp] theorem length_invN (c : Config) (v : Fp2) (vs : List Fp2) : (invN c v vs).length = vs.length + 1 := by
  simp [invN, length_invNFrom]

@[simp] theorem length_vectorRegs (k : FIdx) (n : Nat) : (vectorRegs k n).length = n := by
  induction n generalizing k with
  | zero => rfl
  | succ n ih => simp [vectorRegs, ih]

@[simp] theorem length_vector (s : State) (k : FIdx) (n : Nat) : (s.vector k n).length = n := by simp [State.vector]

@[simp] theorem mem_bothHalves (ks : List FIdx) (k : FIdx) (h : Half) : (k, h) ∈ bothHalves ks ↔ k ∈ ks := by
  cases h <;> simp [bothHalves]

@[simp] theorem length_canonicalBytes (c : Config) (x : Fp2) : (canonicalBytes c x).length = 2 * c.nBytes := by
  simp [canonicalBytes]; omega

@[simp] theorem length_rawBytes (c : Config) (x : Fp2) : (rawBytes c x).length = 2 * c.mBytes := by
  simp [rawBytes]; omega

@[simp] theorem length_selectorBytes (c : Config) (v : Selector) : (selectorBytes c v).length = c.wordBytes := by
  simp [selectorBytes]

theorem byteAt_storeBytes_outside {s : State} {a : Nat} {bs : List Byte} {x : Nat} (h : x < a ∨ a + bs.length ≤ x) :
    (s.storeBytes a bs).byteAt x = s.byteAt x := by
  rw [byteAt_storeBytes, dif_neg (by omega)]

/-- An instruction writes at most what the tables of Safety.lean list for it. -/
theorem effect_frame (c : Config) (i : Instr) (s : State) : Frame (instrWrites c i s) s (effect c i s) := by
  cases i with
  | f2invn rd ra n =>
    simp only [effect]
    cases hv : s.vector ra n.toNat with
    | nil => exact ⟨fun _ _ _ => rfl, fun _ _ => rfl, fun _ => ⟨rfl, rfl⟩, fun _ => rfl, rfl, rfl, rfl, rfl, fun _ => rfl, fun _ _ => rfl⟩
    | cons v vs =>
      have hl : vs.length + 1 = n.toNat := by rw [← List.length_cons (a := v), ← hv, length_vector]
      refine ⟨?_, ?_, ?_, ?_, ?_, ?_, ?_, ?_, ?_, ?_⟩ <;> simp [instrWrites, Instr.destHalves, Instr.inverts]
      intro k h hk
      rw [half_setVector _ _ _ _ _ (by simpa [hl] using hk)]
  | djnz cr imm =>
    simp only [effect]
    split <;> refine ⟨?_, ?_, ?_, ?_, ?_, ?_, ?_, ?_, ?_, ?_⟩ <;>
      simp +contextual [instrWrites, Instr.destCounters, counter_setCounter]
  | halt => exact ⟨fun _ _ _ => rfl, fun _ _ => rfl, fun _ => ⟨rfl, rfl⟩, fun _ => rfl, rfl, rfl, rfl, rfl, fun _ => rfl, fun _ _ => rfl⟩
  | stf rd cr imm =>
    refine ⟨?_, ?_, ?_, ?_, ?_, ?_, ?_, ?_, ?_, ?_⟩ <;> simp [effect]
    intro a ha
    exact byteAt_storeBytes_outside (by simpa [Writes.outside, instrWrites, Instr.stores, accessRange, Instr.access] using ha)
  | stfm rd cr imm =>
    refine ⟨?_, ?_, ?_, ?_, ?_, ?_, ?_, ?_, ?_, ?_⟩ <;> simp [effect]
    intro a ha
    exact byteAt_storeBytes_outside (by simpa [Writes.outside, instrWrites, Instr.stores, accessRange, Instr.access] using ha)
  | selst cr imm =>
    refine ⟨?_, ?_, ?_, ?_, ?_, ?_, ?_, ?_, ?_, ?_⟩ <;> simp [effect]
    intro a ha
    exact byteAt_storeBytes_outside (by simpa [Writes.outside, instrWrites, Instr.stores, accessRange, Instr.access] using ha)
  | _ =>
    refine ⟨?_, ?_, ?_, ?_, ?_, ?_, ?_, ?_, ?_, ?_⟩ <;>
      simp +contextual [effect, instrWrites, Instr.destHalves, Instr.destCounters, Instr.writesSel, Instr.inverts,
        counter_setCounter, half_setHalf, half_setReg, half_setPair, half_setTriple]

/-- `STATE` changes by `HALT` alone (R395). -/
theorem effect_run (c : Config) (i : Instr) (s : State) :
    (effect c i s).run = if i = .halt then .done else s.run := by
  cases i with
  | f2invn rd ra n => simp only [effect]; cases s.vector ra n.toNat <;> simp
  | djnz cr imm => simp only [effect]; split <;> simp
  | _ => simp [effect]

/-- `INVZ` is sticky (R45). -/
theorem effect_invz {c : Config} {i : Instr} {s : State} (h : s.invz = true) : (effect c i s).invz = true := by
  cases i with
  | f2invn rd ra n => simp only [effect]; cases s.vector ra n.toNat <;> simp [h]
  | djnz cr imm => simp only [effect]; split <;> simp [h]
  | _ => simp [effect, h]

/-- A vector operand that passes its check is not empty. -/
theorem vector_ne_nil {rd ra : FIdx} {n : BitVec 11} (s : State) (h : (Instr.f2invn rd ra n).wellFormed = true) :
    ∃ v vs, s.vector ra n.toNat = v :: vs := by
  have hn : 1 ≤ n.toNat := by simp [Instr.wellFormed] at h; omega
  obtain ⟨m, hm⟩ : ∃ m, n.toNat = m + 1 := ⟨n.toNat - 1, by omega⟩
  exact ⟨s.reg ra, s.vector (nextReg ra) m, by simp [State.vector, hm, vectorRegs]⟩

/-- An instruction that raises nothing is well-formed. -/
theorem wellFormed_of_none {c : Config} {i : Instr} {s : State} (h : raises c i s = none) : i.wellFormed = true := by
  simp only [raises] at h
  split at h
  · assumption
  · cases h

/-- Where `PC` goes (R41). -/
def pcAfter (i : Instr) (s : State) : Nat :=
  match i with
  | .halt => s.pc
  | .jmp imm => imm.toNat
  | .djnz cr imm => if djnzValue s cr ≠ 0 then imm.toNat else s.pc + 1
  | _ => s.pc + 1

/-- An effect sends `PC` where R41 says. -/
theorem effect_pc {c : Config} {i : Instr} {s : State} (h : i.wellFormed = true) : (effect c i s).pc = pcAfter i s := by
  cases i with
  | f2invn rd ra n =>
    obtain ⟨v, vs, hv⟩ := vector_ne_nil s h
    simp [effect, pcAfter, hv]
  | djnz cr imm => simp only [effect, pcAfter]; split <;> simp
  | _ => simp [effect, pcAfter]

/-! ## When an instruction raises nothing, and what it then leaves -/

theorem unreadableSource_eq_none {i : Instr} {s : State} (h1 : ∀ x ∈ i.sourceHalves, (s.half x.1 x.2).valid = true)
    (h2 : i.readsSel = true → s.vsel = true) (h3 : ∀ cr, i.sourceCounter = some cr → (s.counter cr).valid = true) :
    unreadableSource i s = none := by
  simp only [unreadableSource, (unreadable_eq_nil s _).2 h1, List.min?_nil]
  cases hs : i.readsSel <;> cases hc : i.sourceCounter <;> simp_all

theorem raises_eq_none {c : Config} {i : Instr} {s : State} (hw : i.wellFormed = true)
    (h1 : ∀ x ∈ i.sourceHalves, (s.half x.1 x.2).valid = true) (h2 : i.readsSel = true → s.vsel = true)
    (h3 : ∀ cr, i.sourceCounter = some cr → (s.counter cr).valid = true) (h4 : rangeTrap c i s = none)
    (h5 : dataTrap c i s = none) : raises c i s = none := by
  simp [raises, hw, unreadableSource_eq_none h1 h2 h3, h4, h5]

/-- The instructions that read field registers alone. -/
theorem raises_eq_none_of_halves {c : Config} {i : Instr} {s : State} (hw : i.wellFormed = true)
    (h1 : ∀ x ∈ i.sourceHalves, (s.half x.1 x.2).valid = true) (h2 : i.readsSel = false) (h3 : i.sourceCounter = none)
    (h4 : i.access c = none) (h5 : dataTrap c i s = none) : raises c i s = none :=
  raises_eq_none hw h1 (by simp [h2]) (by simp [h3]) (by simp [rangeTrap, accessRange, h4]) h5

theorem frame_of_writes {c : Config} {i : Instr} {s : State} {w : Writes} (h : instrWrites c i s = w) :
    Frame w s (effect c i s) := h ▸ effect_frame c i s

theorem completes_of_writes {c : Config} {i : Instr} {s : State} {w : Writes} (hn : raises c i s = none)
    (h : instrWrites c i s = w) (hp : pcAfter i s = s.pc + 1) (hi : i ≠ .halt) : Completes w s (effect c i s) :=
  ⟨frame_of_writes h, by rw [effect_pc (wellFormed_of_none hn), hp], by rw [effect_run, if_neg hi]⟩

/-! ## Held values -/

theorem valid_of_regHolds {s : State} {k : FIdx} {v : Fp2} (h : s.regHolds k v) (x : Half) :
    (s.half k x).valid = true := by
  cases x
  · exact h.1.1
  · exact h.2.1

theorem reg_of_regHolds {s : State} {k : FIdx} {v : Fp2} (h : s.regHolds k v) : s.reg k = v := by
  simp [State.reg, h.1.2, h.2.2]

theorem pair_of_pairHolds {s : State} {k : FIdx} {v : Pair} (h : s.pairHolds k v) : s.pair k = v := by
  simp [State.pair, reg_of_regHolds h.1, reg_of_regHolds h.2]

theorem triple_of_tripleHolds {s : State} {k : FIdx} {v : Triple} (h : s.tripleHolds k v) : s.triple k = v := by
  simp [State.triple, reg_of_regHolds h.1, reg_of_regHolds h.2.1, reg_of_regHolds h.2.2]

theorem regHolds_setReg (s : State) (k : FIdx) (v : Fp2) (j : FIdx) (u : Fp2) :
    (s.setReg k v).regHolds j u ↔ if j = k then v = u else s.regHolds j u := by
  by_cases h : j = k
  · obtain ⟨a, b⟩ := v
    obtain ⟨a', b'⟩ := u
    simp [State.regHolds, HalfReg.holds, half_setReg, h]
  · simp [State.regHolds, half_setReg, h]

/-- What a register holds depends on the halves alone. -/
theorem regHolds_congr {s t : State} {k : FIdx} (h : ∀ x, t.half k x = s.half k x) (v : Fp2) :
    t.regHolds k v ↔ s.regHolds k v := by simp [State.regHolds, h]

@[simp] theorem regHolds_advance (s : State) (k : FIdx) (v : Fp2) : s.advance.regHolds k v ↔ s.regHolds k v := Iff.rfl

@[simp] theorem regHolds_noteInversion (s : State) (n : Nat) (k : FIdx) (v : Fp2) :
    (s.noteInversion n).regHolds k v ↔ s.regHolds k v := Iff.rfl

@[simp] theorem pairHolds_advance (s : State) (k : FIdx) (v : Pair) : s.advance.pairHolds k v ↔ s.pairHolds k v :=
  Iff.rfl

theorem pairHolds_setPair_self (s : State) (k : FIdx) (v : Pair) : (s.setPair k v).pairHolds k v := by
  simp [State.pairHolds, State.setPair, regHolds_setReg, (nextReg_ne k).symm]

/-- A pair keeps what it holds when another pair that shares no register with it is written. -/
theorem pairHolds_setPair_of_disjoint {s : State} {j k : FIdx} {u v : Pair} (h1 : j ≠ k) (h2 : j ≠ nextReg k)
    (h3 : nextReg j ≠ k) (h : s.pairHolds j u) : (s.setPair k v).pairHolds j u := by
  have h4 : nextReg j ≠ nextReg k := fun e => h1 (add_right_cancel e)
  simp only [State.pairHolds, State.setPair, regHolds_setReg, h1, h2, h3, h4, if_false]
  exact h

@[simp] theorem tripleHolds_advance (s : State) (k : FIdx) (v : Triple) :
    s.advance.tripleHolds k v ↔ s.tripleHolds k v := Iff.rfl

theorem tripleHolds_setTriple_self (s : State) (k : FIdx) (v : Triple) : (s.setTriple k v).tripleHolds k v := by
  have a1 : k ≠ nextReg k := (nextReg_ne k).symm
  have a2 : k ≠ nextReg (nextReg k) := by revert k; decide
  have a3 : nextReg k ≠ nextReg (nextReg k) := (nextReg_ne _).symm
  simp [State.tripleHolds, State.setTriple, regHolds_setReg, a1, a2, a3]

theorem valid_of_pairHolds {s : State} {k : FIdx} {v : Pair} (h : s.pairHolds k v) :
    ∀ j ∈ pairRegs k, ∀ x, (s.half j x).valid = true := by
  intro j hj x
  simp only [pairRegs, List.mem_cons, List.not_mem_nil, or_false] at hj
  rcases hj with rfl | rfl
  · exact valid_of_regHolds h.1 x
  · exact valid_of_regHolds h.2 x

/-- A pair operand that passes its check does not wrap (R33, R114). -/
theorem nextReg_val {k : FIdx} (h : k ≠ 31) : (nextReg k).val = k.val + 1 := by revert k; decide

theorem pairOk_of_ne {k : FIdx} (h : k ≠ 31) : pairOk k = true := by revert k; decide

/-- A half keeps what was written to it when `PC` moves on. -/
theorem holds_setHalf (s : State) (k : FIdx) (h : Half) (v : Nat) : ((s.setHalf k h v).advance.half k h).holds v := by
  simp [HalfReg.holds, half_setHalf]

/-! ## Vectors (R33, R242) -/

/-- The registers of a vector that does not run past F[31]. -/
theorem getElem_vectorRegs {k : FIdx} {n : Nat} (h : k.val + n ≤ 32) {j : Nat} (hj : j < n)
    (hl : j < (vectorRegs k n).length) : ((vectorRegs k n)[j]).val = k.val + j := by
  induction n generalizing k j with
  | zero => omega
  | succ n ih =>
    cases j with
    | zero => rfl
    | succ j =>
      have h1 := nextReg_val (k := k) (by rintro rfl; simp at h; omega)
      simp only [vectorRegs, List.getElem_cons_succ]
      rw [ih (by omega) (by omega) (by simp; omega)]
      omega

theorem mem_vectorRegs {k : FIdx} {n : Nat} (h : k.val + n ≤ 32) {j : FIdx} :
    j ∈ vectorRegs k n ↔ k.val ≤ j.val ∧ j.val < k.val + n := by
  constructor
  · intro hj
    obtain ⟨i, hi, rfl⟩ := List.getElem_of_mem hj
    rw [getElem_vectorRegs h (by simpa using hi)]
    simp at hi
    omega
  · intro hj
    have hl : j.val - k.val < (vectorRegs k n).length := by simp; omega
    have h1 := getElem_vectorRegs h (j := j.val - k.val) (by omega) hl
    have h2 : (vectorRegs k n)[j.val - k.val] = j := Fin.ext (by omega)
    rw [← h2]
    exact List.getElem_mem _

/-- What a vector of registers holds after it was written. -/
theorem regHolds_setVector (s : State) {k : FIdx} {vs : List Fp2} (h : k.val + vs.length ≤ 32) {j : Nat}
    (hj : j < vs.length) (hr : k.val + j < 32) : (s.setVector k vs).regHolds ⟨k.val + j, hr⟩ (vs[j]) := by
  induction vs generalizing s k j with
  | nil => simp at hj
  | cons v vs ih =>
    simp only [List.length_cons] at h hj
    cases j with
    | zero =>
      have h1 : ∀ x, ((s.setReg k v).setVector (nextReg k) vs).half k x = (s.setReg k v).half k x := by
        intro x
        apply half_setVector
        rcases Nat.eq_zero_or_pos vs.length with h0 | h0
        · simp [h0, vectorRegs]
        · have := nextReg_val (k := k) (by rintro rfl; simp at h; omega)
          rw [mem_vectorRegs (by omega)]
          omega
      exact (regHolds_congr h1 v).2 ((regHolds_setReg _ _ _ _ _).2 (by simp))
    | succ j =>
      have h1 := nextReg_val (k := k) (by rintro rfl; simp at h; omega)
      have h2 : (⟨k.val + (j + 1), hr⟩ : FIdx) = ⟨(nextReg k).val + j, by omega⟩ := Fin.ext (by simp only; omega)
      simp only [State.setVector, List.getElem_cons_succ]
      rw [h2]
      exact ih (s.setReg k v) (by omega) (by omega) (by omega)

/-! ## The memories -/

/-- No instruction writes IMEM (R70, R360). -/
theorem effect_imem (c : Config) (i : Instr) (s : State) : (effect c i s).imem = s.imem := by
  cases i with
  | djnz => simp only [effect]; split <;> rfl
  | f2invn => simp only [effect]; split <;> simp
  | _ => simp [effect]

/-- An instruction leaves DMEM as it is or writes bytes inside it (R74, R81). -/
theorem effect_dmem {c : Config} {i : Instr} {s : State} (hn : raises c i s = none) :
    (effect c i s).dmem = s.dmem
      ∨ ∃ a bs, a + bs.length ≤ c.dmemBytes ∧ (effect c i s).dmem = writeBytes s.dmem a bs := by
  have range : ∀ a n, accessRange c i s = some (a, n) → a + n ≤ c.dmemBytes := by
    intro a n h
    simp only [raises, rangeTrap, h] at hn
    split at hn
    · split at hn
      · cases hn
      · by_cases h1 : c.dmemBytes < a + n
        · simp [h1] at hn
        · omega
    · cases hn
  cases i with
  | djnz => simp only [effect]; split <;> exact .inl rfl
  | f2invn => simp only [effect]; split <;> (left; simp)
  | stf rd cr imm => exact .inr ⟨_, _, by simpa using range _ _ rfl, rfl⟩
  | stfm rd cr imm => exact .inr ⟨_, _, by simpa using range _ _ rfl, rfl⟩
  | selst cr imm => exact .inr ⟨_, _, by simpa using range _ _ rfl, rfl⟩
  | _ => left; simp [effect]

/-- Where a trap comes from. -/
theorem exec_next {i : Instr} {s t : State} (h : exec i s = .next t) :
    (∃ e, raises Config.core i s = some e ∧ t = takeTrap e s) ∨ raises Config.core i s = none ∧ t = effect Config.core i s := by
  rw [exec_eq] at h
  cases hr : raises Config.core i s with
  | some e =>
    simp only [hr, Host.Outcome.next.injEq] at h
    exact .inl ⟨e, rfl, h.symm⟩
  | none =>
    simp only [hr, Host.Outcome.next.injEq] at h
    exact .inr ⟨rfl, h.symm⟩

end Sys2Proof.Machine
end

