-- ==== Sys2Proof/Laws/PerInstr.lean ====
section
/-!
SUPPORT. Laws/PerInstr.lean: statements about every instruction as syntax, one lemma per constructor.
-/
namespace Sys2Proof.Laws.EncodedRow

/-- The word an instruction encodes to matches the row of R110 that bears its mnemonic. -/
def Statement (i : Instr) : Prop := ∃ r ∈ opTable, r.mnemonic = i.mnemonic ∧ r.accepts (encode i) = true

theorem nop : Statement (.nop) := by
  refine ⟨⟨"NOP", 0x04000000#32, 0xFFFFFFFF#32⟩, by decide, rfl, (accepts_iff_fields [⟨31, 26, 0x1⟩, ⟨25, 0, 0⟩] (by decide) _).2 ?_⟩
  simp [encode, slice_encZ_op, slice_encZ_rest]

theorem halt : Statement (.halt) := by
  refine ⟨⟨"HALT", 0x08000000#32, 0xFFFFFFFF#32⟩, by decide, rfl, (accepts_iff_fields [⟨31, 26, 0x2⟩, ⟨25, 0, 0⟩] (by decide) _).2 ?_⟩
  simp [encode, slice_encZ_op, slice_encZ_rest]

theorem ldi (cr : CIdx) (imm : BitVec 16) : Statement (.ldi cr imm) := by
  refine ⟨⟨"LDI", 0x0C000000#32, 0xFC7F0000#32⟩, by decide, rfl, (accepts_iff_fields [⟨31, 26, 0x3⟩, ⟨22, 16, 0⟩] (by decide) _).2 ?_⟩
  simp [encode, slice_encCI_op, slice_encCI_zero]

theorem addi (cr : CIdx) (imm : BitVec 16) : Statement (.addi cr imm) := by
  refine ⟨⟨"ADDI", 0x10000000#32, 0xFC7F0000#32⟩, by decide, rfl, (accepts_iff_fields [⟨31, 26, 0x4⟩, ⟨22, 16, 0⟩] (by decide) _).2 ?_⟩
  simp [encode, slice_encCI_op, slice_encCI_zero]

theorem jmp (imm : BitVec 16) : Statement (.jmp imm) := by
  refine ⟨⟨"JMP", 0x14000000#32, 0xFFFF0000#32⟩, by decide, rfl, (accepts_iff_fields [⟨31, 26, 0x5⟩, ⟨25, 16, 0⟩] (by decide) _).2 ?_⟩
  simp [encode, slice_encJ_op, slice_encJ_zero]

theorem djnz (cr : CIdx) (imm : BitVec 16) : Statement (.djnz cr imm) := by
  refine ⟨⟨"DJNZ", 0x18000000#32, 0xFC7F0000#32⟩, by decide, rfl, (accepts_iff_fields [⟨31, 26, 0x6⟩, ⟨22, 16, 0⟩] (by decide) _).2 ?_⟩
  simp [encode, slice_encCI_op, slice_encCI_zero]

theorem ldf (rd : FIdx) (cr : CIdx) (imm : BitVec 16) : Statement (.ldf rd cr imm) := by
  refine ⟨⟨"LDF", 0x20000000#32, 0xFC030000#32⟩, by decide, rfl, (accepts_iff_fields [⟨31, 26, 0x8⟩, ⟨17, 16, 0⟩] (by decide) _).2 ?_⟩
  simp [encode, slice_encM_op, slice_encM_zero]

theorem stf (rd : FIdx) (cr : CIdx) (imm : BitVec 16) : Statement (.stf rd cr imm) := by
  refine ⟨⟨"STF", 0x24000000#32, 0xFC030000#32⟩, by decide, rfl, (accepts_iff_fields [⟨31, 26, 0x9⟩, ⟨17, 16, 0⟩] (by decide) _).2 ?_⟩
  simp [encode, slice_encM_op, slice_encM_zero]

theorem ldfm (rd : FIdx) (cr : CIdx) (imm : BitVec 16) : Statement (.ldfm rd cr imm) := by
  refine ⟨⟨"LDFM", 0x28000000#32, 0xFC030000#32⟩, by decide, rfl, (accepts_iff_fields [⟨31, 26, 0xa⟩, ⟨17, 16, 0⟩] (by decide) _).2 ?_⟩
  simp [encode, slice_encM_op, slice_encM_zero]

theorem stfm (rd : FIdx) (cr : CIdx) (imm : BitVec 16) : Statement (.stfm rd cr imm) := by
  refine ⟨⟨"STFM", 0x2C000000#32, 0xFC030000#32⟩, by decide, rfl, (accepts_iff_fields [⟨31, 26, 0xb⟩, ⟨17, 16, 0⟩] (by decide) _).2 ?_⟩
  simp [encode, slice_encM_op, slice_encM_zero]

theorem selld (cr : CIdx) (imm : BitVec 16) : Statement (.selld cr imm) := by
  refine ⟨⟨"SELLD", 0x30000000#32, 0xFFE30000#32⟩, by decide, rfl, (accepts_iff_fields [⟨31, 26, 0xc⟩, ⟨25, 21, 0⟩, ⟨17, 16, 0⟩] (by decide) _).2 ?_⟩
  simp [encode, slice_encM_op, slice_encM_zero, slice_encM_rd]

theorem selst (cr : CIdx) (imm : BitVec 16) : Statement (.selst cr imm) := by
  refine ⟨⟨"SELST", 0x34000000#32, 0xFFE30000#32⟩, by decide, rfl, (accepts_iff_fields [⟨31, 26, 0xd⟩, ⟨25, 21, 0⟩, ⟨17, 16, 0⟩] (by decide) _).2 ?_⟩
  simp [encode, slice_encM_op, slice_encM_zero, slice_encM_rd]

theorem fpadd (rd : FIdx) (hd : Half) (ra : FIdx) (ha : Half) (rb : FIdx) (hb : Half) : Statement (.fpadd rd hd ra ha rb hb) := by
  refine ⟨⟨"FPADD", 0x40000000#32, 0xFC0007F8#32⟩, by decide, rfl, (accepts_iff_fields [⟨31, 26, 0x10⟩, ⟨10, 3, 0⟩] (by decide) _).2 ?_⟩
  have h := halfFn_lt hd ha hb
  have hz : halfFn hd ha hb / 8 = 0 := (halfFn_bits hd ha hb).1
  simp (disch := omega) [encode, slice_encR_op, slice_encR_10_3, hz]

theorem fpsub (rd : FIdx) (hd : Half) (ra : FIdx) (ha : Half) (rb : FIdx) (hb : Half) : Statement (.fpsub rd hd ra ha rb hb) := by
  refine ⟨⟨"FPSUB", 0x44000000#32, 0xFC0007F8#32⟩, by decide, rfl, (accepts_iff_fields [⟨31, 26, 0x11⟩, ⟨10, 3, 0⟩] (by decide) _).2 ?_⟩
  have h := halfFn_lt hd ha hb
  have hz : halfFn hd ha hb / 8 = 0 := (halfFn_bits hd ha hb).1
  simp (disch := omega) [encode, slice_encR_op, slice_encR_10_3, hz]

theorem fpneg (rd : FIdx) (hd : Half) (ra : FIdx) (ha : Half) : Statement (.fpneg rd hd ra ha) := by
  refine ⟨⟨"FPNEG", 0x48000000#32, 0xFC00FFF9#32⟩, by decide, rfl, (accepts_iff_fields [⟨31, 26, 0x12⟩, ⟨15, 3, 0⟩, ⟨0, 0, 0⟩] (by decide) _).2 ?_⟩
  have h := halfFn_lt hd ha .a
  have hz : halfFn hd ha .a / 8 = 0 := (halfFn_bits hd ha .a).1
  have h0 : halfFn hd ha .a % 2 = 0 := (halfFn_bits hd ha .a).2.2.2
  simp (disch := omega) [encode, slice_encR_op, slice_encR_15_3, slice_encR_0, hz, h0]

theorem fpmul (rd : FIdx) (hd : Half) (ra : FIdx) (ha : Half) (rb : FIdx) (hb : Half) : Statement (.fpmul rd hd ra ha rb hb) := by
  refine ⟨⟨"FPMUL", 0x4C000000#32, 0xFC0007F8#32⟩, by decide, rfl, (accepts_iff_fields [⟨31, 26, 0x13⟩, ⟨10, 3, 0⟩] (by decide) _).2 ?_⟩
  have h := halfFn_lt hd ha hb
  have hz : halfFn hd ha hb / 8 = 0 := (halfFn_bits hd ha hb).1
  simp (disch := omega) [encode, slice_encR_op, slice_encR_10_3, hz]

theorem fpinv (rd : FIdx) (hd : Half) (ra : FIdx) (ha : Half) : Statement (.fpinv rd hd ra ha) := by
  refine ⟨⟨"FPINV", 0x50000000#32, 0xFC00FFF9#32⟩, by decide, rfl, (accepts_iff_fields [⟨31, 26, 0x14⟩, ⟨15, 3, 0⟩, ⟨0, 0, 0⟩] (by decide) _).2 ?_⟩
  have h := halfFn_lt hd ha .a
  have hz : halfFn hd ha .a / 8 = 0 := (halfFn_bits hd ha .a).1
  have h0 : halfFn hd ha .a % 2 = 0 := (halfFn_bits hd ha .a).2.2.2
  simp (disch := omega) [encode, slice_encR_op, slice_encR_15_3, slice_encR_0, hz, h0]

theorem fpmov (rd : FIdx) (hd : Half) (ra : FIdx) (ha : Half) : Statement (.fpmov rd hd ra ha) := by
  refine ⟨⟨"FPMOV", 0x54000000#32, 0xFC00FFF9#32⟩, by decide, rfl, (accepts_iff_fields [⟨31, 26, 0x15⟩, ⟨15, 3, 0⟩, ⟨0, 0, 0⟩] (by decide) _).2 ?_⟩
  have h := halfFn_lt hd ha .a
  have hz : halfFn hd ha .a / 8 = 0 := (halfFn_bits hd ha .a).1
  have h0 : halfFn hd ha .a % 2 = 0 := (halfFn_bits hd ha .a).2.2.2
  simp (disch := omega) [encode, slice_encR_op, slice_encR_15_3, slice_encR_0, hz, h0]

theorem fptom (rd : FIdx) (hd : Half) (ra : FIdx) (ha : Half) : Statement (.fptom rd hd ra ha) := by
  refine ⟨⟨"FPTOM", 0x58000000#32, 0xFC00FFF9#32⟩, by decide, rfl, (accepts_iff_fields [⟨31, 26, 0x16⟩, ⟨15, 3, 0⟩, ⟨0, 0, 0⟩] (by decide) _).2 ?_⟩
  have h := halfFn_lt hd ha .a
  have hz : halfFn hd ha .a / 8 = 0 := (halfFn_bits hd ha .a).1
  have h0 : halfFn hd ha .a % 2 = 0 := (halfFn_bits hd ha .a).2.2.2
  simp (disch := omega) [encode, slice_encR_op, slice_encR_15_3, slice_encR_0, hz, h0]

theorem fpfrm (rd : FIdx) (hd : Half) (ra : FIdx) (ha : Half) : Statement (.fpfrm rd hd ra ha) := by
  refine ⟨⟨"FPFRM", 0x5C000000#32, 0xFC00FFF9#32⟩, by decide, rfl, (accepts_iff_fields [⟨31, 26, 0x17⟩, ⟨15, 3, 0⟩, ⟨0, 0, 0⟩] (by decide) _).2 ?_⟩
  have h := halfFn_lt hd ha .a
  have hz : halfFn hd ha .a / 8 = 0 := (halfFn_bits hd ha .a).1
  have h0 : halfFn hd ha .a % 2 = 0 := (halfFn_bits hd ha .a).2.2.2
  simp (disch := omega) [encode, slice_encR_op, slice_encR_15_3, slice_encR_0, hz, h0]

theorem f2add (rd ra rb : FIdx) : Statement (.f2add rd ra rb) := by
  refine ⟨⟨"F2ADD", 0x60000000#32, 0xFC0007FF#32⟩, by decide, rfl, (accepts_iff_fields [⟨31, 26, 0x18⟩, ⟨10, 0, 0⟩] (by decide) _).2 ?_⟩
  simp [encode, slice_encR_op, slice_encR_10_0]

theorem f2sub (rd ra rb : FIdx) : Statement (.f2sub rd ra rb) := by
  refine ⟨⟨"F2SUB", 0x64000000#32, 0xFC0007FF#32⟩, by decide, rfl, (accepts_iff_fields [⟨31, 26, 0x19⟩, ⟨10, 0, 0⟩] (by decide) _).2 ?_⟩
  simp [encode, slice_encR_op, slice_encR_10_0]

theorem f2mul (rd ra rb : FIdx) : Statement (.f2mul rd ra rb) := by
  refine ⟨⟨"F2MUL", 0x68000000#32, 0xFC0007FF#32⟩, by decide, rfl, (accepts_iff_fields [⟨31, 26, 0x1a⟩, ⟨10, 0, 0⟩] (by decide) _).2 ?_⟩
  simp [encode, slice_encR_op, slice_encR_10_0]

theorem f2sqr (rd ra : FIdx) : Statement (.f2sqr rd ra) := by
  refine ⟨⟨"F2SQR", 0x6C000000#32, 0xFC00FFFF#32⟩, by decide, rfl, (accepts_iff_fields [⟨31, 26, 0x1b⟩, ⟨15, 0, 0⟩] (by decide) _).2 ?_⟩
  simp [encode, slice_encR_op, slice_encR_15_0]

theorem f2inv (rd ra : FIdx) : Statement (.f2inv rd ra) := by
  refine ⟨⟨"F2INV", 0x70000000#32, 0xFC00FFFF#32⟩, by decide, rfl, (accepts_iff_fields [⟨31, 26, 0x1c⟩, ⟨15, 0, 0⟩] (by decide) _).2 ?_⟩
  simp [encode, slice_encR_op, slice_encR_15_0]

theorem f2conj (rd ra : FIdx) : Statement (.f2conj rd ra) := by
  refine ⟨⟨"F2CONJ", 0x74000000#32, 0xFC00FFFF#32⟩, by decide, rfl, (accepts_iff_fields [⟨31, 26, 0x1d⟩, ⟨15, 0, 0⟩] (by decide) _).2 ?_⟩
  simp [encode, slice_encR_op, slice_encR_15_0]

theorem f2mov (rd ra : FIdx) : Statement (.f2mov rd ra) := by
  refine ⟨⟨"F2MOV", 0x78000000#32, 0xFC00FFFF#32⟩, by decide, rfl, (accepts_iff_fields [⟨31, 26, 0x1e⟩, ⟨15, 0, 0⟩] (by decide) _).2 ?_⟩
  simp [encode, slice_encR_op, slice_encR_15_0]

theorem f2cmov (rd ra : FIdx) : Statement (.f2cmov rd ra) := by
  refine ⟨⟨"F2CMOV", 0x7C000000#32, 0xFC00FFFF#32⟩, by decide, rfl, (accepts_iff_fields [⟨31, 26, 0x1f⟩, ⟨15, 0, 0⟩] (by decide) _).2 ?_⟩
  simp [encode, slice_encR_op, slice_encR_15_0]

theorem f2eq (ra rb : FIdx) : Statement (.f2eq ra rb) := by
  refine ⟨⟨"F2EQ", 0x80000000#32, 0xFFE007FF#32⟩, by decide, rfl, (accepts_iff_fields [⟨31, 26, 0x20⟩, ⟨25, 21, 0⟩, ⟨10, 0, 0⟩] (by decide) _).2 ?_⟩
  simp [encode, slice_encR_op, slice_encR_rd, slice_encR_10_0]

theorem f2isz (ra : FIdx) : Statement (.f2isz ra) := by
  refine ⟨⟨"F2ISZ", 0x84000000#32, 0xFFE0FFFF#32⟩, by decide, rfl, (accepts_iff_fields [⟨31, 26, 0x21⟩, ⟨25, 21, 0⟩, ⟨15, 0, 0⟩] (by decide) _).2 ?_⟩
  simp [encode, slice_encR_op, slice_encR_rd, slice_encR_15_0]

theorem f2inv3 (rd ra rb : FIdx) : Statement (.f2inv3 rd ra rb) := by
  refine ⟨⟨"F2INV3", 0x88000000#32, 0xFC0007FF#32⟩, by decide, rfl, (accepts_iff_fields [⟨31, 26, 0x22⟩, ⟨10, 0, 0⟩] (by decide) _).2 ?_⟩
  simp [encode, slice_encR_op, slice_encR_10_0]

theorem f2invn (rd ra : FIdx) (n : BitVec 11) : Statement (.f2invn rd ra n) := by
  refine ⟨⟨"F2INVN", 0x8C000000#32, 0xFC00F800#32⟩, by decide, rfl, (accepts_iff_fields [⟨31, 26, 0x23⟩, ⟨15, 11, 0⟩] (by decide) _).2 ?_⟩
  simp [encode, slice_encRI_op, slice_encRI_rb]

theorem xdbl (rd ra rb : FIdx) : Statement (.xdbl rd ra rb) := by
  refine ⟨⟨"XDBL", 0xA0000000#32, 0xFC0007FF#32⟩, by decide, rfl, (accepts_iff_fields [⟨31, 26, 0x28⟩, ⟨10, 0, 0⟩] (by decide) _).2 ?_⟩
  simp [encode, slice_encR_op, slice_encR_10_0]

theorem xdble (rd ra rb : FIdx) (e : BitVec 11) : Statement (.xdble rd ra rb e) := by
  refine ⟨⟨"XDBLE", 0xA4000000#32, 0xFC000000#32⟩, by decide, rfl, (accepts_iff_fields [⟨31, 26, 0x29⟩] (by decide) _).2 ?_⟩
  simp [encode, slice_encRI_op]

theorem xtpl (rd ra rb : FIdx) : Statement (.xtpl rd ra rb) := by
  refine ⟨⟨"XTPL", 0xA8000000#32, 0xFC0007FF#32⟩, by decide, rfl, (accepts_iff_fields [⟨31, 26, 0x2a⟩, ⟨10, 0, 0⟩] (by decide) _).2 ?_⟩
  simp [encode, slice_encR_op, slice_encR_10_0]

theorem xtple (rd ra rb : FIdx) (e : BitVec 11) : Statement (.xtple rd ra rb e) := by
  refine ⟨⟨"XTPLE", 0xAC000000#32, 0xFC000000#32⟩, by decide, rfl, (accepts_iff_fields [⟨31, 26, 0x2b⟩] (by decide) _).2 ?_⟩
  simp [encode, slice_encRI_op]

theorem xadd (rd ra rb rc : FIdx) : Statement (.xadd rd ra rb rc) := by
  refine ⟨⟨"XADD", 0xB0000000#32, 0xFC00003F#32⟩, by decide, rfl, (accepts_iff_fields [⟨31, 26, 0x2c⟩, ⟨5, 0, 0⟩] (by decide) _).2 ?_⟩
  simp [encode, slice_encR_op, slice_encR_fn]

theorem xdbladd (rd ra rb rc : FIdx) : Statement (.xdbladd rd ra rb rc) := by
  refine ⟨⟨"XDBLADD", 0xB4000000#32, 0xFC00003F#32⟩, by decide, rfl, (accepts_iff_fields [⟨31, 26, 0x2d⟩, ⟨5, 0, 0⟩] (by decide) _).2 ?_⟩
  simp [encode, slice_encR_op, slice_encR_fn]

theorem get4iso (rd ra rc : FIdx) : Statement (.get4iso rd ra rc) := by
  refine ⟨⟨"GET4ISO", 0xB8000000#32, 0xFC00F83F#32⟩, by decide, rfl, (accepts_iff_fields [⟨31, 26, 0x2e⟩, ⟨15, 11, 0⟩, ⟨5, 0, 0⟩] (by decide) _).2 ?_⟩
  simp [encode, slice_encR_op, slice_encR_rb, slice_encR_fn]

theorem eval4iso (rd ra rb : FIdx) : Statement (.eval4iso rd ra rb) := by
  refine ⟨⟨"EVAL4ISO", 0xBC000000#32, 0xFC0007FF#32⟩, by decide, rfl, (accepts_iff_fields [⟨31, 26, 0x2f⟩, ⟨10, 0, 0⟩] (by decide) _).2 ?_⟩
  simp [encode, slice_encR_op, slice_encR_10_0]

theorem get3iso (rd ra rc : FIdx) : Statement (.get3iso rd ra rc) := by
  refine ⟨⟨"GET3ISO", 0xC0000000#32, 0xFC00F83F#32⟩, by decide, rfl, (accepts_iff_fields [⟨31, 26, 0x30⟩, ⟨15, 11, 0⟩, ⟨5, 0, 0⟩] (by decide) _).2 ?_⟩
  simp [encode, slice_encR_op, slice_encR_rb, slice_encR_fn]

theorem eval3iso (rd ra rb : FIdx) : Statement (.eval3iso rd ra rb) := by
  refine ⟨⟨"EVAL3ISO", 0xC4000000#32, 0xFC0007FF#32⟩, by decide, rfl, (accepts_iff_fields [⟨31, 26, 0x31⟩, ⟨10, 0, 0⟩] (by decide) _).2 ?_⟩
  simp [encode, slice_encR_op, slice_encR_10_0]

theorem jinvAc (rd ra : FIdx) : Statement (.jinvAc rd ra) := by
  refine ⟨⟨"JINV.AC", 0xC8000000#32, 0xFC00FFFF#32⟩, by decide, rfl, (accepts_iff_fields [⟨31, 26, 0x32⟩, ⟨15, 0, 0⟩] (by decide) _).2 ?_⟩
  simp [encode, slice_encR_op, slice_encR_15_0]

theorem jinvP24 (rd ra : FIdx) : Statement (.jinvP24 rd ra) := by
  refine ⟨⟨"JINV.P24", 0xC8000001#32, 0xFC00FFFF#32⟩, by decide, rfl, (accepts_iff_fields [⟨31, 26, 0x32⟩, ⟨15, 0, 1⟩] (by decide) _).2 ?_⟩
  simp [encode, slice_encR_op, slice_encR_15_0]

theorem jinvM24 (rd ra : FIdx) : Statement (.jinvM24 rd ra) := by
  refine ⟨⟨"JINV.M24", 0xC8000002#32, 0xFC00FFFF#32⟩, by decide, rfl, (accepts_iff_fields [⟨31, 26, 0x32⟩, ⟨15, 0, 2⟩] (by decide) _).2 ?_⟩
  simp [encode, slice_encR_op, slice_encR_15_0]

theorem geta (rd ra rb rc : FIdx) : Statement (.geta rd ra rb rc) := by
  refine ⟨⟨"GETA", 0xCC000000#32, 0xFC00003F#32⟩, by decide, rfl, (accepts_iff_fields [⟨31, 26, 0x33⟩, ⟨5, 0, 0⟩] (by decide) _).2 ?_⟩
  simp [encode, slice_encR_op, slice_encR_fn]

end Sys2Proof.Laws.EncodedRow
end

