-- ==== Sys2Proof/Laws/Value.lean ====
section
/-!
SUPPORT. Laws/Value.lean: what each GF(p^2) function does to represented values (00_scope.md R15), one lemma per
function: the register image it returns is the one of the sum, difference, product, ... of the values.
-/
namespace Sys2Proof.Machine

variable {c : Config} {x y : Fp2} {u v : Fp2Value c}

theorem value_eq_iff (h : c.WellFormed) (hx : x.reduced c) (hy : y.reduced c) : x.value c = y.value c ↔ x = y := by
  refine ⟨fun e => ?_, fun e => e ▸ rfl⟩
  have cancel {m n : Nat} (hm : m < c.p) (hn : n < c.p) (e : (m : ZMod c.p) * c.rInv = n * c.rInv) : m = n :=
    eq_of_cast_eq hm hn (by linear_combination (c.r : ZMod c.p) * e - (m - n : ZMod c.p) * cast_r_mul_rInv h)
  have e1 := cancel hx.1 hy.1 (congrArg QuadraticAlgebra.re e)
  have e2 := cancel hx.2 hy.2 (congrArg QuadraticAlgebra.im e)
  cases x
  cases y
  exact congrArg₂ Fp2.mk e1 e2

/-- A value has one register image. -/
theorem denotes_unique (h : c.WellFormed) (hx : x.denotes c u) (hy : y.denotes c u) : x = y :=
  (value_eq_iff h hx.1 hy.1).1 (hx.2.trans hy.2.symm)

theorem denotes_value (hx : x.reduced c) : x.denotes c (x.value c) := ⟨hx, rfl⟩

/-- Two ways to write one value. -/
theorem denotes_congr (hx : x.denotes c u) (e : u = v) : x.denotes c v := e ▸ hx

/-- The image of zero is the element zero. -/
theorem denotes_zero_iff (h : c.WellFormed) : x.denotes c 0 ↔ x.isZero := by
  have h0 : (Fp2.zero).denotes c 0 := ⟨below_zero h, by ext <;> simp [Fp2.value, Fp2.zero]⟩
  constructor
  · intro hx
    rw [denotes_unique h hx h0]
    exact ⟨rfl, rfl⟩
  · rintro ⟨ha, hb⟩
    obtain rfl : x = Fp2.zero := by
      cases x
      exact congrArg₂ Fp2.mk ha hb
    exact h0

theorem denotes_f2one (h : c.WellFormed) : (f2one c).denotes c 1 := by
  refine ⟨below_f2one h, ?_⟩
  ext
  · simpa [Fp2.value, f2one, cast_montOne, QuadraticAlgebra.re_one] using cast_r_mul_rInv h
  · simp [Fp2.value, f2one, QuadraticAlgebra.im_one]

theorem denotes_f2add (hx : x.denotes c u) (hy : y.denotes c v) : (f2add c x y).denotes c (u + v) := by
  obtain ⟨hx, rfl⟩ := hx
  obtain ⟨hy, rfl⟩ := hy
  refine ⟨below_f2add hx hy, ?_⟩
  ext <;> simp only [Fp2.value, f2add, cast_fpadd, QuadraticAlgebra.re_add, QuadraticAlgebra.im_add] <;> ring

theorem denotes_f2sub (hx : x.denotes c u) (hy : y.denotes c v) : (f2sub c x y).denotes c (u - v) := by
  obtain ⟨hx, rfl⟩ := hx
  obtain ⟨hy, rfl⟩ := hy
  refine ⟨below_f2sub hx hy, ?_⟩
  ext <;> simp only [Fp2.value, f2sub, cast_fpsub hy.1, cast_fpsub hy.2, QuadraticAlgebra.re_sub,
    QuadraticAlgebra.im_sub] <;> ring

theorem denotes_f2mul (h : c.WellFormed) (hx : x.denotes c u) (hy : y.denotes c v) :
    (f2mul c x y).denotes c (u * v) := by
  obtain ⟨-, rfl⟩ := hx
  obtain ⟨-, rfl⟩ := hy
  refine ⟨below_f2mul h x y, ?_⟩
  ext <;> simp only [Fp2.value, f2mul, cast_fpadd, cast_fpsub (fpmul_lt h _ _), cast_fpmul, QuadraticAlgebra.re_mul,
    QuadraticAlgebra.im_mul] <;> ring

theorem f2sqr_eq_f2mul (c : Config) (x : Fp2) : f2sqr c x = f2mul c x x := by
  simp only [f2sqr, f2mul, fpmul, mpMul, Nat.mul_comm x.b x.a]

theorem denotes_f2sqr (h : c.WellFormed) (hx : x.denotes c u) : (f2sqr c x).denotes c (u ^ 2) := by
  rw [f2sqr_eq_f2mul, pow_two]
  exact denotes_f2mul h hx hx

/-- The norm is zero exactly when the sum of the squares of the halves is zero modulo `P`. -/
theorem cast_f2norm (c : Config) (x : Fp2) :
    (f2norm c x : ZMod c.p) = ((x.a : ZMod c.p) ^ 2 + (x.b : ZMod c.p) ^ 2) * c.rInv := by
  simp only [f2norm, cast_fpadd, cast_fpmul]
  ring

end Sys2Proof.Machine
end

