-- ==== Sys2Proof/Machine/Assembly.lean ====
section
/-!
DEFINITION. Machine/Assembly.lean: the assembler syntax of 30_encoding.md R118, as a printer, and the
pseudo-instructions of R119, each one instruction. Reading text is the assembler's business, not the machine's
(log entry 14).
-/
namespace Sys2Proof

/-- `F0` .. `F31` (R118). -/
def asmReg (k : FIdx) : String := "F" ++ toString k.val

/-- `C0` .. `C7` (R118). -/
def asmCounter (c : CIdx) : String := "C" ++ toString c.val

/-- `Fk.a` or `Fk.b` (R118). -/
def asmHalf (k : FIdx) : Half → String
  | .a => asmReg k ++ ".a"
  | .b => asmReg k ++ ".b"

/-- Operands separated by commas (R118). -/
def asmJoin : List String → String
  | [] => ""
  | [x] => x
  | x :: y :: xs => x ++ ", " ++ asmJoin (y :: xs)

/-- `imm16(Cc)` (R118). -/
def asmAddress (cr : CIdx) (imm : BitVec 16) : String := toString imm.toNat ++ "(" ++ asmCounter cr ++ ")"

/-- The operands of an instruction, as written: destination first; in `GET4ISO` and `GET3ISO` the second operand
is `rc` and the third `ra` (R118). -/
def Instr.operands : Instr → List String
  | .nop => []
  | .halt => []
  | .ldi cr imm => [asmCounter cr, toString imm.toNat]
  | .addi cr imm => [asmCounter cr, toString imm.toInt]
  | .jmp imm => [toString imm.toNat]
  | .djnz cr imm => [asmCounter cr, toString imm.toNat]
  | .ldf rd cr imm => [asmReg rd, asmAddress cr imm]
  | .stf rd cr imm => [asmReg rd, asmAddress cr imm]
  | .ldfm rd cr imm => [asmReg rd, asmAddress cr imm]
  | .stfm rd cr imm => [asmReg rd, asmAddress cr imm]
  | .selld cr imm => [asmAddress cr imm]
  | .selst cr imm => [asmAddress cr imm]
  | .fpadd rd hd ra ha rb hb => [asmHalf rd hd, asmHalf ra ha, asmHalf rb hb]
  | .fpsub rd hd ra ha rb hb => [asmHalf rd hd, asmHalf ra ha, asmHalf rb hb]
  | .fpneg rd hd ra ha => [asmHalf rd hd, asmHalf ra ha]
  | .fpmul rd hd ra ha rb hb => [asmHalf rd hd, asmHalf ra ha, asmHalf rb hb]
  | .fpinv rd hd ra ha => [asmHalf rd hd, asmHalf ra ha]
  | .fpmov rd hd ra ha => [asmHalf rd hd, asmHalf ra ha]
  | .fptom rd hd ra ha => [asmHalf rd hd, asmHalf ra ha]
  | .fpfrm rd hd ra ha => [asmHalf rd hd, asmHalf ra ha]
  | .f2add rd ra rb => [asmReg rd, asmReg ra, asmReg rb]
  | .f2sub rd ra rb => [asmReg rd, asmReg ra, asmReg rb]
  | .f2mul rd ra rb => [asmReg rd, asmReg ra, asmReg rb]
  | .f2sqr rd ra => [asmReg rd, asmReg ra]
  | .f2inv rd ra => [asmReg rd, asmReg ra]
  | .f2conj rd ra => [asmReg rd, asmReg ra]
  | .f2mov rd ra => [asmReg rd, asmReg ra]
  | .f2cmov rd ra => [asmReg rd, asmReg ra]
  | .f2eq ra rb => [asmReg ra, asmReg rb]
  | .f2isz ra => [asmReg ra]
  | .f2inv3 rd ra rb => [asmReg rd, asmReg ra, asmReg rb]
  | .f2invn rd ra n => [asmReg rd, asmReg ra, toString n.toNat]
  | .xdbl rd ra rb => [asmReg rd, asmReg ra, asmReg rb]
  | .xdble rd ra rb e => [asmReg rd, asmReg ra, asmReg rb, toString e.toNat]
  | .xtpl rd ra rb => [asmReg rd, asmReg ra, asmReg rb]
  | .xtple rd ra rb e => [asmReg rd, asmReg ra, asmReg rb, toString e.toNat]
  | .xadd rd ra rb rc => [asmReg rd, asmReg ra, asmReg rb, asmReg rc]
  | .xdbladd rd ra rb rc => [asmReg rd, asmReg ra, asmReg rb, asmReg rc]
  | .get4iso rd ra rc => [asmReg rd, asmReg rc, asmReg ra]
  | .eval4iso rd ra rb => [asmReg rd, asmReg ra, asmReg rb]
  | .get3iso rd ra rc => [asmReg rd, asmReg rc, asmReg ra]
  | .eval3iso rd ra rb => [asmReg rd, asmReg ra, asmReg rb]
  | .jinvAc rd ra => [asmReg rd, asmReg ra]
  | .jinvP24 rd ra => [asmReg rd, asmReg ra]
  | .jinvM24 rd ra => [asmReg rd, asmReg ra]
  | .geta rd ra rb rc => [asmReg rd, asmReg ra, asmReg rb, asmReg rc]

/-- One line of assembly (R118), spaces between mnemonic and operands reduced to one. -/
def Instr.asm (i : Instr) : String :=
  match i.operands with
  | [] => i.mnemonic
  | ops => i.mnemonic ++ " " ++ asmJoin ops

/-- `F2DBL Fd, Fa` (R119). -/
def pseudoF2dbl (rd ra : FIdx) : Instr := .f2add rd ra ra

/-- `FPDBL Fd.h, Fa.h` (R119). -/
def pseudoFpdbl (rd : FIdx) (hd : Half) (ra : FIdx) (ha : Half) : Instr := .fpadd rd hd ra ha ra ha

/-- `FPSQR Fd.h, Fa.h` (R119). -/
def pseudoFpsqr (rd : FIdx) (hd : Half) (ra : FIdx) (ha : Half) : Instr := .fpmul rd hd ra ha ra ha

/-- `LA Cc, addr` (R119). -/
def pseudoLa (cr : CIdx) (addr : BitVec 16) : Instr := .ldi cr addr

end Sys2Proof
end

