-- ==== Sys2Proof/Tests/Slice0.lean ====
section
/-!
SUPPORT. Tests/Slice0.lean: the WellFormed smoke test, the words and the vectors of 95_test_vectors.md (every expected
value is that file's), and one named witness for every statement of Certificates/Slice0/Obligations.lean that has
hypotheses. The vectors of T431 run in `execIn Config.t431`; the witnesses are states of `Config.core`.
-/
namespace Sys2Proof.Tests

open Sys2Proof.Machine

-- One theorem after another: kernel evaluations that wait for each other would each hold a thread and its stack.
set_option Elab.async false

/-! ## Small states -/

/-- After reset and START with `ENTRY = 0` (R390, R394): every register invalid. -/
def started : State := start State.reset

/-- Field registers written. -/
def withRegs (s : State) : List (FIdx × Nat × Nat) → State
  | [] => s
  | (k, a, b) :: rs => withRegs (s.setReg k { a := a, b := b }) rs

/-- Bytes of DMEM, from an address up. -/
def withBytes (s : State) (a : Nat) (bs : List Nat) : State :=
  { s with dmem := writeBytes s.dmem a (bs.map (BitVec.ofNat 8)) }

/-- The state a result is, else the state it began in. -/
def nextOf (s : State) : Result → State
  | .next t => t
  | .fault _ => s
  | .refused _ => s

/-- One instruction in T431. -/
def ran (i : Instr) (s : State) : State := nextOf s (execIn Config.t431 i s)

/-- One step of T431, the word at `PC`. -/
def stepped (w : Word) (s : State) : State := nextOf s (stepIn Config.t431 (placeWord Config.t431 s w))

/-- What the rows of 95_test_vectors.md section 5 report: `STATE`, `PC`, `CAUSE`, `FINFO`. -/
def report (s : State) : RunState × Nat × Nat × Nat := (s.run, s.pc, s.cause.toNat, s.finfo.toNat)

/-- The elements `x = 2+3i`, `y = 5+7i`, `z = 1+i`, stored, of 95_test_vectors.md section 3, in F0, F1, F2. -/
def xyz : State := withRegs started [(0, 48, 72), (1, 120, 168), (2, 24, 24)]

/-- The point `P` in F0 and F1, the coefficients `(A24plus, C24)` in F2 and F3 (section 6.1). -/
def pointPlus : State := withRegs started [(0, 335, 145), (1, 120, 168), (2, 192, 0), (3, 96, 0)]

/-- The point `P` in F0 and F1, the coefficients `(A24minus, A24plus)` in F2 and F3 (section 6.1). -/
def pointMinus : State := withRegs started [(0, 335, 145), (1, 120, 168), (2, 96, 0), (3, 192, 0)]

/-! ## WellFormed: an ill-formed term for each check (R114, R115), and one that passes at the edge of each -/

theorem test_wf_pair : (Instr.xdbl 31 0 2).wellFormed = false ∧ (Instr.xdbl 30 30 30).wellFormed = true := by decide

theorem test_wf_triple : (Instr.eval4iso 0 2 30).wellFormed = false ∧ (Instr.eval4iso 0 2 29).wellFormed = true := by decide

theorem test_wf_vector_length :
    (Instr.f2invn 0 8 0).wellFormed = false ∧ (Instr.f2invn 0 0 33).wellFormed = false
      ∧ (Instr.f2invn 0 0 32).wellFormed = true ∧ (Instr.f2invn 0 8 1).wellFormed = true := by decide

theorem test_wf_vector_range :
    (Instr.f2invn 0 30 3).wellFormed = false ∧ (Instr.f2invn 30 0 3).wellFormed = false
      ∧ (Instr.f2invn 0 29 3).wellFormed = true := by decide

theorem test_wf_f2inv3_distinct :
    (Instr.f2inv3 1 1 2).wellFormed = false ∧ (Instr.f2inv3 1 2 1).wellFormed = false
      ∧ (Instr.f2inv3 2 1 1).wellFormed = false ∧ (Instr.f2inv3 1 2 3).wellFormed = true := by decide

theorem test_wf_xdbladd_disjoint :
    (Instr.xdbladd 0 1 4 6).wellFormed = false ∧ (Instr.xdbladd 1 0 4 6).wellFormed = false
      ∧ (Instr.xdbladd 0 2 0 0).wellFormed = true := by decide

theorem test_wf_get4iso_disjoint :
    (Instr.get4iso 4 0 5).wellFormed = false ∧ (Instr.get4iso 4 0 2).wellFormed = false
      ∧ (Instr.get4iso 4 0 1).wellFormed = true ∧ (Instr.get4iso 4 4 6).wellFormed = true := by decide

theorem test_wf_get3iso_disjoint :
    (Instr.get3iso 4 0 5).wellFormed = false ∧ (Instr.get3iso 4 0 3).wellFormed = false
      ∧ (Instr.get3iso 4 0 6).wellFormed = true := by decide

/-! ## Configurations (00_scope.md R9, R10, R12; 95_test_vectors.md, conventions) -/

theorem test_config_t431 :
    Config.t431.WellFormed ∧ Config.t431.nWords = 2 ∧ Config.t431.r = 65536 ∧ Config.t431.montOne = 24
      ∧ Config.t431.montR2 = 145 ∧ Config.t431.nBytes = 2 ∧ Config.t431.mBytes = 2 ∧ Config.t431.wordBytes = 1 := by
  decide +kernel

theorem test_config_core :
    Config.core.WellFormed ∧ Config.core.bitLen = 434 ∧ Config.core.nWords = 7 ∧ Config.core.rBits = 448
      ∧ Config.core.nBytes = 55 ∧ Config.core.mBytes = 56 ∧ Config.core.wordBytes = 8 := by
  decide +kernel

theorem test_mont_one_core :
    Config.core.montOne
      = 0xECEEA7BD2EDAE93254545F77410CD801A4FB559FACD4B90FF404FC00000000000000000000000000000000000000000000000000742C := by
  decide +kernel

/-! ## Encodings, 95_test_vectors.md section 4: one word per row of R110, decoded and encoded back -/

theorem test_word_nop : decode 0x04000000 = some (.nop) ∧ encode (.nop) = 0x04000000 := by decide +kernel
theorem test_word_halt : decode 0x08000000 = some (.halt) ∧ encode (.halt) = 0x08000000 := by decide +kernel
theorem test_word_ldi : decode 0x0C8000D8 = some (.ldi 1 0x00D8) ∧ encode (.ldi 1 0x00D8) = 0x0C8000D8 := by decide +kernel
theorem test_word_addi : decode 0x1080FF92 = some (.addi 1 0xFF92) ∧ encode (.addi 1 0xFF92) = 0x1080FF92 := by decide +kernel
theorem test_word_jmp : decode 0x14000005 = some (.jmp 5) ∧ encode (.jmp 5) = 0x14000005 := by decide +kernel
theorem test_word_djnz : decode 0x18000003 = some (.djnz 0 3) ∧ encode (.djnz 0 3) = 0x18000003 := by decide +kernel
theorem test_word_ldf : decode 0x2064006E = some (.ldf 3 1 0x006E) ∧ encode (.ldf 3 1 0x006E) = 0x2064006E := by decide +kernel
theorem test_word_stf : decode 0x27FCFFFF = some (.stf 31 7 0xFFFF) ∧ encode (.stf 31 7 0xFFFF) = 0x27FCFFFF := by decide +kernel
theorem test_word_ldfm : decode 0x28880000 = some (.ldfm 4 2 0) ∧ encode (.ldfm 4 2 0) = 0x28880000 := by decide +kernel
theorem test_word_stfm : decode 0x2C880070 = some (.stfm 4 2 0x0070) ∧ encode (.stfm 4 2 0x0070) = 0x2C880070 := by decide +kernel
theorem test_word_selld : decode 0x300C0008 = some (.selld 3 8) ∧ encode (.selld 3 8) = 0x300C0008 := by decide +kernel
theorem test_word_selst : decode 0x340C0009 = some (.selst 3 9) ∧ encode (.selst 3 9) = 0x340C0009 := by decide +kernel
theorem test_word_fpadd : decode 0x40611005 = some (.fpadd 3 .b 1 .a 2 .b) ∧ encode (.fpadd 3 .b 1 .a 2 .b) = 0x40611005 := by decide +kernel
theorem test_word_fpsub : decode 0x44000001 = some (.fpsub 0 .a 0 .a 0 .b) ∧ encode (.fpsub 0 .a 0 .a 0 .b) = 0x44000001 := by decide +kernel
theorem test_word_fpneg : decode 0x48A50006 = some (.fpneg 5 .b 5 .b) ∧ encode (.fpneg 5 .b 5 .b) = 0x48A50006 := by decide +kernel
theorem test_word_fpmul : decode 0x4C611002 = some (.fpmul 3 .a 1 .b 2 .a) ∧ encode (.fpmul 3 .a 1 .b 2 .a) = 0x4C611002 := by decide +kernel
theorem test_word_fpinv : decode 0x50C70002 = some (.fpinv 6 .a 7 .b) ∧ encode (.fpinv 6 .a 7 .b) = 0x50C70002 := by decide +kernel
theorem test_word_fpmov : decode 0x55080004 = some (.fpmov 8 .b 8 .a) ∧ encode (.fpmov 8 .b 8 .a) = 0x55080004 := by decide +kernel
theorem test_word_fptom : decode 0x59290000 = some (.fptom 9 .a 9 .a) ∧ encode (.fptom 9 .a 9 .a) = 0x59290000 := by decide +kernel
theorem test_word_fpfrm : decode 0x5D2A0004 = some (.fpfrm 9 .b 10 .a) ∧ encode (.fpfrm 9 .b 10 .a) = 0x5D2A0004 := by decide +kernel
theorem test_word_f2add : decode 0x60400800 = some (.f2add 2 0 1) ∧ encode (.f2add 2 0 1) = 0x60400800 := by decide +kernel
theorem test_word_f2sub : decode 0x64400800 = some (.f2sub 2 0 1) ∧ encode (.f2sub 2 0 1) = 0x64400800 := by decide +kernel
theorem test_word_f2mul : decode 0x68400800 = some (.f2mul 2 0 1) ∧ encode (.f2mul 2 0 1) = 0x68400800 := by decide +kernel
theorem test_word_f2sqr : decode 0x6C620000 = some (.f2sqr 3 2) ∧ encode (.f2sqr 3 2) = 0x6C620000 := by decide +kernel
theorem test_word_f2inv : decode 0x70200000 = some (.f2inv 1 0) ∧ encode (.f2inv 1 0) = 0x70200000 := by decide +kernel
theorem test_word_f2conj : decode 0x74840000 = some (.f2conj 4 4) ∧ encode (.f2conj 4 4) = 0x74840000 := by decide +kernel
theorem test_word_f2mov : decode 0x79020000 = some (.f2mov 8 2) ∧ encode (.f2mov 8 2) = 0x79020000 := by decide +kernel
theorem test_word_f2cmov : decode 0x7C440000 = some (.f2cmov 2 4) ∧ encode (.f2cmov 2 4) = 0x7C440000 := by decide +kernel
theorem test_word_f2eq : decode 0x80021800 = some (.f2eq 2 3) ∧ encode (.f2eq 2 3) = 0x80021800 := by decide +kernel
theorem test_word_f2isz : decode 0x841F0000 = some (.f2isz 31) ∧ encode (.f2isz 31) = 0x841F0000 := by decide +kernel
theorem test_word_f2inv3 : decode 0x88232800 = some (.f2inv3 1 3 5) ∧ encode (.f2inv3 1 3 5) = 0x88232800 := by decide +kernel
theorem test_word_f2invn : decode 0x8D000004 = some (.f2invn 8 0 4) ∧ encode (.f2invn 8 0 4) = 0x8D000004 := by decide +kernel
theorem test_word_xdbl : decode 0xA0801000 = some (.xdbl 4 0 2) ∧ encode (.xdbl 4 0 2) = 0xA0801000 := by decide +kernel
theorem test_word_xdble : decode 0xA48010D8 = some (.xdble 4 0 2 216) ∧ encode (.xdble 4 0 2 216) = 0xA48010D8 := by decide +kernel
theorem test_word_xtpl : decode 0xA8801000 = some (.xtpl 4 0 2) ∧ encode (.xtpl 4 0 2) = 0xA8801000 := by decide +kernel
theorem test_word_xtple : decode 0xAC801089 = some (.xtple 4 0 2 137) ∧ encode (.xtple 4 0 2 137) = 0xAC801089 := by decide +kernel
theorem test_word_xadd : decode 0xB0C01100 = some (.xadd 6 0 2 4) ∧ encode (.xadd 6 0 2 4) = 0xB0C01100 := by decide +kernel
theorem test_word_xdbladd : decode 0xB4041180 = some (.xdbladd 0 4 2 6) ∧ encode (.xdbladd 0 4 2 6) = 0xB4041180 := by decide +kernel
theorem test_word_get4iso : decode 0xB8800180 = some (.get4iso 4 0 6) ∧ encode (.get4iso 4 0 6) = 0xB8800180 := by decide +kernel
theorem test_word_eval4iso : decode 0xBD423000 = some (.eval4iso 10 2 6) ∧ encode (.eval4iso 10 2 6) = 0xBD423000 := by decide +kernel
theorem test_word_get3iso : decode 0xC0800180 = some (.get3iso 4 0 6) ∧ encode (.get3iso 4 0 6) = 0xC0800180 := by decide +kernel
theorem test_word_eval3iso : decode 0xC5423000 = some (.eval3iso 10 2 6) ∧ encode (.eval3iso 10 2 6) = 0xC5423000 := by decide +kernel
theorem test_word_jinv_ac : decode 0xC9840000 = some (.jinvAc 12 4) ∧ encode (.jinvAc 12 4) = 0xC9840000 := by decide +kernel
theorem test_word_jinv_p24 : decode 0xC9840001 = some (.jinvP24 12 4) ∧ encode (.jinvP24 12 4) = 0xC9840001 := by decide +kernel
theorem test_word_jinv_m24 : decode 0xC9840002 = some (.jinvM24 12 4) ∧ encode (.jinvM24 12 4) = 0xC9840002 := by decide +kernel
theorem test_word_geta : decode 0xCC0110C0 = some (.geta 0 1 2 3) ∧ encode (.geta 0 1 2 3) = 0xCC0110C0 := by decide +kernel

/-! ## Decoding refused (section 5, first rows) -/

theorem test_illegal_words :
    ([0xFFFFFFFF, 0x00000000, 0x1C000000, 0x04000001, 0x60400801, 0xC9840003, 0x0C010005, 0x30200000, 0x6C200800] : List Word).all
      (fun w => report (stepped w started) == (.fault, 0, 1, w.toNat)) = true := by decide +kernel

theorem test_illegal_operands :
    ([0xA3E01000, 0xBC02F000, 0x88211000, 0x8C080000, 0x8C000021, 0x8C1E0003, 0xB8800140, 0xC0800140, 0xB4012180] : List Word).all
      (fun w => report (stepped w started) == (.fault, 0, 2, w.toNat)) = true := by decide +kernel

/-- The first row again with registers valid: the operand check comes before any register. -/
theorem test_illegal_operand_first :
    report (stepped 0xA3E01000 pointPlus) = (.fault, 0, 2, 0xA3E01000) := by decide +kernel

/-! ## The datapath (sections 2.1, 2.2) -/

theorem test_mp_add :
    mpAdd Config.t431 0xFFFF 0x0001 = (0, 1) ∧ mpAdd Config.t431 0x01AE 0x01AE = (0x035C, 0)
      ∧ mpAdd Config.core (Config.core.p - 1) 1 = (Config.core.p, 0) ∧ mpAdd Config.core (2 ^ 448 - 1) 1 = (0, 1) := by
  decide +kernel

theorem test_mp_sub :
    mpSub Config.t431 0x0000 0x0001 = (0xFFFF, 1) ∧ mpSub Config.t431 0x0100 0x0001 = (0x00FF, 0)
      ∧ mpSub Config.core 0 1 = (2 ^ 448 - 1, 1) := by decide +kernel

theorem test_mp_digits :
    addDigits 256 0 [0xFF, 0x00] [0x01, 0x00] = ([0x00, 0x01], 0)
      ∧ subDigits 256 0 [0x00, 0x01] [0x01, 0x00] = ([0xFF, 0x00], 0)
      ∧ mulDigits 256 [0xAE, 0x01] [0xAE, 0x01] = [0x44, 0xD2, 0x02, 0x00]
      ∧ cmovDigits 0xFF [0x34, 0x12] [0xCD, 0xAB] = [0xCD, 0xAB] := by decide +kernel

theorem test_mp_cmp : mpCmp 0x01AE 0x01AF = -1 ∧ mpCmp 0x0200 0x01FF = 1 ∧ mpCmp 0 0 = 0 := by decide

theorem test_mp_cmov :
    mpCmovBits Config.t431 0x1234 0xABCD .zero = 0x1234 ∧ mpCmovBits Config.t431 0x1234 0xABCD .allOnes = 0xABCD
      ∧ mpCmov 0x1234 0xABCD .allOnes = 0xABCD := by decide +kernel

theorem test_mp_shift :
    mpShl Config.t431 0x8001 1 = some 0x0002 ∧ mpShl Config.t431 0x00FF 9 = some 0xFE00
      ∧ mpShr Config.t431 0x8001 1 = some 0x4000 ∧ mpShr Config.t431 0xFE00 9 = some 0x007F
      ∧ mpShl Config.t431 0x1234 0 = some 0x1234 ∧ mpShr Config.t431 0x1234 0 = some 0x1234 := by decide +kernel

theorem test_mont_reduce :
    montM Config.t431 3456 = 21888 ∧ montU Config.t431 3456 = 144 ∧ montReduce Config.t431 3456 = 144
      ∧ montM Config.t431 165649 = 3265 ∧ montReduceSteps Config.t431 165649 = 24
      ∧ montM Config.t431 1 = 2737 ∧ montReduceSteps Config.t431 1 = 18 ∧ montReduce Config.t431 184900 = 18 := by
  decide +kernel

/-! ## Control (section 5) -/

theorem test_halt : report (stepped 0x08000000 started) = (.done, 0, 0, 0) := by decide +kernel

theorem test_ldi : (ran (.ldi 1 216) started).counter 1 = { val := 216, valid := true } := by decide +kernel

theorem test_addi_wraps :
    (stepped 0x10800001 (started.setCounter 1 65535)).counter 1 = { val := 0, valid := true }
      ∧ (stepped 0x1080FFFF (started.setCounter 1 0)).counter 1 = { val := 65535, valid := true } := by decide +kernel

theorem test_addi_invalid : report (stepped 0x12800001 started) = (.fault, 0, 3, 0x105) := by decide +kernel

theorem test_djnz :
    report (stepped 0x18000009 (started.setCounter 0 0)) = (.running, 9, 0, 0)
      ∧ ((stepped 0x18000009 (started.setCounter 0 0)).counter 0).val = 65535
      ∧ report (stepped 0x18000009 (started.setCounter 0 1)) = (.running, 1, 0, 0) := by decide +kernel

theorem test_djnz_invalid : report (stepped 0x1B800000 started) = (.fault, 0, 3, 0x107) := by decide +kernel

/-- Program 4d: `JMP` itself completes, the next fetch faults. -/
theorem test_jmp_out_of_imem :
    (stepped 0x14000400 started).pc = 1024
      ∧ (match stepIn Config.t431 (stepped 0x14000400 started) with | .next t => report t | _ => (.idle, 0, 0, 0))
        = (.fault, 1024, 7, 0x400) := by decide +kernel

/-! ## Memory (section 5, programs 1, 4a, 4b) -/

theorem test_ldf_last_bytes :
    (stepped 0x20000000 (withBytes (started.setCounter 0 4092) 4092 [2, 0, 3, 0])).reg 0 = { a := 48, b := 72 } := by
  decide +kernel

theorem test_ldf_refused :
    report (stepped 0x20000000 (withBytes (started.setCounter 0 4093) 4093 [255, 255, 255])) = (.fault, 0, 4, 0xFFD)
      ∧ report (stepped 0x2000FFFF (started.setCounter 0 65535)) = (.fault, 0, 4, 0x1FFFE)
      ∧ report (stepped 0x20000000 (withBytes (started.setCounter 0 8) 8 [0xAF, 1, 0, 0])) = (.fault, 0, 5, 8)
      ∧ report (stepped 0x20000000 (withBytes (started.setCounter 0 8) 8 [0xAE, 1, 255, 255])) = (.fault, 0, 5, 0xA) := by
  decide +kernel

theorem test_stf_stores_values :
    (ran (.stf 2 0 8) (withRegs (started.setCounter 0 0) [(2, 167, 265)])).bytesAt 8 4 = [0xA4, 0x01, 0x1D, 0x00] := by
  decide +kernel

theorem test_stf_uninit :
    report (stepped 0x24000000 started) = (.fault, 0, 3, 0)
      ∧ report (stepped 0x24000000 (withRegs started [(0, 1, 2)])) = (.fault, 0, 3, 0x100)
      ∧ report (stepped 0x24000000 ((started.setHalf 0 .a 1).setCounter 0 0)) = (.fault, 0, 3, 1) := by decide +kernel

/-- R184, R183: the raw image of a stored value is its digits, and comes back as it was. -/
theorem test_stfm_ldfm :
    (ran (.stfm 4 2 112) (withRegs (started.setCounter 2 0) [(4, 167, 265)])).bytesAt 112 4 = [0xA7, 0x00, 0x09, 0x01]
      ∧ (ran (.ldfm 5 2 112) (withBytes (started.setCounter 2 0) 112 [0xA7, 0x00, 0x09, 0x01])).reg 5
        = { a := 167, b := 265 } := by decide +kernel

theorem test_selld :
    csrStatus (stepped 0x30000000 (withBytes (started.setCounter 0 0) 0 [0xFF])) = 0x19
      ∧ csrStatus (stepped 0x30000000 (withBytes (started.setCounter 0 0) 0 [0x00])) = 0x09
      ∧ report (stepped 0x30000000 (withBytes (started.setCounter 0 0) 0 [0x01])) = (.fault, 0, 6, 0) := by decide +kernel

theorem test_selst_uninit :
    report (stepped 0x34000000 started) = (.fault, 0, 3, 0x200)
      ∧ report (stepped 0x340C0000 (started.setSel .allOnes)) = (.fault, 0, 3, 0x103) := by decide +kernel

theorem test_selst :
    (ran (.selst 3 9) ((started.setSel .allOnes).setCounter 3 0)).bytesAt 9 1 = [0xFF]
      ∧ (ran (.selst 3 9) ((started.setSel .zero).setCounter 3 0)).bytesAt 9 1 = [0x00] := by decide +kernel

/-! ## GF(p) (section 2.3): the stored value in F3.a -/

/-- One GF(p) instruction of two operands. -/
def fp2op (i : Instr) (x y : Nat) : HalfReg := (ran i (withRegs started [(1, x, y)])).half 3 .a

theorem test_fpadd :
    fp2op (.fpadd 3 .a 1 .a 1 .b) 407 407 = { val := 383, valid := true }
      ∧ (fp2op (.fpadd 3 .a 1 .a 1 .b) 200 231).val = 0 ∧ (fp2op (.fpadd 3 .a 1 .a 1 .b) 200 230).val = 430 := by
  decide +kernel

theorem test_fpadd_halves :
    report (stepped 0x40611002 (withRegs (started.setHalf 1 .a 5) [(2, 6, 7)])) = (.fault, 0, 3, 3)
      ∧ (stepped 0x40611000 (withRegs (started.setHalf 1 .a 5) [(2, 6, 7)])).half 3 .a = { val := 11, valid := true }
      ∧ ((stepped 0x40611000 (withRegs (started.setHalf 1 .a 5) [(2, 6, 7)])).half 3 .b).valid = false := by
  decide +kernel

theorem test_fpsub :
    (fp2op (.fpsub 3 .a 1 .a 1 .b) 0 407).val = 24 ∧ (fp2op (.fpsub 3 .a 1 .a 1 .b) 48 72).val = 407
      ∧ (fp2op (.fpsub 3 .a 1 .a 1 .b) 407 0).val = 407 := by decide +kernel

theorem test_fpneg :
    (fp2op (.fpneg 3 .a 1 .a) 0 9).val = 0 ∧ (fp2op (.fpneg 3 .a 1 .a) 24 9).val = 407
      ∧ (fp2op (.fpneg 3 .a 1 .b) 9 1).val = 430 := by decide +kernel

theorem test_fpmul :
    (fp2op (.fpmul 3 .a 1 .a 1 .b) 48 72).val = 144 ∧ (fp2op (.fpmul 3 .a 1 .a 1 .b) 407 407).val = 24
      ∧ (fp2op (.fpmul 3 .a 1 .a 1 .b) 24 251).val = 251 := by decide +kernel

theorem test_fpinv :
    (fp2op (.fpinv 3 .a 1 .a) 48 9).val = 12 ∧ (fp2op (.fpinv 3 .a 1 .a) 407 9).val = 407
      ∧ (fp2op (.fpinv 3 .a 1 .a) 24 9).val = 24 := by decide +kernel

theorem test_fpinv_zero :
    (fp2op (.fpinv 3 .a 1 .a) 0 9).val = 0 ∧ (ran (.fpinv 3 .a 1 .a) (withRegs started [(1, 0, 9)])).invz = true
      ∧ (ran (.fpinv 3 .a 1 .a) (withRegs started [(1, 24, 0)])).invz = false := by decide +kernel

theorem test_fptom_fpfrm :
    (fp2op (.fptom 3 .a 1 .a) 24 9).val = 145 ∧ (fp2op (.fptom 3 .a 1 .a) 430 9).val = 407
      ∧ (fp2op (.fpfrm 3 .a 1 .a) 1 9).val = 18 ∧ (fp2op (.fpfrm 3 .a 1 .a) 407 9).val = 430 := by decide +kernel

theorem test_fpmov : (fp2op (.fpmov 3 .a 1 .b) 9 407).val = 407 := by decide +kernel

/-- Section 2.4: the inverse of `sto(2)`, the inverse of `sto(P-1)`, and an ordinary product, in P434. -/
theorem test_fp_core :
    fpinv Config.core 0x1D9DD4F7A5DB5D264A8A8BEEE8219B00349F6AB3F59A9721FE809F800000000000000000000000000000000000000000000000000E858
        = 0x767753DE976D74992A2A2FBBA0866C00D27DAACFD66A5C87FA027E000000000000000000000000000000000000000000000000003A16
      ∧ fpinv Config.core (Config.core.p - Config.core.montOne) = Config.core.p - Config.core.montOne
      ∧ fpmul Config.core
          0x11AC3AE1C050ED6D5B24408DDBD5E286FEFE33C38BCD0EE38531651BEA4D755A994FECC3C8CBBF5AB5DDE8B74FFBC1ED27D022824FC7B
          0x1D34434BF47A96AED0292444A5BC58177CD00F229A679718D1405D897C46C789526621628CB02F65572E24F0DE7F276CB79EFABE2FD8D
        = 0x16BFCFB73E78A60ECF7933A2578CF0564E5A2D92B2BBF6E7BDCA3D58127C31E3D9B133443C1DCBACFADB794292BDE8CBF527FFC60ED4B := by
  decide +kernel

/-! ## GF(p^2) (section 3) -/

theorem test_f2add : (ran (.f2add 2 0 1) xyz).reg 2 = { a := 168, b := 240 } := by decide +kernel

theorem test_f2sub :
    (ran (.f2sub 2 0 1) xyz).reg 2 = { a := 359, b := 335 }
      ∧ (ran (.f2sub 5 4 2) (withRegs xyz [(4, 0, 0)])).reg 5 = { a := 407, b := 407 } := by decide +kernel

theorem test_f2mul :
    (ran (.f2mul 2 0 1) xyz).reg 2 = { a := 167, b := 265 }
      ∧ (ran (.f2mul 0 0 0) (withRegs started [(0, 407, 407)])).reg 0 = { a := 0, b := 48 } := by decide +kernel

theorem test_f2sqr :
    (ran (.f2sqr 3 0) xyz).reg 3 = { a := 311, b := 288 }
      ∧ (ran (.f2sqr 3 0) (withRegs started [(0, 0, 24)])).reg 3 = { a := 407, b := 0 } := by decide +kernel

theorem test_f2inv :
    (ran (.f2inv 1 0) xyz).reg 1 = { a := 70, b := 326 }
      ∧ (ran (.f2inv 1 0) (withRegs started [(0, 0, 24)])).reg 1 = { a := 0, b := 407 } := by decide +kernel

theorem test_f2inv_zero :
    (ran (.f2inv 1 0) (withRegs started [(0, 0, 0)])).reg 1 = { a := 0, b := 0 }
      ∧ (ran (.f2inv 1 0) (withRegs started [(0, 0, 0)])).invz = true := by decide +kernel

theorem test_f2conj :
    (ran (.f2conj 0 0) xyz).reg 0 = { a := 48, b := 359 }
      ∧ (ran (.f2conj 4 4) (withRegs started [(4, 120, 0)])).reg 4 = { a := 120, b := 0 } := by decide +kernel

theorem test_f2mov : (ran (.f2mov 8 0) xyz).reg 8 = { a := 48, b := 72 } := by decide +kernel

theorem test_f2cmov :
    (ran (.f2cmov 0 1) (xyz.setSel .zero)).reg 0 = { a := 48, b := 72 }
      ∧ (ran (.f2cmov 0 1) (xyz.setSel .allOnes)).reg 0 = { a := 120, b := 168 } := by decide +kernel

theorem test_f2cmov_uninit :
    report (stepped 0x7C440000 ((withRegs started [(2, 1, 2)]).setHalf 4 .a 3)) = (.fault, 0, 3, 9)
      ∧ report (stepped 0x7C440000 (withRegs started [(2, 1, 2), (4, 3, 4)])) = (.fault, 0, 3, 0x200) := by decide +kernel

theorem test_f2eq :
    (ran (.f2eq 0 0) xyz).sel = .allOnes ∧ (ran (.f2eq 0 1) xyz).sel = .zero
      ∧ (ran (.f2eq 0 4) (withRegs xyz [(4, 48, 359)])).sel = .zero := by decide +kernel

theorem test_f2isz :
    (ran (.f2isz 31) (withRegs started [(31, 0, 0)])).sel = .allOnes
      ∧ (ran (.f2isz 31) (withRegs started [(31, 0, 24)])).sel = .zero := by decide +kernel

theorem test_f2inv3 :
    (ran (.f2inv3 0 1 2) xyz).vector 0 3 = [{ a := 70, b := 326 }, { a := 188, b := 254 }, { a := 12, b := 419 }] := by
  decide +kernel

theorem test_f2inv3_zero :
    (ran (.f2inv3 0 1 2) (withRegs xyz [(1, 0, 0)])).vector 0 3 = [{ a := 0, b := 0 }, { a := 0, b := 0 }, { a := 0, b := 0 }]
      ∧ (ran (.f2inv3 0 1 2) (withRegs xyz [(1, 0, 0)])).invz = true := by decide +kernel

theorem test_f2invn :
    (ran (.f2invn 8 0 3) xyz).vector 8 3 = [{ a := 70, b := 326 }, { a := 188, b := 254 }, { a := 12, b := 419 }]
      ∧ (ran (.f2invn 1 0 1) xyz).reg 1 = { a := 70, b := 326 } := by decide +kernel

/-- The destination may overlap the source in any way (R242): read in full, then written. -/
theorem test_f2invn_overlap :
    (ran (.f2invn 1 0 3) xyz).vector 1 3 = [{ a := 70, b := 326 }, { a := 188, b := 254 }, { a := 12, b := 419 }] := by
  decide +kernel

/-! ## Curve and isogeny (section 6.1) -/

theorem test_xdbl :
    (ran (.xdbl 4 0 2) pointPlus).pair 4 = { x := { a := 30, b := 15 }, z := { a := 423, b := 47 } } := by decide +kernel

theorem test_xdble :
    (ran (.xdble 4 0 2 2) pointPlus).pair 4 = { x := { a := 378, b := 98 }, z := { a := 408, b := 143 } }
      ∧ (ran (.xdble 4 0 2 0) pointPlus).pair 4 = { x := { a := 335, b := 145 }, z := { a := 120, b := 168 } } := by
  decide +kernel

theorem test_xtpl :
    (ran (.xtpl 4 0 2) pointMinus).pair 4 = { x := { a := 14, b := 423 }, z := { a := 389, b := 80 } } := by
  decide +kernel

theorem test_xtple :
    (ran (.xtple 4 0 2 2) pointMinus).pair 4 = { x := { a := 191, b := 60 }, z := { a := 256, b := 265 } } := by
  decide +kernel

/-- `P` in F0 and F1, `Q` in F4 and F5, `x(P-Q)` in F6, `(A24plus, C24)` in F2 and F3. -/
def twoPoints : State := withRegs pointPlus [(4, 72, 264), (5, 72, 24), (6, 270, 76)]

theorem test_xadd :
    (ran (.xadd 8 0 4 6) twoPoints).pair 8 = { x := { a := 108, b := 418 }, z := { a := 418, b := 109 } } := by
  decide +kernel

theorem test_xdbladd :
    (ran (.xdbladd 0 4 6 2) twoPoints).pair 0 = { x := { a := 30, b := 15 }, z := { a := 423, b := 47 } }
      ∧ (ran (.xdbladd 0 4 6 2) twoPoints).pair 4 = { x := { a := 108, b := 418 }, z := { a := 418, b := 109 } } := by
  decide +kernel

theorem test_geta :
    (ran (.geta 0 1 2 3) (withRegs started [(1, 48, 48), (2, 48, 72), (3, 270, 76)])).reg 0 = { a := 144, b := 0 } := by
  decide +kernel

theorem test_jinv_ac :
    (ran (.jinvAc 12 4) (withRegs started [(4, 144, 0), (5, 24, 0)])).reg 12 = { a := 25, b := 0 }
      ∧ (ran (.jinvAc 12 4) (withRegs started [(4, 48, 120), (5, 72, 96)])).reg 12 = { a := 271, b := 28 } := by
  decide +kernel

/-- `A = 2`, `C = 1`: the singular curve. -/
theorem test_jinv_ac_singular :
    (ran (.jinvAc 12 4) (withRegs started [(4, 48, 0), (5, 24, 0)])).reg 12 = { a := 0, b := 0 }
      ∧ (ran (.jinvAc 12 4) (withRegs started [(4, 48, 0), (5, 24, 0)])).invz = true := by decide +kernel

theorem test_jinv_p24 : (ran (.jinvP24 12 2) pointPlus).reg 12 = { a := 25, b := 0 } := by decide +kernel

theorem test_jinv_m24 : (ran (.jinvM24 12 2) pointMinus).reg 12 = { a := 25, b := 0 } := by decide +kernel

/-- `K4 = (7 : 1)` in F0 and F1. -/
theorem test_get4iso :
    (ran (.get4iso 4 0 6) (withRegs started [(0, 168, 0), (1, 24, 0)])).pair 4
        = { x := { a := 342, b := 0 }, z := { a := 96, b := 0 } }
      ∧ (ran (.get4iso 4 0 6) (withRegs started [(0, 168, 0), (1, 24, 0)])).triple 6
        = { k0 := { a := 96, b := 0 }, k1 := { a := 144, b := 0 }, k2 := { a := 192, b := 0 } } := by decide +kernel

theorem test_eval4iso :
    (ran (.eval4iso 10 0 6) (withRegs pointPlus [(6, 96, 0), (7, 144, 0), (8, 192, 0)])).pair 10
      = { x := { a := 310, b := 169 }, z := { a := 173, b := 3 } } := by decide +kernel

/-- The kernel maps to infinity. -/
theorem test_eval4iso_kernel :
    (ran (.eval4iso 10 0 6) (withRegs started [(0, 168, 0), (1, 24, 0), (6, 96, 0), (7, 144, 0), (8, 192, 0)])).pair 10
      = { x := { a := 40, b := 0 }, z := { a := 0, b := 0 } } := by decide +kernel

/-- `K3 = (208 : 1)` in F0 and F1. -/
theorem test_get3iso :
    (ran (.get3iso 4 0 6) (withRegs started [(0, 251, 0), (1, 24, 0)])).pair 4
        = { x := { a := 357, b := 0 }, z := { a := 220, b := 0 } }
      ∧ (ran (.get3iso 4 0 6) (withRegs started [(0, 251, 0), (1, 24, 0)])).pair 6
        = { x := { a := 227, b := 0 }, z := { a := 275, b := 0 } } := by decide +kernel

theorem test_eval3iso :
    (ran (.eval3iso 10 0 6) (withRegs pointPlus [(6, 227, 0), (7, 275, 0)])).pair 10
      = { x := { a := 85, b := 177 }, z := { a := 324, b := 157 } } := by decide +kernel

/-! ## The host port and the run lifecycle (section 5.1) -/

/-- Rows 2 to 4: START in `IDLE`; CLEAR and START while running have no effect. -/
theorem test_start :
    report started = (.running, 0, 0, 0) ∧ csrStatus started = 0x01 ∧ writeCtrl started 2 = started
      ∧ writeCtrl started 1 = started := by decide +kernel

/-- Rows 7 to 10: in `DONE` START has no effect, `ENTRY` is writable, CLEAR leaves `PC`, and START loads it. -/
theorem test_clear_and_entry :
    let done := { withRegs started [(2, 167, 265)] with pc := 5, run := .done }
    let entered := (hostAccess Config.t431 (.csrWrite 3 6) done).2
    let cleared := writeCtrl entered 2
    writeCtrl done 1 = done ∧ entered.entry = 6 ∧ report cleared = (.idle, 5, 0, 0) ∧ (cleared.half 2 .a).valid = false
      ∧ report (stepped 0x2440000C (writeCtrl cleared 1)) = (.fault, 6, 3, 4)
      ∧ csrStatus (stepped 0x2440000C (writeCtrl cleared 1)) = 0x03
      ∧ writeCtrl (stepped 0x2440000C (writeCtrl cleared 1)) 1 = stepped 0x2440000C (writeCtrl cleared 1) := by
  decide +kernel

theorem test_reset_state :
    State.reset.dmem.wf = true ∧ State.reset.imem.wf = true ∧ csrStatus State.reset = 0 ∧ csrRead Config.core State.reset 8 = 0x074001B2 := by
  decide +kernel

/-- R48: the value of `CFG` for each worked configuration. -/
theorem test_csr_cfg : csrCfg Config.core = 0x074001B2 ∧ csrCfg Config.t431 = 0x02080009 := by decide +kernel

theorem test_decode_table_word : decodeTableWord 32 0x68400800 = some (.f2mul 2 0 1) := by decide +kernel

theorem test_with_fetch_word :
    (match step (State.reset.withFetchWord 32 0x0C8000D8) with | .next t => (t.counter 1, t.pc, t.run) | _ => (CounterReg.empty, 0, .idle))
      = ({ val := 216, valid := true }, 1, .running) := by decide +kernel

/-- R23, R394: from reset, the host writes a word and START; the machine is then where `withFetchWord` puts it. -/
theorem test_program_start_from_reset :
    (hostAccess Config.core (.csrWrite 1 1) (hostAccess Config.core (.imemWrite 0 0x0C8000D8) State.reset).2).2
      = State.reset.withFetchWord 32 0x0C8000D8 := by decide +kernel

/-- R118: operands as they are written. -/
theorem test_asm :
    (Instr.stf 31 7 65535).asm = "STF F31, 65535(C7)" ∧ (Instr.addi 1 0xFF92).asm = "ADDI C1, -110"
      ∧ (Instr.get4iso 4 0 6).asm = "GET4ISO F4, F6, F0" ∧ (Instr.fpadd 3 .b 1 .a 2 .b).asm = "FPADD F3.b, F1.a, F2.b" := by
  decide +kernel

/-! ## Witnesses: states and operands that meet all the hypotheses of a statement together -/

/-- A running machine with a word at an index and `PC` there. -/
def atWord (s : State) (pc : Nat) (w : Word) : State := { s with pc := pc, imem := cellSet s.imem pc w }

/-- Every register valid, `SEL = 0`: F[k] = (k, k + 1), C[c] = 0. -/
def full : State :=
  { started with
    f := Vector.ofFn fun k => { a := { val := k.val, valid := true }, b := { val := k.val + 1, valid := true } }
    c := Vector.replicate 8 { val := 0, valid := true }
    vsel := true }

/-- `n` bytes of DMEM at an address. -/
def filled (s : State) (a : Nat) (bs : List Byte) : State := { s with dmem := writeBytes s.dmem a bs }

theorem full_regHolds : ∀ k : FIdx, full.regHolds k { a := k.val, b := k.val + 1 } := by
  unfold State.regHolds HalfReg.holds
  decide +kernel

theorem full_counter : ∀ cr : CIdx, full.counter cr = { val := 0, valid := true } := by decide +kernel

/-- `EncodeDecode`, `DecodeFollowsTable`: words that decode, first and last row. -/
theorem witness_EncodeDecode : decode 0x04000000 = some .nop ∧ decode 0xCFFFFFC0 = some (.geta 31 31 31 31) := by
  decide +kernel

theorem witness_DecodeFollowsTable : ∃ r ∈ opTable, r.accepts 0xC9840002 = true ∧ r.mnemonic = "JINV.M24" := by
  decide +kernel

/-- `IllegalInstruction`: words at both ends of each range of reserved opcodes, and one that breaks a zero field. -/
theorem witness_IllegalInstruction :
    ([0x00000000, 0x1C000000, 0x38000000, 0x3FFFFFFF, 0x90000000, 0x9FFFFFFF, 0xD0000000, 0xFFFFFFFF] : List Word).all
      (fun w => (atWord started 1023 w).run = .running && decide ((atWord started 1023 w).pc < Config.core.imemWords)
        && (decide (opField ((atWord started 1023 w).wordAt 1023) ∈ [0x00, 0x07, 0x0E, 0x0F, 0x24, 0x25, 0x26, 0x27])
          || decide (0x34 ≤ opField ((atWord started 1023 w).wordAt 1023)))) = true
    ∧ ∀ r ∈ opTable, r.accepts ((atWord started 0 0x04000001).wordAt 0) = false := by decide +kernel

/-- `IllegalOperand`: ill-formed instructions that decode, with no register readable. -/
theorem witness_IllegalOperand :
    ∀ x ∈ ([(0xA3E01000, .xdbl 31 0 2), (0x8C000021, .f2invn 0 0 33), (0xB8800140, .get4iso 4 0 5)] : List (Word × Instr)),
      (atWord started 0 x.1).run = .running ∧ (atWord started 0 x.1).pc < Config.core.imemWords
        ∧ decode ((atWord started 0 x.1).wordAt 0) = some x.2 ∧ x.2.wellFormed = false := by decide +kernel

theorem witness_StepRunsDecoded :
    (atWord started 1023 0x08000000).run = .running ∧ (atWord started 1023 0x08000000).pc < Config.core.imemWords
      ∧ decode ((atWord started 1023 0x08000000).wordAt 1023) = some .halt := by decide +kernel

/-- `TrapEntry`, last clause: a step into FAULT. -/
theorem witness_TrapEntry :
    (atWord started 0 0xFFFFFFFF).run = .running
      ∧ (nextOf started (step (atWord started 0 0xFFFFFFFF))).run = .fault := by decide +kernel

/-- `ExceptionPriority`: a fetch that faults, a word that does not decode, an instruction that raises, one that does
not. -/
theorem witness_ExceptionPriority :
    Config.core.imemWords ≤ ({ started with pc := 1024 } : State).pc
      ∧ decode ((atWord started 1023 0).wordAt 1023) = none
      ∧ decode ((atWord started 0 0x34000000).wordAt 0) = some (.selst 0 0)
      ∧ raises Config.core (.selst 0 0) (atWord started 0 0x34000000) = some (.uninitRegister 0x200)
      ∧ raises Config.core (.selst 0 0) (atWord full 0 0x34000000) = none := by decide +kernel

/-- `UninitRegister`: a half, the selector, a counter. -/
theorem witness_UninitRegister :
    unreadableSource (.f2add 2 1 0) started = some 0 ∧ unreadableSource (.selst 0 0) started = some 0x200
      ∧ unreadableSource (.djnz 7 0) started = some 0x107 ∧ (Instr.f2add 2 1 0).wellFormed = true
      ∧ started.cause = 0 ∧ (nextOf started (exec (.djnz 7 0) started)).cause = 3 := by decide +kernel

/-- `InstructionFrame`: an instruction of every family that raises nothing. -/
theorem witness_InstructionFrame :
    ∀ i ∈ ([.nop, .halt, .djnz 0 3, .stfm 31 0 3984, .fpinv 0 .a 0 .a, .f2cmov 1 2, .f2invn 0 0 32, .xdbladd 0 2 4 6,
        .get4iso 0 0 29, .jinvM24 31 30, .geta 1 2 3 4] : List Instr),
      raises Config.core i full = none := by decide +kernel

/-- `Advance`: each of its five ways. -/
theorem witness_Advance :
    (nextOf full (exec (.xdbl 31 0 0) full)).run = .fault ∧ (nextOf full (exec .halt full)).run = .done
      ∧ (nextOf full (exec (.jmp 65535) full)).pc = 65535 ∧ (nextOf full (exec (.djnz 0 7) full)).pc = 7
      ∧ (nextOf full (exec (.djnz 0 7) (full.setCounter 0 1))).pc = 1 ∧ full.run = .running := by decide +kernel

/-- `AddiResult`, `DjnzResult`: a counter that is readable and one that is not. -/
theorem witness_AddiResult : (full.counter 7).valid = true ∧ (started.counter 7).valid = false := by decide +kernel

theorem witness_DjnzResult :
    (full.counter 0).valid = true ∧ ((full.setCounter 0 1).counter 0).val = 1 ∧ (started.counter 7).valid = false := by
  decide +kernel

/-- `JmpResult`: a target just outside IMEM, and a jump to itself at the last index. -/
theorem witness_JmpResult :
    started.run = .running ∧ Config.core.imemWords ≤ (1024 : BitVec 16).toNat
      ∧ (atWord started 1023 0x140003FF).pc = (1023 : BitVec 16).toNat
      ∧ (atWord started 1023 0x140003FF).pc < Config.core.imemWords
      ∧ decode ((atWord started 1023 0x140003FF).wordAt 1023) = some (.jmp 1023) := by decide +kernel

/-- `LdfResult`, at the last address that fits, with the largest value. -/
theorem witness_LdfResult :
    let s := filled full 3986 (leBytes 55 (Config.core.p - 1) ++ leBytes 55 0)
    (s.counter 0).valid = true ∧ s.address 0 3986 + 2 * Config.core.nBytes ≤ Config.core.dmemBytes
      ∧ s.numberAt (s.address 0 3986) Config.core.nBytes < Config.core.p
      ∧ s.numberAt (s.address 0 3986 + Config.core.nBytes) Config.core.nBytes < Config.core.p := by decide +kernel

theorem witness_LdfmResult :
    let s := filled full 3984 (leBytes 56 (Config.core.p - 1) ++ leBytes 56 0)
    (s.counter 0).valid = true ∧ s.address 0 3984 + 2 * Config.core.mBytes ≤ Config.core.dmemBytes
      ∧ s.numberAt (s.address 0 3984) Config.core.mBytes < Config.core.p
      ∧ s.numberAt (s.address 0 3984 + Config.core.mBytes) Config.core.mBytes < Config.core.p := by decide +kernel

/-- `LoadTraps`: one byte too far; the first element exactly `P`; the second element exactly `P`; for both widths. -/
theorem witness_LoadTraps :
    (full.counter 0).valid = true ∧ Config.core.dmemBytes < full.address 0 3987 + 2 * Config.core.nBytes
      ∧ Config.core.dmemBytes < full.address 0 3985 + 2 * Config.core.mBytes
      ∧ Config.core.p ≤ (filled full 0 (leBytes 55 Config.core.p)).numberAt 0 Config.core.nBytes
      ∧ Config.core.p ≤ (filled full 0 (leBytes 56 Config.core.p)).numberAt 0 Config.core.mBytes
      ∧ (let s := filled full 0 (leBytes 55 (Config.core.p - 1) ++ leBytes 55 Config.core.p)
        s.numberAt 0 Config.core.nBytes < Config.core.p ∧ Config.core.p ≤ s.numberAt (0 + Config.core.nBytes) Config.core.nBytes)
      ∧ (let s := filled full 0 (leBytes 56 (Config.core.p - 1) ++ leBytes 56 Config.core.p)
        s.numberAt 0 Config.core.mBytes < Config.core.p ∧ Config.core.p ≤ s.numberAt (0 + Config.core.mBytes) Config.core.mBytes)
      ∧ full.address 0 0 = 0 := by decide +kernel

/-- `StfResult`, `StfmResult`, `SelstResult`: the last address that fits and the first that does not. -/
theorem witness_StfResult :
    full.regHolds 31 { a := 31, b := 32 } ∧ (full.counter 0).valid = true
      ∧ full.address 0 3986 + 2 * Config.core.nBytes ≤ Config.core.dmemBytes
      ∧ Config.core.dmemBytes < full.address 0 3987 + 2 * Config.core.nBytes := ⟨full_regHolds 31, by decide +kernel⟩

theorem witness_StfmResult :
    full.regHolds 31 { a := 31, b := 32 } ∧ (full.counter 0).valid = true
      ∧ full.address 0 3984 + 2 * Config.core.mBytes ≤ Config.core.dmemBytes
      ∧ Config.core.dmemBytes < full.address 0 3985 + 2 * Config.core.mBytes := ⟨full_regHolds 31, by decide +kernel⟩

theorem witness_SelstResult :
    full.vsel = true ∧ (full.counter 0).valid = true
      ∧ full.address 0 4088 + Config.core.wordBytes ≤ Config.core.dmemBytes
      ∧ Config.core.dmemBytes < full.address 0 4089 + Config.core.wordBytes := by decide +kernel

/-- `SelldResult`: both selectors at the last address, a word that is none, and an address too far. -/
theorem witness_SelldResult :
    (full.counter 0).valid = true ∧ full.address 0 4088 + Config.core.wordBytes ≤ Config.core.dmemBytes
      ∧ (filled full 4088 (List.replicate 8 0xFF)).bytesAt 4088 Config.core.wordBytes = List.replicate Config.core.wordBytes 0xFF
      ∧ (filled full 4088 (List.replicate 8 0x00)).bytesAt 4088 Config.core.wordBytes = List.replicate Config.core.wordBytes 0x00
      ∧ (filled full 4088 (0xFE :: List.replicate 7 0xFF)).bytesAt 4088 Config.core.wordBytes ≠ List.replicate Config.core.wordBytes 0x00
      ∧ (filled full 4088 (0xFE :: List.replicate 7 0xFF)).bytesAt 4088 Config.core.wordBytes ≠ List.replicate Config.core.wordBytes 0xFF
      ∧ Config.core.dmemBytes < full.address 0 4089 + Config.core.wordBytes := by decide +kernel

/-- `StoreLoadRoundTrips`: its first clause has the hypotheses of `LdfResult`; its second: -/
theorem witness_StoreLoadRoundTrips :
    full.regHolds 31 { a := 31, b := 32 } ∧ Fp2.reduced Config.core { a := 31, b := 32 } ∧ (full.counter 0).valid = true
      ∧ full.address 0 3984 + 2 * Config.core.mBytes ≤ Config.core.dmemBytes := ⟨full_regHolds 31, by decide +kernel⟩

/-- `FpBinaryResults`, `FpUnaryResults`, `FpinvResult`: halves that hold reduced values, one of them the largest. -/
theorem witness_FpBinaryResults :
    ((full.setHalf 2 .b (Config.core.p - 1)).half 2 .b).holds (Config.core.p - 1)
      ∧ ((full.setHalf 2 .b (Config.core.p - 1)).half 1 .a).holds 1 ∧ Config.core.p - 1 < Config.core.p ∧ 1 < Config.core.p := by
  unfold HalfReg.holds
  decide +kernel

theorem witness_FpUnaryResults : (full.half 0 .a).holds 0 ∧ 0 < Config.core.p := by
  unfold HalfReg.holds
  decide +kernel

theorem witness_FpinvResult : (full.half 0 .a).holds 0 ∧ (full.half 5 .b).holds 6 := by
  unfold HalfReg.holds
  decide +kernel

/-- `F2BinaryResults`, `F2PredicateResults`: two registers, and the same register twice. -/
theorem witness_F2BinaryResults :
    full.regHolds 3 { a := 3, b := 4 } ∧ full.regHolds 4 { a := 4, b := 5 }
      ∧ Fp2.reduced Config.core { a := 3, b := 4 } ∧ Fp2.reduced Config.core { a := 4, b := 5 } :=
  ⟨full_regHolds 3, full_regHolds 4, by decide +kernel⟩

theorem witness_F2UnaryResults : full.regHolds 3 { a := 3, b := 4 } ∧ Fp2.reduced Config.core { a := 3, b := 4 } :=
  ⟨full_regHolds 3, by decide +kernel⟩

theorem witness_F2invResult : full.regHolds 3 { a := 3, b := 4 } := full_regHolds 3

theorem witness_F2PredicateResults : full.regHolds 3 { a := 3, b := 4 } ∧ full.regHolds 4 { a := 4, b := 5 } :=
  ⟨full_regHolds 3, full_regHolds 4⟩

/-- `F2cmovResult`: with each selector. -/
theorem witness_F2cmovResult :
    full.regHolds 3 { a := 3, b := 4 } ∧ full.regHolds 4 { a := 4, b := 5 } ∧ full.vsel = true ∧ full.sel = .zero
      ∧ (full.setSel .allOnes).sel = .allOnes ∧ 0xABCD < Config.t431.r :=
  ⟨full_regHolds 3, full_regHolds 4, by decide +kernel⟩

theorem witness_F2inv3Result :
    (29 : FIdx) ≠ 30 ∧ (29 : FIdx) ≠ 31 ∧ (30 : FIdx) ≠ 31 ∧ full.regHolds 29 { a := 29, b := 30 }
      ∧ full.regHolds 30 { a := 30, b := 31 } ∧ full.regHolds 31 { a := 31, b := 32 } :=
  ⟨by decide, by decide, by decide, full_regHolds 29, full_regHolds 30, full_regHolds 31⟩

/-- `F2invnResult`: the longest vector, which fills the register file. -/
theorem witness_F2invnResult :
    ∃ (v : Fp2) (vs : List Fp2), (32 : BitVec 11).toNat ≤ 32 ∧ (0 : FIdx).val + (32 : BitVec 11).toNat ≤ 32
      ∧ (v :: vs).length = (32 : BitVec 11).toNat
      ∧ ∀ j (_ : j < (32 : BitVec 11).toNat) (hl : j < (v :: vs).length) (hr : (0 : FIdx).val + j < 32),
        full.regHolds ⟨(0 : FIdx).val + j, hr⟩ ((v :: vs)[j]) := by
  refine ⟨{ a := 0, b := 1 }, (List.range 31).map fun k => { a := k + 1, b := k + 2 }, by decide, by decide, by decide, ?_⟩
  intro j _ hl hr
  have h := full_regHolds ⟨(0 : FIdx).val + j, hr⟩
  cases j with
  | zero => exact h
  | succ j => simpa using h

/-- The pairs at 0, 2, 4 and 30 hold; the pair at 30 is the last one (XDBL to GET3ISO, EVAL3ISO, JINV). -/
theorem full_pairHolds (k : FIdx) (h : k ≠ 31) :
    full.pairHolds k { x := { a := k.val, b := k.val + 1 }, z := { a := k.val + 1, b := k.val + 2 } } := by
  refine ⟨full_regHolds k, ?_⟩
  have e : (nextReg k).val = k.val + 1 := by revert k; decide
  have hn := full_regHolds (nextReg k)
  rw [e] at hn
  exact hn

/-- Values and their stored images, of the examples of 45_curve.md and 46_isogeny.md: on E6, `A24plus = 8`, `C24 = 4`,
`A24minus = 4`, `A = 6`, `C = 1`; the coordinates `427+24i` and `5+7i` of P, `2+2i`, `2+3i` and `119+75i`; the two `GET4ISO`
coefficients `4` and `8`. They meet the hypotheses of the value laws of `XdblXtplResults` to `GetaResult`. -/
theorem witness_values :
    Config.t431.WellFormed ∧ Fp2.denotes Config.t431 { a := 192, b := 0 } 8 ∧ Fp2.denotes Config.t431 { a := 96, b := 0 } 4
      ∧ Fp2.denotes Config.t431 { a := 144, b := 0 } 6 ∧ Fp2.denotes Config.t431 { a := 24, b := 0 } 1
      ∧ Fp2.denotes Config.t431 { a := 335, b := 145 } ⟨427, 24⟩ ∧ Fp2.denotes Config.t431 { a := 120, b := 168 } ⟨5, 7⟩
      ∧ Fp2.denotes Config.t431 { a := 48, b := 48 } ⟨2, 2⟩ ∧ Fp2.denotes Config.t431 { a := 48, b := 72 } ⟨2, 3⟩
      ∧ Fp2.denotes Config.t431 { a := 270, b := 76 } ⟨119, 75⟩ := by
  unfold Fp2.denotes
  decide +kernel

theorem witness_XdblXtplResults :
    (30 : FIdx) ≠ 31 ∧ full.pairHolds 30 { x := { a := 30, b := 31 }, z := { a := 31, b := 32 } }
      ∧ full.pairHolds 0 { x := { a := 0, b := 1 }, z := { a := 1, b := 2 } } :=
  ⟨by decide, full_pairHolds 30 (by decide), full_pairHolds 0 (by decide)⟩

/-- `XdbleXtpleResults` has the same hypotheses. -/
theorem witness_XdbleXtpleResults :
    (30 : FIdx) ≠ 31 ∧ full.pairHolds 30 { x := { a := 30, b := 31 }, z := { a := 31, b := 32 } } :=
  ⟨by decide, full_pairHolds 30 (by decide)⟩

theorem witness_XaddXdbladdResults :
    (28 : FIdx) ≠ 31 ∧ (30 : FIdx) ≠ 31 ∧ (0 : FIdx) ≠ 31 ∧ (28 : FIdx).val + 2 ≤ (30 : FIdx).val
      ∧ full.pairHolds 28 { x := { a := 28, b := 29 }, z := { a := 29, b := 30 } }
      ∧ full.pairHolds 30 { x := { a := 30, b := 31 }, z := { a := 31, b := 32 } }
      ∧ full.regHolds 31 { a := 31, b := 32 } ∧ full.pairHolds 0 { x := { a := 0, b := 1 }, z := { a := 1, b := 2 } } :=
  ⟨by decide, by decide, by decide, by decide, full_pairHolds 28 (by decide), full_pairHolds 30 (by decide),
    full_regHolds 31, full_pairHolds 0 (by decide)⟩

/-- `IsogenyResults`: the destination pair just below the triple at its highest place, and just above it at its
lowest; the triple that EVAL4ISO reads; two adjacent pairs. -/
theorem witness_IsogenyResults :
    ((29 : FIdx).val ≤ 29 ∧ (27 : FIdx).val + 2 ≤ (29 : FIdx).val) ∧ ((0 : FIdx).val ≤ 29 ∧ (0 : FIdx).val + 3 ≤ (3 : FIdx).val)
      ∧ full.pairHolds 0 { x := { a := 0, b := 1 }, z := { a := 1, b := 2 } }
      ∧ full.tripleHolds 29 { k0 := { a := 29, b := 30 }, k1 := { a := 30, b := 31 }, k2 := { a := 31, b := 32 } }
      ∧ (28 : FIdx).val + 2 ≤ (30 : FIdx).val ∧ (30 : FIdx) ≠ 31 :=
  ⟨by decide, by decide, full_pairHolds 0 (by decide), ⟨full_regHolds 29, full_regHolds 30, full_regHolds 31⟩, by decide, by decide⟩

theorem witness_JinvResults :
    (30 : FIdx) ≠ 31 ∧ full.pairHolds 30 { x := { a := 30, b := 31 }, z := { a := 31, b := 32 } } :=
  ⟨by decide, full_pairHolds 30 (by decide)⟩

/-- The value clauses of `JinvResults`: E6 in its three forms with the common factor 1, and, for each clause on a
degenerate pair, one pair. -/
theorem witness_JinvResults_values :
    Config.t431.PrimeField ∧ Fp2.denotes Config.t431 { a := 192, b := 0 } (1 * (6 + 2 * 1))
      ∧ Fp2.denotes Config.t431 { a := 96, b := 0 } (1 * (4 * 1)) ∧ Fp2.denotes Config.t431 { a := 96, b := 0 } (1 * (6 - 2 * 1))
      ∧ (1 : Fp2Value Config.t431) ≠ 0
      ∧ ¬ ((1 : Fp2Value Config.t431) = 0 ∨ (6 : Fp2Value Config.t431) = 2 * 1 ∨ (6 : Fp2Value Config.t431) = -2 * 1)
      ∧ Fp2.denotes Config.t431 { a := 48, b := 0 } (2 * 1) ∧ Fp2.denotes Config.t431 { a := 383, b := 0 } (-2 * 1)
      ∧ Fp2.denotes Config.t431 { a := 0, b := 0 } 0 := by
  unfold Fp2.denotes
  exact ⟨show Nat.Prime 431 by norm_num, by decide +kernel⟩

/-- The value clauses of `GetaResult`: three coordinates that are not zero, and a zero. -/
theorem witness_GetaResult_values :
    Config.t431.PrimeField ∧ (⟨2, 2⟩ * ⟨2, 3⟩ * ⟨119, 75⟩ : Fp2Value Config.t431) ≠ 0
      ∧ (0 * ⟨2, 3⟩ * ⟨119, 75⟩ : Fp2Value Config.t431) = 0 ∧ Fp2.denotes Config.t431 { a := 0, b := 0 } 0 := by
  unfold Fp2.denotes
  exact ⟨show Nat.Prime 431 by norm_num, by decide +kernel⟩

theorem witness_GetaResult :
    full.regHolds 0 { a := 0, b := 1 } ∧ full.regHolds 1 { a := 1, b := 2 } ∧ full.regHolds 31 { a := 31, b := 32 } :=
  ⟨full_regHolds 0, full_regHolds 1, full_regHolds 31⟩

/-- `MpAddSub`, `DigitAlgorithms`, `FieldAddDatapath`, `MontgomeryLaws`, `MontReduce`: the largest operands. -/
theorem witness_MpAddSub : Config.core.WellFormed ∧ Config.core.r - 1 < Config.core.r ∧ 0 < Config.core.r := by decide +kernel

theorem witness_DigitAlgorithms : Config.t431.WellFormed ∧ 0xFFFF < Config.t431.r ∧ 0x01AE < Config.t431.r := by decide +kernel

theorem witness_MontReduce :
    Config.core.WellFormed ∧ Config.core.p * Config.core.r - 1 < Config.core.p * Config.core.r := by decide +kernel

theorem witness_MontgomeryLaws : Config.core.WellFormed ∧ Config.core.p - 1 < Config.core.p ∧ 0 < Config.core.p := by decide +kernel

theorem witness_FieldAddDatapath : Config.core.WellFormed ∧ Config.core.p - 1 < Config.core.p := by decide +kernel

/-- `FpinvLaw`, `F2invLaw`, `BatchedInversion`: T431, whose `P` is prime. -/
theorem witness_FpinvLaw :
    Config.t431.WellFormed ∧ Config.t431.PrimeField ∧ 0 < 430 ∧ 430 < Config.t431.p :=
  ⟨by decide +kernel, show Nat.Prime 431 by norm_num, by decide, by decide⟩

theorem witness_F2invLaw :
    Config.t431.WellFormed ∧ Config.t431.PrimeField ∧ Fp2.reduced Config.t431 { a := 0, b := 430 }
      ∧ ¬ Fp2.isZero { a := 0, b := 430 } :=
  ⟨by decide +kernel, show Nat.Prime 431 by norm_num, by decide, by decide⟩

theorem witness_BatchedInversion :
    Config.t431.WellFormed ∧ Config.t431.PrimeField
      ∧ (∀ x ∈ ([{ a := 48, b := 72 }, { a := 120, b := 168 }, { a := 0, b := 430 }] : List Fp2), x.reduced Config.t431 ∧ ¬ x.isZero)
      ∧ (∃ x ∈ ([{ a := 48, b := 72 }, { a := 0, b := 0 }] : List Fp2), x.reduced Config.t431 ∧ x.isZero) :=
  ⟨by decide +kernel, show Nat.Prime 431 by norm_num, by decide, by decide⟩

/-- `CurveCorners`: the point at infinity, the point `(0, 0)`, a point with `X = Z`, one with `X + Z = 0`, and the point
`(2 : 1)` with its representative `(4 : 2)`. -/
theorem witness_CurveCorners :
    Config.t431.WellFormed ∧ Fp2.reduced Config.t431 { a := 430, b := 0 } ∧ Fp2.isZero { a := 0, b := 0 }
      ∧ (f2add Config.t431 { a := 24, b := 0 } { a := 407, b := 0 }).isZero
      ∧ f2mul Config.t431 { a := 48, b := 0 } { a := 48, b := 0 } = f2mul Config.t431 { a := 96, b := 0 } { a := 24, b := 0 } := by
  decide +kernel

/-- `ResetState`: an address outside the store that is pending. -/
theorem witness_ResetState :
    ∀ addr bytes, pendingStore Config.core (atWord full 0 0x24000000) = some (addr, bytes) →
      4095 < addr ∨ addr + bytes.length ≤ 4095 := by
  intro addr bytes h
  have e : (pendingStore Config.core (atWord full 0 0x24000000)).map (fun x => x.1 + x.2.length) = some 110 := by decide +kernel
  rw [h] at e
  simp only [Option.map_some, Option.some.injEq] at e
  omega

/-- `RunControl`, `HostPort`, `TransitionTable`: a state of each kind, and locations at the edge. -/
theorem witness_RunControl :
    State.reset.run = .idle ∧ started.run = .running ∧ ({ started with run := .done } : State).run ≠ .running
      ∧ (3 : BitVec 32) ≠ 1 ∧ (3 : BitVec 32) ≠ 2 := by decide +kernel

/-- `StatusAndCsrs`: a state with each code of `STATE`, and the first index outside the map. -/
theorem witness_StatusAndCsrs :
    State.reset.run = .idle ∧ started.run = .running ∧ ({ started with run := .done } : State).run = .done
      ∧ ({ started with run := .fault } : State).run = .fault ∧ 9 ≤ 9 ∧ 5 ≤ 5 := by decide +kernel

theorem witness_HostPort :
    started.run = .running ∧ State.reset.run ≠ .running ∧ 1023 < Config.core.imemWords ∧ Config.core.imemWords ≤ 1024
      ∧ 4095 < Config.core.dmemBytes ∧ Config.core.dmemBytes ≤ 4096 ∧ (2 : Nat) ≠ 1 ∧ (2 : Nat) ≠ 3 := by decide +kernel

theorem witness_TransitionTable :
    ({ started with run := .fault } : State).run ≠ .running ∧ started.run = .running
      ∧ (nextOf started (step (atWord started 0 0x08000000))).run = .done
      ∧ (nextOf started (step (atWord started 0 0x04000000))).run = .running
      ∧ (nextOf started (step (atWord started 0 0x00000000))).run = .fault := by decide +kernel

/-- `StepKeepsInv`, `EventsKeepInv`: a running state that meets the invariant, with every register readable, bytes in
DMEM, and a store to run next. -/
theorem witness_StepKeepsInv : (atWord (filled full 0 [1, 2]) 1023 0x24000FFF).Inv Config.core where
  reduced := by
    intro k h
    cases h <;> revert k <;> decide +kernel
  clean := by
    refine ⟨?_, by decide +kernel, by decide +kernel⟩
    intro k h
    cases h <;> revert k <;> decide +kernel
  pc := by decide
  entry := by decide
  dmemWf := by decide +kernel
  dmemBelow := by decide +kernel
  imemWf := by decide +kernel
  imemBelow := by decide +kernel
  noFault := by decide
  fault := by decide
  idle := fun h => absurd h (by decide)

theorem witness_EventsKeepInv : (atWord (filled full 0 [1, 2]) 1023 0x24000FFF).Inv Config.core := witness_StepKeepsInv

/-- `ConstantTime`: two states that differ in a register, the selector, `INVZ` and a byte, at an `F2CMOV`; the steps
they take raise nothing. -/
theorem witness_ConstantTime :
    let s := atWord (filled full 0 [1]) 0 0x7C440000
    let t := atWord (filled ((((full.setHalf 4 .a 99).setHalf 4 .b 77).setSel .allOnes).noteInversion 0) 0 [2]) 0 0x7C440000
    SamePublic s t ∧ s ≠ t ∧ ¬ (nextOf s (step s)).dataFault ∧ ¬ (nextOf t (step t)).dataFault := by
  refine ⟨⟨rfl, rfl, fun _ => rfl, fun _ => rfl, ?_, by decide +kernel, rfl, rfl, rfl, rfl, by decide +kernel⟩, by decide +kernel, ?_, ?_⟩
  · intro k h
    cases h <;> revert k <;> decide +kernel
  · unfold State.dataFault
    decide +kernel
  · unfold State.dataFault
    decide +kernel

end Sys2Proof.Tests
end

section
/-!
PROOFS. Completion of the instructions that read field registers alone, and what is read back where they wrote.
-/
namespace Sys2Proof.Machine

/-! ## Instructions that read whole field registers and nothing else -/

theorem valid_of_mem_bothHalves {s : State} {ks : List FIdx} (h : ∀ k ∈ ks, ∀ x, (s.half k x).valid = true) :
    ∀ y ∈ bothHalves ks, (s.half y.1 y.2).valid = true :=
  fun y hy => h y.1 ((mem_bothHalves ks y.1 y.2).1 hy) y.2

/-- An instruction whose sources are readable field registers completes with its effect (R345, R41). -/
theorem exec_completes {i : Instr} {s : State} {w : Writes} {Q : State → Prop} (ks : List FIdx)
    (hwf : i.wellFormed = true) (hvalid : ∀ k ∈ ks, ∀ x, (s.half k x).valid = true)
    (hQ : Q (effect Config.core i s)) (hwrites : instrWrites Config.core i s = w := by rfl)
    (hks : i.sourceHalves = bothHalves ks := by rfl) (hsel : i.readsSel = false := by rfl)
    (hcounter : i.sourceCounter = none := by rfl) (haccess : i.access Config.core = none := by rfl)
    (hdata : dataTrap Config.core i s = none := by rfl) (hpc : pcAfter i s = s.pc + 1 := by rfl)
    (hhalt : i ≠ .halt := by nofun) :
    ∃ t, exec i s = .next t ∧ Completes w s t ∧ Q t := by
  have hnone : raises Config.core i s = none :=
    raises_eq_none_of_halves hwf (hks ▸ valid_of_mem_bothHalves hvalid) hsel hcounter haccess hdata
  exact ⟨_, exec_of_none hnone, completes_of_writes hnone hwrites hpc hhalt, hQ⟩

theorem valid_append {s : State} {js ks : List FIdx} (hj : ∀ k ∈ js, ∀ x, (s.half k x).valid = true)
    (hk : ∀ k ∈ ks, ∀ x, (s.half k x).valid = true) : ∀ k ∈ js ++ ks, ∀ x, (s.half k x).valid = true :=
  List.forall_mem_append.2 ⟨hj, hk⟩

theorem valid_singleton {s : State} {k : FIdx} {v : Fp2} (h : s.regHolds k v) :
    ∀ j ∈ [k], ∀ x, (s.half j x).valid = true :=
  List.forall_mem_singleton.2 (valid_of_regHolds h)

theorem valid_cons {s : State} {k : FIdx} {ks : List FIdx} {v : Fp2} (h : s.regHolds k v)
    (hk : ∀ j ∈ ks, ∀ x, (s.half j x).valid = true) : ∀ j ∈ k :: ks, ∀ x, (s.half j x).valid = true :=
  List.forall_mem_cons.2 ⟨valid_of_regHolds h, hk⟩

theorem valid_of_tripleHolds {s : State} {k : FIdx} {v : Triple} (h : s.tripleHolds k v) :
    ∀ j ∈ tripleRegs k, ∀ x, (s.half j x).valid = true :=
  valid_cons h.1 (valid_cons h.2.1 (valid_singleton h.2.2))

theorem regHolds_setReg_self (s : State) (k : FIdx) (v : Fp2) : (s.setReg k v).regHolds k v :=
  (regHolds_setReg s k v k v).2 (if_pos rfl ▸ rfl)

/-! ## Register groups that share no register (R115) -/

/-- Two register ranges inside the register file, one after the other, share no register (R33, R115). -/
theorem not_mem_vectorRegs_of_disjoint {j k : FIdx} {m n : Nat} (hj : j.val + m ≤ 32) (hk : k.val + n ≤ 32)
    (hd : j.val + m ≤ k.val ∨ k.val + n ≤ j.val) : ∀ i ∈ vectorRegs j m, i ∉ vectorRegs k n := by
  intro i hi hi'
  have h1 := (mem_vectorRegs hj).1 hi
  have h2 := (mem_vectorRegs hk).1 hi'
  omega

theorem pair_inside {k : FIdx} (h : k ≠ 31) : k.val + 2 ≤ 32 := by revert k; decide

/-- What a pair holds depends on its halves alone. -/
theorem pairHolds_congr {s t : State} {k : FIdx} {v : Pair} (h : ∀ j ∈ pairRegs k, ∀ x, t.half j x = s.half j x) :
    t.pairHolds k v ↔ s.pairHolds k v := by
  have hx := regHolds_congr (h k (by simp [pairRegs])) v.x
  have hz := regHolds_congr (h (nextReg k) (by simp [pairRegs])) v.z
  simp only [State.pairHolds, hx, hz]

/-- What a pair holds when `PC` has moved on after it was written. -/
theorem pairHolds_setPair_advance (s : State) (k : FIdx) (v : Pair) : (s.setPair k v).advance.pairHolds k v :=
  (pairHolds_advance _ k v).2 (pairHolds_setPair_self s k v)

/-- A pair keeps what was written to it when another pair is written. -/
theorem pairHolds_setPair_setPair_advance (s : State) {j k : FIdx} (u v : Pair) (hj : j ≠ 31) (hk : k ≠ 31)
    (hd : j.val + 2 ≤ k.val ∨ k.val + 2 ≤ j.val) : ((s.setPair j u).setPair k v).advance.pairHolds j u :=
  (pairHolds_advance _ j u).2 <| (pairHolds_congr fun i hi x => half_setPair _ k v i x
    (not_mem_vectorRegs_of_disjoint (n := 2) (pair_inside hj) (pair_inside hk) hd i hi)).2
    (pairHolds_setPair_self s j u)

/-- A pair keeps what was written to it when a triple is written. -/
theorem pairHolds_setPair_setTriple_advance (s : State) {j k : FIdx} (u : Pair) (v : Triple) (hj : j ≠ 31)
    (hk : k.val ≤ 29) (hd : j.val + 2 ≤ k.val ∨ k.val + 3 ≤ j.val) :
    ((s.setPair j u).setTriple k v).advance.pairHolds j u :=
  (pairHolds_advance _ j u).2 <| (pairHolds_congr fun i hi x => half_setTriple _ k v i x
    (not_mem_vectorRegs_of_disjoint (n := 3) (pair_inside hj) (by omega) hd i hi)).2 (pairHolds_setPair_self s j u)

theorem tripleRegs_eq (k : FIdx) : tripleRegs k = [k, k + 1, k + 2] := by revert k; decide

theorem tripleOk_of_le {k : FIdx} (h : k.val ≤ 29) : tripleOk k = true := decide_eq_true h

theorem disjoint_of_le {j k : FIdx} {m n : Nat} (h : j.val + m ≤ k.val ∨ k.val + n ≤ j.val) :
    disjoint j m k n = true := by
  simpa [disjoint] using h

theorem noteInversion_invz_iff (s : State) (n : Nat) : (s.noteInversion n).invz = true ↔ s.invz = true ∨ n = 0 := by
  simp

/-- What an instruction that inverts leaves: the result, and the sticky `INVZ` (R45). -/
theorem setReg_noteInversion_advance (s : State) (rd : FIdx) (v : Fp2) (n : Nat) :
    ((s.setReg rd v).noteInversion n).advance.regHolds rd v
      ∧ (((s.setReg rd v).noteInversion n).advance.invz = true ↔ s.invz = true ∨ n = 0) :=
  ⟨regHolds_setReg_self s rd v, noteInversion_invz_iff (s.setReg rd v) n⟩

end Sys2Proof.Machine
end

section
/-!
PROOFS. O30: the GF(p^2) sum, difference and product (44_fp2.md).
-/
namespace Sys2Proof.Machine

/-! ## F2ADD, F2SUB, F2MUL -/

theorem f2add_eq_mod {c : Config} {x y : Fp2} (hx : x.reduced c) (hy : y.reduced c) :
    f2add c x y = { a := (x.a + y.a) % c.p, b := (x.b + y.b) % c.p } := by
  simp only [f2add, fpadd_eq_mod hx.1 hy.1, fpadd_eq_mod hx.2 hy.2]

theorem f2sub_eq_mod {c : Config} {x y : Fp2} (hx : x.reduced c) (hy : y.reduced c) :
    f2sub c x y = { a := (x.a + c.p - y.a) % c.p, b := (x.b + c.p - y.b) % c.p } := by
  simp only [f2sub, fpsub_eq_mod hx.1 hy.1, fpsub_eq_mod hx.2 hy.2]

/-- The real half of a product, `(ac - bd) * R^-1` modulo `P` (R233). -/
theorem f2mul_a_eq_emod {c : Config} (h : c.WellFormed) (x y : Fp2) :
    ((f2mul c x y).a : Int) = ((x.a : Int) * y.a - x.b * y.b) * c.rInv % c.p := by
  refine int_eq_emod (fpsub_lt (fpmul_lt h _ _) (fpmul_lt h _ _)) ?_
  rw [f2mul, cast_fpsub (fpmul_lt h _ _), cast_fpmul, cast_fpmul]
  push_cast
  ring

/-- The imaginary half of a product, `(ad + bc) * R^-1` modulo `P` (R233). -/
theorem f2mul_b_eq_emod {c : Config} (h : c.WellFormed) (x y : Fp2) :
    ((f2mul c x y).b : Int) = ((x.a : Int) * y.b + x.b * y.a) * c.rInv % c.p := by
  refine int_eq_emod (fpadd_lt (fpmul_lt h _ _) (fpmul_lt h _ _)) ?_
  rw [f2mul, cast_fpadd, cast_fpmul, cast_fpmul]
  push_cast
  ring

/-- Settles O30: each completes with the effect of its row, and the halves are the ones of `f2add`, `f2sub`, `f2mul`. -/
theorem f2BinaryResults : Obligations.F2BinaryResults := by
  intro rd ra rb s x y hx hy hxr hyr
  have hvalid := valid_cons hx (valid_singleton hy)
  refine ⟨exec_completes [ra, rb] rfl hvalid ?_, exec_completes [ra, rb] rfl hvalid ?_, ?_⟩
  · rw [← f2add_eq_mod hxr hyr, effect, reg_of_regHolds hx, reg_of_regHolds hy]
    exact regHolds_setReg_self s rd _
  · rw [← f2sub_eq_mod hxr hyr, effect, reg_of_regHolds hx, reg_of_regHolds hy]
    exact regHolds_setReg_self s rd _
  · obtain ⟨t, hexec, hcompl, hreg⟩ := exec_completes (i := .f2mul rd ra rb)
      (Q := fun t => t.regHolds rd (f2mul Config.core (s.reg ra) (s.reg rb))) [ra, rb] rfl hvalid
      (regHolds_setReg_self s rd _)
    rw [reg_of_regHolds hx, reg_of_regHolds hy] at hreg
    exact ⟨t, _, hexec, hcompl, hreg, f2mul_a_eq_emod Config.core_wellFormed x y,
      f2mul_b_eq_emod Config.core_wellFormed x y⟩

end Sys2Proof.Machine
end

section
/-!
PROOFS. O37, O39, O40: the curve and isogeny instructions (45_curve.md, 46_isogeny.md). Each value law follows its
sequence step for step through the laws of Laws/Value.lean and compares the result with the closed form by `ring`.
-/
namespace Sys2Proof.Machine

variable {c : Config}

/-! ## Curve points (R271, R273, R275) -/

theorem denotes_xdbl_x (h : c.WellFormed) {p k : Pair} {X Z L : Fp2Value c} (hX : p.x.denotes c X)
    (hZ : p.z.denotes c Z) (hL : k.z.denotes c L) :
    (xdbl c p k).x.denotes c (L * (X - Z) ^ 2 * (X + Z) ^ 2) := by
  have diff := denotes_f2sqr h (denotes_f2sub hX hZ)
  have sum := denotes_f2sqr h (denotes_f2add hX hZ)
  exact denotes_congr (denotes_f2mul h sum (denotes_f2mul h hL diff)) (by ring)

theorem denotes_xdbl_z (h : c.WellFormed) {p k : Pair} {X Z K L : Fp2Value c} (hX : p.x.denotes c X)
    (hZ : p.z.denotes c Z) (hK : k.x.denotes c K) (hL : k.z.denotes c L) :
    (xdbl c p k).z.denotes c (4 * X * Z * (L * (X - Z) ^ 2 + K * (4 * X * Z))) := by
  have diff := denotes_f2sqr h (denotes_f2sub hX hZ)
  have sum := denotes_f2sqr h (denotes_f2add hX hZ)
  have fourXZ := denotes_f2sub sum diff
  exact denotes_congr
    (denotes_f2mul h (denotes_f2add (denotes_f2mul h hL diff) (denotes_f2mul h hK fourXZ)) fourXZ) (by ring)

/-- The two results of R273, with `u` and `v` as the rule's comment has them. -/
theorem denotes_xtpl (h : c.WellFormed) {p k : Pair} {X Z K L u v : Fp2Value c} (hX : p.x.denotes c X)
    (hZ : p.z.denotes c Z) (hK : k.x.denotes c K) (hL : k.z.denotes c L)
    (hu : u = K * (X - Z) ^ 4 - L * (X + Z) ^ 4)
    (hv : v = 2 * (X ^ 2 - Z ^ 2) * (L * (X + Z) ^ 2 - K * (X - Z) ^ 2)) :
    (xtpl c p k).x.denotes c (2 * X * (u + v) ^ 2) ∧ (xtpl c p k).z.denotes c (2 * Z * (u - v) ^ 2) := by
  have diff := denotes_f2sub hX hZ
  have diff2 := denotes_f2sqr h diff
  have sum := denotes_f2add hX hZ
  have sum2 := denotes_f2sqr h sum
  have twoX := denotes_f2add diff sum
  have twoZ := denotes_f2sub sum diff
  have cross := denotes_f2sub (denotes_f2sub (denotes_f2sqr h twoX) sum2) diff2
  have sumL := denotes_f2mul h sum2 hL
  have diffK := denotes_f2mul h hK diff2
  have hu' := denotes_f2sub (denotes_f2mul h diff2 diffK) (denotes_f2mul h sum2 sumL)
  have hv' := denotes_f2mul h cross (denotes_f2sub sumL diffK)
  subst hu hv
  constructor
  · exact denotes_congr (denotes_f2mul h twoX (denotes_f2sqr h (denotes_f2add hu' hv'))) (by ring)
  · exact denotes_congr (denotes_f2mul h twoZ (denotes_f2sqr h (denotes_f2sub hu' hv'))) (by ring)

/-- The two results of R275, with `u` and `v` the products it forms. -/
theorem denotes_xadd (h : c.WellFormed) {p q : Pair} {x : Fp2} {XP ZP XQ ZQ D u v : Fp2Value c}
    (hXP : p.x.denotes c XP) (hZP : p.z.denotes c ZP) (hXQ : q.x.denotes c XQ) (hZQ : q.z.denotes c ZQ)
    (hD : x.denotes c D) (hu : u = (XP + ZP) * (XQ - ZQ)) (hv : v = (XP - ZP) * (XQ + ZQ)) :
    (xadd c p q x).x.denotes c ((u + v) ^ 2) ∧ (xadd c p q x).z.denotes c (D * (u - v) ^ 2) := by
  have hu' := denotes_f2mul h (denotes_f2add hXP hZP) (denotes_f2sub hXQ hZQ)
  have hv' := denotes_f2mul h (denotes_f2sub hXP hZP) (denotes_f2add hXQ hZQ)
  subst hu hv
  constructor
  · exact denotes_f2sqr h (denotes_f2add hu' hv')
  · exact denotes_congr (denotes_f2mul h (denotes_f2sqr h (denotes_f2sub hu' hv')) hD) (mul_comm _ _)

/-! ## Isogenies (R301 to R304) -/

/-- `2y^2` squared, the way R301 forms each coefficient of the curve. -/
theorem denotes_sqr_double_sqr (h : c.WellFormed) {y : Fp2} {Y : Fp2Value c} (hY : y.denotes c Y) :
    (f2sqr c (f2add c (f2sqr c y) (f2sqr c y))).denotes c (4 * Y ^ 4) := by
  have sqr := denotes_f2sqr h hY
  exact denotes_congr (denotes_f2sqr h (denotes_f2add sqr sqr)) (by ring)

theorem denotes_get4isoCurve (h : c.WellFormed) {p : Pair} {X Z : Fp2Value c} (hX : p.x.denotes c X)
    (hZ : p.z.denotes c Z) :
    (get4isoCurve c p).x.denotes c (4 * X ^ 4) ∧ (get4isoCurve c p).z.denotes c (4 * Z ^ 4) :=
  ⟨denotes_sqr_double_sqr h hX, denotes_sqr_double_sqr h hZ⟩

theorem denotes_get4isoCoeffs (h : c.WellFormed) {p : Pair} {X Z : Fp2Value c} (hX : p.x.denotes c X)
    (hZ : p.z.denotes c Z) :
    (get4isoCoeffs c p).k0.denotes c (4 * Z ^ 2) ∧ (get4isoCoeffs c p).k1.denotes c (X - Z)
      ∧ (get4isoCoeffs c p).k2.denotes c (X + Z) := by
  have sqr := denotes_f2sqr h hZ
  have double := denotes_f2add sqr sqr
  exact ⟨denotes_congr (denotes_f2add double double) (by ring), denotes_f2sub hX hZ, denotes_f2add hX hZ⟩

theorem denotes_get3isoCoeffs {p : Pair} {X Z : Fp2Value c} (hX : p.x.denotes c X) (hZ : p.z.denotes c Z) :
    (get3isoCoeffs c p).x.denotes c (X - Z) ∧ (get3isoCoeffs c p).z.denotes c (X + Z) :=
  ⟨denotes_f2sub hX hZ, denotes_f2add hX hZ⟩

/-- The curve of R303, multiplied out. -/
theorem denotes_get3isoCurve (h : c.WellFormed) {p : Pair} {X Z : Fp2Value c} (hX : p.x.denotes c X)
    (hZ : p.z.denotes c Z) :
    (get3isoCurve c p).x.denotes c ((3 * X - Z) ^ 3 * (X + Z))
      ∧ (get3isoCurve c p).z.denotes c ((3 * X + Z) ^ 3 * (X - Z)) := by
  have k0 := denotes_f2sub hX hZ
  have t0 := denotes_f2sqr h k0
  have k1 := denotes_f2add hX hZ
  have t1 := denotes_f2sqr h k1
  have cross := denotes_f2sub (denotes_f2sqr h (denotes_f2add k0 k1)) (denotes_f2add t0 t1)
  have t2 := denotes_f2add t1 cross
  have t3 := denotes_f2add cross t0
  have t4 := denotes_f2add t0 t3
  have a24minus := denotes_f2mul h t2 (denotes_f2add t1 (denotes_f2add t4 t4))
  have t5 := denotes_f2add t1 t2
  have product := denotes_f2mul h t3 (denotes_f2add t0 (denotes_f2add t5 t5))
  constructor
  · exact denotes_congr a24minus (by ring)
  · exact denotes_congr (denotes_f2add a24minus (denotes_f2sub product a24minus)) (by ring)

/-- The image point of R302, with `u`, `v` and `w` the values it forms. -/
theorem denotes_eval4iso (h : c.WellFormed) {p : Pair} {k : Triple} {X Z K0 K1 K2 u v w : Fp2Value c}
    (hX : p.x.denotes c X) (hZ : p.z.denotes c Z) (hK0 : k.k0.denotes c K0) (hK1 : k.k1.denotes c K1)
    (hK2 : k.k2.denotes c K2) (hu : u = (X + Z) * K1 + (X - Z) * K2) (hv : v = (X + Z) * K1 - (X - Z) * K2)
    (hw : w = (X + Z) * (X - Z) * K0) :
    (eval4iso c p k).x.denotes c ((u ^ 2 + w) * u ^ 2) ∧ (eval4iso c p k).z.denotes c ((v ^ 2 - w) * v ^ 2) := by
  have sum := denotes_f2add hX hZ
  have diff := denotes_f2sub hX hZ
  have sumK1 := denotes_f2mul h sum hK1
  have diffK2 := denotes_f2mul h diff hK2
  have hw' := denotes_f2mul h (denotes_f2mul h sum diff) hK0
  have u2 := denotes_f2sqr h (denotes_f2add sumK1 diffK2)
  have v2 := denotes_f2sqr h (denotes_f2sub sumK1 diffK2)
  subst hu hv hw
  constructor
  · exact denotes_f2mul h (denotes_f2add u2 hw') u2
  · exact denotes_congr (denotes_f2mul h v2 (denotes_f2sub v2 hw')) (mul_comm _ _)

/-- The image point of R304. -/
theorem denotes_eval3iso (h : c.WellFormed) {p k : Pair} {X Z K0 K1 : Fp2Value c} (hX : p.x.denotes c X)
    (hZ : p.z.denotes c Z) (hK0 : k.x.denotes c K0) (hK1 : k.z.denotes c K1) :
    (eval3iso c p k).x.denotes c (X * ((X + Z) * K0 + (X - Z) * K1) ^ 2)
      ∧ (eval3iso c p k).z.denotes c (Z * ((X - Z) * K1 - (X + Z) * K0) ^ 2) := by
  have sumK0 := denotes_f2mul h (denotes_f2add hX hZ) hK0
  have diffK1 := denotes_f2mul h (denotes_f2sub hX hZ) hK1
  exact ⟨denotes_f2mul h hX (denotes_f2sqr h (denotes_f2add sumK0 diffK1)),
    denotes_f2mul h hZ (denotes_f2sqr h (denotes_f2sub diffK1 sumK0))⟩

/-- Settles O37: completion through `exec_completes`, the values through `denotes_xdbl_x`, `denotes_xdbl_z` and
`denotes_xtpl`. -/
theorem xdblXtplResults : Obligations.XdblXtplResults := by
  refine ⟨?_, ?_⟩
  · intro rd ra rb s p k hrd hra hrb hp hk
    have hvalid := valid_append (valid_of_pairHolds hp) (valid_of_pairHolds hk)
    have hwf : (pairOk rd && pairOk ra && pairOk rb) = true := by
      simp [pairOk_of_ne hrd, pairOk_of_ne hra, pairOk_of_ne hrb]
    rw [← pair_of_pairHolds hp, ← pair_of_pairHolds hk]
    exact ⟨exec_completes (pairRegs ra ++ pairRegs rb) hwf hvalid (pairHolds_setPair_advance s rd _),
      exec_completes (pairRegs ra ++ pairRegs rb) hwf hvalid (pairHolds_setPair_advance s rd _)⟩
  · intro c h p k X Z K L hX hZ hK hL
    exact ⟨denotes_xdbl_x h hX hZ hL, denotes_xdbl_z h hX hZ hK hL,
      fun u v hu hv => denotes_xtpl h hX hZ hK hL hu hv⟩

/-- Settles O39: the destinations of XDBLADD share no register, so the doubled point stays when the sum is written. -/
theorem xaddXdbladdResults : Obligations.XaddXdbladdResults := by
  refine ⟨?_, ?_, ?_⟩
  · intro rd ra rb rc s p q x hrd hra hrb hp hq hx
    rw [← pair_of_pairHolds hp, ← pair_of_pairHolds hq, ← reg_of_regHolds hx]
    exact exec_completes (pairRegs ra ++ pairRegs rb ++ [rc])
      (by simp [Instr.wellFormed, pairOk_of_ne hrd, pairOk_of_ne hra, pairOk_of_ne hrb])
      (valid_append (valid_append (valid_of_pairHolds hp) (valid_of_pairHolds hq)) (valid_singleton hx))
      (pairHolds_setPair_advance s rd _)
  · intro rd ra rb rc s p q k x hrd hra hrc hd hp hq hx hk
    rw [← pair_of_pairHolds hp, ← pair_of_pairHolds hq, ← reg_of_regHolds hx, ← pair_of_pairHolds hk]
    exact exec_completes (pairRegs rd ++ pairRegs ra ++ [rb] ++ pairRegs rc)
      (by simp [Instr.wellFormed, pairOk_of_ne hrd, pairOk_of_ne hra, pairOk_of_ne hrc, disjoint_of_le hd])
      (valid_append (valid_append (valid_append (valid_of_pairHolds hp) (valid_of_pairHolds hq)) (valid_singleton hx))
        (valid_of_pairHolds hk))
      ⟨pairHolds_setPair_setPair_advance s _ _ hrd hra hd, pairHolds_setPair_advance _ ra _⟩
  · intro c h p q x XP ZP XQ ZQ D u v hXP hZP hXQ hZQ hD hu hv
    exact denotes_xadd h hXP hZP hXQ hZQ hD hu hv

/-- Settles O40: completion through `exec_completes`, the values through one law for each of the sequences of R301 to
R304. -/
theorem isogenyResults : Obligations.IsogenyResults := by
  refine ⟨?_, ?_, ?_, ?_, ?_⟩
  · intro rd ra rc s p hrd hra hrc hd hp
    rw [← pair_of_pairHolds hp]
    exact exec_completes (pairRegs ra)
      (by simp [Instr.wellFormed, pairOk_of_ne hrd, pairOk_of_ne hra, tripleOk_of_le hrc, disjoint_of_le hd])
      (valid_of_pairHolds hp)
      ⟨pairHolds_setPair_setTriple_advance s _ _ hrd hrc hd,
        (tripleHolds_advance _ _ _).2 (tripleHolds_setTriple_self _ rc _)⟩
      (by rw [instrWrites, Instr.destHalves, tripleRegs_eq]; rfl)
  · intro rd ra rb s p k hrd hra hrb hp hk
    rw [← pair_of_pairHolds hp, ← triple_of_tripleHolds hk]
    exact exec_completes (pairRegs ra ++ tripleRegs rb)
      (by simp [Instr.wellFormed, pairOk_of_ne hrd, pairOk_of_ne hra, tripleOk_of_le hrb])
      (valid_append (valid_of_pairHolds hp) (valid_of_tripleHolds hk)) (pairHolds_setPair_advance s rd _)
  · intro rd ra rc s p hrd hra hrc hd hp
    rw [← pair_of_pairHolds hp]
    exact exec_completes (pairRegs ra)
      (by simp [Instr.wellFormed, pairOk_of_ne hrd, pairOk_of_ne hra, pairOk_of_ne hrc, disjoint_of_le hd])
      (valid_of_pairHolds hp)
      ⟨pairHolds_setPair_setPair_advance s _ _ hrd hrc hd, pairHolds_setPair_advance _ rc _⟩
  · intro rd ra rb s p k hrd hra hrb hp hk
    rw [← pair_of_pairHolds hp, ← pair_of_pairHolds hk]
    exact exec_completes (pairRegs ra ++ pairRegs rb)
      (by simp [Instr.wellFormed, pairOk_of_ne hrd, pairOk_of_ne hra, pairOk_of_ne hrb])
      (valid_append (valid_of_pairHolds hp) (valid_of_pairHolds hk)) (pairHolds_setPair_advance s rd _)
  · intro c h p X Z hX hZ
    obtain ⟨curve4X, curve4Z⟩ := denotes_get4isoCurve h hX hZ
    obtain ⟨coeff0, coeff1, coeff2⟩ := denotes_get4isoCoeffs h hX hZ
    obtain ⟨curve3X, curve3Z⟩ := denotes_get3isoCurve h hX hZ
    obtain ⟨coeffX, coeffZ⟩ := denotes_get3isoCoeffs hX hZ
    exact ⟨curve4X, curve4Z, coeff0, coeff1, coeff2, curve3X, curve3Z, coeffX, coeffZ,
      fun k K0 K1 K2 u v w hK0 hK1 hK2 hu hv hw => denotes_eval4iso h hX hZ hK0 hK1 hK2 hu hv hw,
      fun k K0 K1 hK0 hK1 => denotes_eval3iso h hX hZ hK0 hK1⟩

end Sys2Proof.Machine
end

section
/-!
PROOFS. O41, O42: the j-invariant and `get_A` (46_isogeny.md R305, R306), over the field that the represented values
are where `P` is prime.
-/
namespace Sys2Proof.Machine

variable {c : Config}

/-! ## GF(p^2) is a field where `P` is prime (R9, R11, R206, R235) -/

@[simp] theorem re_value (c : Config) (x : Fp2) : (x.value c).re = x.a * c.rInv := rfl

@[simp] theorem im_value (c : Config) (x : Fp2) : (x.value c).im = x.b * c.rInv := rfl

/-- The stored norm is the image of the norm of the value. -/
theorem cast_f2norm_eq_norm (h : c.WellFormed) (x : Fp2) :
    (f2norm c x : ZMod c.p) = (x.value c).norm * c.r := by
  rw [cast_f2norm, QuadraticAlgebra.norm_def, re_value, im_value]
  linear_combination (-(x.a ^ 2 + x.b ^ 2) * c.rInv : ZMod c.p) * cast_r_mul_rInv h

theorem neg_one_not_square (h : c.WellFormed) (hp : c.PrimeField) : ∀ r : ZMod c.p, r ^ 2 ≠ -1 + 0 * r := by
  have : Fact c.p.Prime := ⟨hp⟩
  intro r hr
  exact ZMod.mod_four_ne_three_of_sq_eq_neg_one (by rw [hr]; ring) h.p_mod

/-- Exponentiation by `P - 2` is inversion, with 0 for the inverse of 0 (R206). -/
theorem pow_sub_two_eq_inv (h : c.WellFormed) [Fact c.p.Prime] (z : ZMod c.p) : z ^ (c.p - 2) = z⁻¹ := by
  have h3 := h.three_le
  rcases eq_or_ne z 0 with rfl | hz
  · rw [inv_zero, zero_pow (by omega)]
  · refine eq_inv_of_mul_eq_one_left ?_
    rw [← pow_succ, show c.p - 2 + 1 = c.p - 1 by omega, ZMod.pow_card_sub_one_eq_one hz]

theorem cast_fpinv_f2norm (h : c.WellFormed) [Fact c.p.Prime] (x : Fp2) :
    (fpinv c (f2norm c x) : ZMod c.p) = (x.value c).norm⁻¹ * c.r := by
  rw [cast_fpinv, pow_sub_two_eq_inv h, cast_f2norm_eq_norm h, mul_assoc, cast_r_mul_rInv h, mul_one]

theorem two_ne_zero_value (h : c.WellFormed) : (2 : Fp2Value c) ≠ 0 := by
  intro h2
  have h3 := h.three_le
  have hre : (2 : ZMod c.p) = 0 := congrArg QuadraticAlgebra.re h2
  exact two_ne_zero (eq_of_cast_eq (c := c) (a := 2) (b := 0) (by omega) (by omega) (by exact_mod_cast hre))

/-- `f2inv` returns the image of the inverse, and the zero element for zero (R235). -/
theorem denotes_f2inv (h : c.WellFormed) [Fact c.p.Prime] {x : Fp2} {u : Fp2Value c} (hx : x.denotes c u) :
    (f2inv c x).denotes c u⁻¹ := by
  obtain ⟨-, rfl⟩ := hx
  refine ⟨below_f2inv h x, ?_⟩
  have hr := cast_r_mul_rInv h
  have hn := cast_fpinv_f2norm h x
  ext
  · rw [QuadraticAlgebra.re_inv, re_value, re_value, im_value, f2inv, cast_fpmul, hn]
    linear_combination (x.a * c.rInv * (x.value c).norm⁻¹ : ZMod c.p) * hr
  · rw [QuadraticAlgebra.im_inv, im_value, im_value, f2inv, cast_fpneg (fpmul_lt h _ _), cast_fpmul, hn]
    linear_combination (-x.b * c.rInv * (x.value c).norm⁻¹ : ZMod c.p) * hr

section primeField
variable [Fact c.p.Prime] [Fact (∀ r : ZMod c.p, r ^ 2 ≠ -1 + 0 * r)]

/-- The norm is zero exactly on the zero element. -/
theorem f2norm_eq_zero_iff (h : c.WellFormed) {x : Fp2} {u : Fp2Value c} (hx : x.denotes c u) :
    f2norm c x = 0 ↔ u = 0 := by
  obtain ⟨-, rfl⟩ := hx
  have hr : (c.r : ZMod c.p) ≠ 0 := left_ne_zero_of_mul_eq_one (cast_r_mul_rInv h)
  calc f2norm c x = 0 ↔ (f2norm c x : ZMod c.p) = 0 :=
        ⟨fun e => by rw [e, Nat.cast_zero],
          fun e => eq_of_cast_eq (f2norm_lt h x) h.p_pos (by rw [e, Nat.cast_zero])⟩
    _ ↔ (x.value c).norm = 0 := by rw [cast_f2norm_eq_norm h, mul_eq_zero, or_iff_left hr]
    _ ↔ x.value c = 0 := QuadraticAlgebra.norm_eq_zero_iff_eq_zero

end primeField

/-! ## The j-invariant (R305) -/

theorem denotes_jDenominator (h : c.WellFormed) {p : Pair} {A C : Fp2Value c} (hA : p.x.denotes c A)
    (hC : p.z.denotes c C) : (jDenominator c p).denotes c (C ^ 4 * (A ^ 2 - 4 * C ^ 2)) := by
  have a2 := denotes_f2sqr h hA
  have c2 := denotes_f2sqr h hC
  have diff := denotes_f2sub (denotes_f2sub (denotes_f2sub a2 (denotes_f2add c2 c2)) c2) c2
  exact denotes_congr (denotes_f2mul h diff (denotes_f2sqr h c2)) (by ring)

theorem denotes_jNumerator (h : c.WellFormed) {p : Pair} {A C : Fp2Value c} (hA : p.x.denotes c A)
    (hC : p.z.denotes c C) : (jNumerator c p).denotes c (256 * (A ^ 2 - 3 * C ^ 2) ^ 3) := by
  have a2 := denotes_f2sqr h hA
  have c2 := denotes_f2sqr h hC
  have diff := denotes_f2sub (denotes_f2sub a2 (denotes_f2add c2 c2)) c2
  have twice := denotes_f2add diff diff
  have four := denotes_f2add twice twice
  have cube := denotes_f2mul h four (denotes_f2sqr h four)
  have twiceCube := denotes_f2add cube cube
  exact denotes_congr (denotes_f2add twiceCube twiceCube) (by ring)

/-- The pair that form `.P24` recovers. -/
theorem denotes_acOfP24 {uv : Pair} {U V : Fp2Value c} (hU : uv.x.denotes c U) (hV : uv.z.denotes c V) :
    (acOfP24 c uv).x.denotes c (4 * U - 2 * V) ∧ (acOfP24 c uv).z.denotes c V := by
  have twice := denotes_f2add hU hU
  exact ⟨denotes_congr (denotes_f2sub (denotes_f2add twice twice) (denotes_f2add hV hV)) (by ring), hV⟩

/-- The pair that form `.M24` recovers. -/
theorem denotes_acOfM24 {uv : Pair} {U V : Fp2Value c} (hU : uv.x.denotes c U) (hV : uv.z.denotes c V) :
    (acOfM24 c uv).x.denotes c (2 * (V + U)) ∧ (acOfM24 c uv).z.denotes c (V - U) := by
  have sum := denotes_f2add hV hU
  exact ⟨denotes_congr (denotes_f2add sum sum) (by ring), denotes_f2sub hV hU⟩

section primeField
variable [Fact c.p.Prime] [Fact (∀ r : ZMod c.p, r ^ 2 ≠ -1 + 0 * r)]

/-- `jinv` is the quotient, with zero for a quotient by zero (R305). -/
theorem denotes_jinv (h : c.WellFormed) {p : Pair} {A C : Fp2Value c} (hA : p.x.denotes c A)
    (hC : p.z.denotes c C) :
    (jinv c p).denotes c ((C ^ 4 * (A ^ 2 - 4 * C ^ 2))⁻¹ * (256 * (A ^ 2 - 3 * C ^ 2) ^ 3)) :=
  denotes_f2mul h (denotes_f2inv h (denotes_jDenominator h hA hC)) (denotes_jNumerator h hA hC)

/-- The denominator is zero exactly on the degenerate coefficients. -/
theorem jDenominator_value_eq_zero_iff (A C : Fp2Value c) :
    C ^ 4 * (A ^ 2 - 4 * C ^ 2) = 0 ↔ C = 0 ∨ A = 2 * C ∨ A = -2 * C := by
  rw [show A ^ 2 - 4 * C ^ 2 = (A - 2 * C) * (A - -2 * C) by ring, mul_eq_zero, mul_eq_zero,
    pow_eq_zero_iff (by decide), sub_eq_zero, sub_eq_zero]

/-- A common factor of `A` and `C` leaves the invariant as it is (R305, R20). -/
theorem jinv_eq_of_scaled (h : c.WellFormed) {p q : Pair} {A C l : Fp2Value c} (hl : l ≠ 0) (hA : p.x.denotes c A)
    (hC : p.z.denotes c C) (hqA : q.x.denotes c (l * A)) (hqC : q.z.denotes c (l * C)) : jinv c q = jinv c p := by
  refine denotes_unique h (denotes_congr (denotes_jinv h hqA hqC) ?_) (denotes_jinv h hA hC)
  have hden : (l * C) ^ 4 * ((l * A) ^ 2 - 4 * (l * C) ^ 2) = l ^ 6 * (C ^ 4 * (A ^ 2 - 4 * C ^ 2)) := by ring
  have hnum : 256 * ((l * A) ^ 2 - 3 * (l * C) ^ 2) ^ 3 = l ^ 6 * (256 * (A ^ 2 - 3 * C ^ 2) ^ 3) := by ring
  rw [hden, hnum, inv_mul_eq_div, inv_mul_eq_div, mul_div_mul_left _ _ (pow_ne_zero 6 hl)]

/-- On the degenerate coefficients the result is the zero element. -/
theorem jinv_of_degenerate (h : c.WellFormed) {p : Pair} {A C : Fp2Value c} (hA : p.x.denotes c A)
    (hC : p.z.denotes c C) (hdeg : C = 0 ∨ A = 2 * C ∨ A = -2 * C) : jinv c p = { a := 0, b := 0 } := by
  have hj := denotes_jinv h hA hC
  rw [(jDenominator_value_eq_zero_iff A C).2 hdeg, inv_zero, zero_mul, denotes_zero_iff h] at hj
  exact congrArg₂ Fp2.mk hj.1 hj.2

/-- Elsewhere the result is the quotient. -/
theorem jinv_of_not_degenerate (h : c.WellFormed) {p : Pair} {A C : Fp2Value c} (hA : p.x.denotes c A)
    (hC : p.z.denotes c C) (hdeg : ¬ (C = 0 ∨ A = 2 * C ∨ A = -2 * C)) :
    ∃ j, (jinv c p).denotes c j ∧ j * (C ^ 4 * (A ^ 2 - 4 * C ^ 2)) = 256 * (A ^ 2 - 3 * C ^ 2) ^ 3 := by
  refine ⟨_, denotes_jinv h hA hC, ?_⟩
  rw [mul_right_comm, inv_mul_cancel₀ (mt (jDenominator_value_eq_zero_iff A C).1 hdeg), one_mul]

theorem four_mul_ne_zero (h : c.WellFormed) {l : Fp2Value c} (hl : l ≠ 0) : 4 * l ≠ 0 := by
  have h2 := two_ne_zero_value h
  rw [show (4 : Fp2Value c) * l = 2 * (2 * l) by ring]
  exact mul_ne_zero h2 (mul_ne_zero h2 hl)

/-- The form `.P24` gives the invariant of the curve its pair `(A+2C, 4C)` is of. -/
theorem jinv_acOfP24 (h : c.WellFormed) {p q : Pair} {A C l : Fp2Value c} (hl : l ≠ 0) (hA : p.x.denotes c A)
    (hC : p.z.denotes c C) (hx : q.x.denotes c (l * (A + 2 * C))) (hz : q.z.denotes c (l * (4 * C))) :
    jinv c (acOfP24 c q) = jinv c p := by
  obtain ⟨hac, hcc⟩ := denotes_acOfP24 hx hz
  exact jinv_eq_of_scaled h (four_mul_ne_zero h hl) hA hC (denotes_congr hac (by ring)) (denotes_congr hcc (by ring))

/-- The form `.M24` gives the invariant of the curve its pair `(A-2C, A+2C)` is of. -/
theorem jinv_acOfM24 (h : c.WellFormed) {p q : Pair} {A C l : Fp2Value c} (hl : l ≠ 0) (hA : p.x.denotes c A)
    (hC : p.z.denotes c C) (hx : q.x.denotes c (l * (A - 2 * C))) (hz : q.z.denotes c (l * (A + 2 * C))) :
    jinv c (acOfM24 c q) = jinv c p := by
  obtain ⟨hac, hcc⟩ := denotes_acOfM24 hx hz
  exact jinv_eq_of_scaled h (four_mul_ne_zero h hl) hA hC (denotes_congr hac (by ring)) (denotes_congr hcc (by ring))

end primeField

/-- Settles O41: the represented values are a field where `P` is prime, and `jinv` is a quotient there. -/
theorem jinvResults : Obligations.JinvResults := by
  refine ⟨?_, ?_⟩
  · intro rd ra s p hra hp
    have hwf := pairOk_of_ne hra
    have hvalid := valid_of_pairHolds hp
    rw [← pair_of_pairHolds hp]
    simp only [List.forall_mem_cons]
    refine ⟨?_, ?_, ?_, nofun⟩
    · exact exec_completes (pairRegs ra) hwf hvalid (setReg_noteInversion_advance s rd _ _)
    · exact exec_completes (pairRegs ra) hwf hvalid (setReg_noteInversion_advance s rd _ _)
    · exact exec_completes (pairRegs ra) hwf hvalid (setReg_noteInversion_advance s rd _ _)
  · intro c h p A C hA hC
    obtain ⟨hPx, hPz⟩ := denotes_acOfP24 hA hC
    obtain ⟨hMx, hMz⟩ := denotes_acOfM24 hA hC
    have hden := denotes_jDenominator h hA hC
    refine ⟨hden, denotes_jNumerator h hA hC, hPx, hPz, hMx, hMz, fun hp => ?_⟩
    have : Fact c.p.Prime := ⟨hp⟩
    have : Fact (∀ r : ZMod c.p, r ^ 2 ≠ -1 + 0 * r) := ⟨neg_one_not_square h hp⟩
    exact ⟨(f2norm_eq_zero_iff h hden).trans (jDenominator_value_eq_zero_iff A C), jinv_of_degenerate h hA hC,
      jinv_of_not_degenerate h hA hC, fun q l hl =>
        ⟨jinv_acOfP24 h hl hA hC, jinv_acOfM24 h hl hA hC, jinv_eq_of_scaled h hl hA hC⟩⟩

/-! ## get_A (R306) -/

theorem denotes_getADenominator (h : c.WellFormed) {xp xq xr : Fp2} {U V W : Fp2Value c} (hU : xp.denotes c U)
    (hV : xq.denotes c V) (hW : xr.denotes c W) : (getADenominator c xp xq xr).denotes c (4 * U * V * W) := by
  have product := denotes_f2mul h (denotes_f2mul h hU hV) hW
  have twice := denotes_f2add product product
  exact denotes_congr (denotes_f2add twice twice) (by ring)

/-- `get_A` is the quotient less the three coordinates, with zero for a quotient by zero (R306). -/
theorem denotes_getA (h : c.WellFormed) [Fact c.p.Prime] {xp xq xr : Fp2} {U V W : Fp2Value c} (hU : xp.denotes c U)
    (hV : xq.denotes c V) (hW : xr.denotes c W) :
    (getA c xp xq xr).denotes c ((1 - U * V - U * W - V * W) ^ 2 * (4 * U * V * W)⁻¹ - (U + V + W)) := by
  have sum := denotes_f2add hU hV
  have square := denotes_f2sqr h
    (denotes_f2sub (denotes_f2add (denotes_f2mul h hU hV) (denotes_f2mul h hW sum)) (denotes_f2one h))
  have inverse := denotes_f2inv h (denotes_getADenominator h hU hV hW)
  exact denotes_congr (denotes_f2sub (denotes_f2mul h square inverse) (denotes_f2add sum hW)) (by ring)

section primeField
variable [Fact c.p.Prime] [Fact (∀ r : ZMod c.p, r ^ 2 ≠ -1 + 0 * r)]

theorem getADenominator_value_eq_zero_iff (h : c.WellFormed) (U V W : Fp2Value c) :
    4 * U * V * W = 0 ↔ U * V * W = 0 := by
  have h2 := two_ne_zero_value h
  rw [show 4 * U * V * W = 2 * (2 * (U * V * W)) by ring, mul_eq_zero_iff_left h2, mul_eq_zero_iff_left h2]

/-- Where a coordinate is zero the result is minus their sum. -/
theorem denotes_getA_of_zero (h : c.WellFormed) {xp xq xr : Fp2} {U V W : Fp2Value c} (hU : xp.denotes c U)
    (hV : xq.denotes c V) (hW : xr.denotes c W) (h0 : U * V * W = 0) : (getA c xp xq xr).denotes c (-(U + V + W)) := by
  have hA := denotes_getA h hU hV hW
  rwa [(getADenominator_value_eq_zero_iff h U V W).2 h0, inv_zero, mul_zero, zero_sub] at hA

/-- Elsewhere the result and the three coordinates together are the quotient. -/
theorem denotes_getA_of_ne_zero (h : c.WellFormed) {xp xq xr : Fp2} {U V W : Fp2Value c} (hU : xp.denotes c U)
    (hV : xq.denotes c V) (hW : xr.denotes c W) (h0 : U * V * W ≠ 0) :
    ∃ A, (getA c xp xq xr).denotes c A
      ∧ (A + U + V + W) * (4 * U * V * W) = (1 - U * V - U * W - V * W) ^ 2 := by
  refine ⟨_, denotes_getA h hU hV hW, ?_⟩
  have hcancel := inv_mul_cancel₀ (mt (getADenominator_value_eq_zero_iff h U V W).1 h0)
  linear_combination (1 - U * V - U * W - V * W) ^ 2 * hcancel

end primeField

/-- Settles O42: the represented values are a field where `P` is prime, and `get_A` is a quotient less a sum there. -/
theorem getaResult : Obligations.GetaResult := by
  refine ⟨?_, ?_⟩
  · intro rd ra rb rc s xp xq xr hp hq hr
    rw [← reg_of_regHolds hp, ← reg_of_regHolds hq, ← reg_of_regHolds hr]
    exact exec_completes [ra, rb, rc] rfl (valid_cons hp (valid_cons hq (valid_singleton hr)))
      (setReg_noteInversion_advance s rd _ _)
  · intro c h xp xq xr U V W hU hV hW
    have hden := denotes_getADenominator h hU hV hW
    refine ⟨hden, fun hp => ?_⟩
    have : Fact c.p.Prime := ⟨hp⟩
    have : Fact (∀ r : ZMod c.p, r ^ 2 ≠ -1 + 0 * r) := ⟨neg_one_not_square h hp⟩
    exact ⟨(f2norm_eq_zero_iff h hden).trans (getADenominator_value_eq_zero_iff h U V W),
      denotes_getA_of_zero h hU hV hW, denotes_getA_of_ne_zero h hU hV hW⟩

end Sys2Proof.Machine
end

section
/-!
PROOFS. O44: the digit-by-digit algorithms (40_mp_datapath.md R137).
-/
namespace Sys2Proof.Machine

/-! ## Digit arrays (R14) -/

/-- The digits of a value that fits have that value. -/
theorem digitsVal_digitsOf {w : Nat} (n : Nat) {v : Nat} (hv : v < w ^ n) : digitsVal w (digitsOf w n v) = v := by
  induction n generalizing v with
  | zero =>
    rw [pow_zero] at hv
    exact (Nat.lt_one_iff.1 hv).symm
  | succ n ih =>
    have hq : v / w < w ^ n := Nat.div_lt_of_lt_mul (by rwa [pow_succ, Nat.mul_comm] at hv)
    rw [digitsOf, digitsVal, ih hq, Nat.mod_add_div]

@[simp] theorem length_digitsOf (w n v : Nat) : (digitsOf w n v).length = n := by
  induction n generalizing v with
  | zero => rfl
  | succ n ih => rw [digitsOf, List.length_cons, ih]

theorem digitsOf_lt {w : Nat} (hw : 0 < w) (n v : Nat) : ∀ d ∈ digitsOf w n v, d < w := by
  induction n generalizing v with
  | zero => nofun
  | succ n ih => exact List.forall_mem_cons.2 ⟨Nat.mod_lt v hw, ih (v / w)⟩

/-- An array of `n` digits has a value below `w^n`. -/
theorem digitsVal_lt {w : Nat} {ds : List Nat} (h : ∀ d ∈ ds, d < w) : digitsVal w ds < w ^ ds.length := by
  induction ds with
  | nil => exact Nat.one_pos
  | cons d ds ih =>
    obtain ⟨hd, hds⟩ := List.forall_mem_cons.1 h
    calc d + w * digitsVal w ds < w * (digitsVal w ds + 1) := by rw [Nat.mul_add]; omega
      _ ≤ w ^ (ds.length + 1) := by rw [pow_succ, Nat.mul_comm]; exact Nat.mul_le_mul_right w (ih hds)

/-! ## Schoolbook addition (R137) -/

theorem length_addDigits (w carry : Nat) {as bs : List Nat} (h : as.length = bs.length) :
    (addDigits w carry as bs).1.length = as.length := by
  induction as generalizing bs carry with
  | nil => rfl
  | cons a as ih =>
    obtain ⟨b, bs, rfl⟩ := List.exists_cons_of_length_eq_add_one h.symm
    simp only [addDigits, List.length_cons, ih _ (Nat.succ.inj h)]

theorem addDigits_lt {w : Nat} (hw : 0 < w) (carry : Nat) (as bs : List Nat) :
    ∀ d ∈ (addDigits w carry as bs).1, d < w := by
  induction as generalizing bs carry with
  | nil => nofun
  | cons a as ih =>
    cases bs with
    | nil => nofun
    | cons b bs => exact List.forall_mem_cons.2 ⟨Nat.mod_lt _ hw, ih _ bs⟩

/-- Digits and carry together are the sum. -/
theorem digitsVal_addDigits (w carry : Nat) {as bs : List Nat} (h : as.length = bs.length) :
    digitsVal w (addDigits w carry as bs).1 + w ^ as.length * (addDigits w carry as bs).2
      = digitsVal w as + digitsVal w bs + carry := by
  induction as generalizing bs carry with
  | nil =>
    obtain rfl := List.eq_nil_of_length_eq_zero h.symm
    simp [addDigits, digitsVal]
  | cons a as ih =>
    obtain ⟨b, bs, rfl⟩ := List.exists_cons_of_length_eq_add_one h.symm
    have htail := ih ((a + b + carry) / w) (Nat.succ.inj h)
    have hdigit := Nat.mod_add_div (a + b + carry) w
    simp only [addDigits, digitsVal, List.length_cons, pow_succ]
    linear_combination w * htail + hdigit

/-! ## Schoolbook subtraction (R137) -/

theorem length_subDigits (w borrow : Nat) {as bs : List Nat} (h : as.length = bs.length) :
    (subDigits w borrow as bs).1.length = as.length := by
  induction as generalizing bs borrow with
  | nil => rfl
  | cons a as ih =>
    obtain ⟨b, bs, rfl⟩ := List.exists_cons_of_length_eq_add_one h.symm
    simp only [subDigits, List.length_cons, ih _ (Nat.succ.inj h)]

/-- The digits of a difference are digits, and the borrow is a bit. -/
theorem subDigits_lt {w borrow : Nat} {as bs : List Nat} (hborrow : borrow ≤ 1) (ha : ∀ d ∈ as, d < w)
    (hb : ∀ d ∈ bs, d < w) :
    (∀ d ∈ (subDigits w borrow as bs).1, d < w) ∧ (subDigits w borrow as bs).2 ≤ 1 := by
  induction as generalizing bs borrow with
  | nil => exact ⟨nofun, hborrow⟩
  | cons a as ih =>
    cases bs with
    | nil => exact ⟨nofun, hborrow⟩
    | cons b bs =>
      obtain ⟨ha, has⟩ := List.forall_mem_cons.1 ha
      obtain ⟨hb, hbs⟩ := List.forall_mem_cons.1 hb
      obtain ⟨hdigits, hout⟩ := ih (borrow := if a < b + borrow then 1 else 0) (by split <;> omega) has hbs
      exact ⟨List.forall_mem_cons.2 ⟨by split <;> omega, hdigits⟩, hout⟩

/-- Digits less the borrow are the difference. -/
theorem digitsVal_subDigits {w borrow : Nat} {as bs : List Nat} (h : as.length = bs.length) (hborrow : borrow ≤ 1)
    (hb : ∀ d ∈ bs, d < w) :
    digitsVal w (subDigits w borrow as bs).1 + digitsVal w bs + borrow
      = digitsVal w as + w ^ as.length * (subDigits w borrow as bs).2 := by
  induction as generalizing bs borrow with
  | nil =>
    obtain rfl := List.eq_nil_of_length_eq_zero h.symm
    simp [subDigits, digitsVal]
  | cons a as ih =>
    obtain ⟨b, bs, rfl⟩ := List.exists_cons_of_length_eq_add_one h.symm
    obtain ⟨hb, hbs⟩ := List.forall_mem_cons.1 hb
    have htail := ih (borrow := if a < b + borrow then 1 else 0) (Nat.succ.inj h) (by split <;> omega) hbs
    have hdigit : a + (if a < b + borrow then 1 else 0) * w - (b + borrow) + (b + borrow)
        = a + (if a < b + borrow then 1 else 0) * w := Nat.sub_add_cancel (by split <;> omega)
    simp only [subDigits, digitsVal, List.length_cons, pow_succ]
    linear_combination w * htail + hdigit

/-! ## Schoolbook multiplication (R137) -/

theorem length_mulAccDigits (w a u : Nat) {acc bs : List Nat} (h : acc.length = bs.length) :
    (mulAccDigits w a u acc bs).length = acc.length + 1 := by
  induction acc generalizing bs u with
  | nil => rfl
  | cons x acc ih =>
    obtain ⟨b, bs, rfl⟩ := List.exists_cons_of_length_eq_add_one h.symm
    simp only [mulAccDigits, List.length_cons, ih _ (Nat.succ.inj h)]

/-- The inner loop adds `a` times the second factor, and the carry, to the accumulator. -/
theorem digitsVal_mulAccDigits (w a u : Nat) {acc bs : List Nat} (h : acc.length = bs.length) :
    digitsVal w (mulAccDigits w a u acc bs) = digitsVal w acc + a * digitsVal w bs + u := by
  induction acc generalizing bs u with
  | nil =>
    obtain rfl := List.eq_nil_of_length_eq_zero h.symm
    simp [mulAccDigits, digitsVal]
  | cons x acc ih =>
    obtain ⟨b, bs, rfl⟩ := List.exists_cons_of_length_eq_add_one h.symm
    have htail := ih ((x + a * b + u) / w) (Nat.succ.inj h)
    have hdigit := Nat.mod_add_div (x + a * b + u) w
    simp only [mulAccDigits, digitsVal]
    linear_combination w * htail + hdigit

/-- The outer loop has the value of the accumulator and the product, on as many digits as both factors have. -/
theorem mulDigitsFrom_spec (w : Nat) {acc as bs : List Nat} (h : acc.length = bs.length) :
    digitsVal w (mulDigitsFrom w bs acc as) = digitsVal w acc + digitsVal w as * digitsVal w bs
      ∧ (mulDigitsFrom w bs acc as).length = as.length + bs.length := by
  induction as generalizing acc with
  | nil => simp [mulDigitsFrom, digitsVal, h]
  | cons a as ih =>
    have hlen := length_mulAccDigits w a 0 h
    have hval := digitsVal_mulAccDigits w a 0 h
    obtain ⟨d, acc', hacc⟩ := List.exists_cons_of_length_eq_add_one hlen
    rw [hacc, List.length_cons] at hlen
    rw [hacc, digitsVal] at hval
    obtain ⟨hrest, hrestLen⟩ := ih (acc := acc') (by omega)
    simp only [mulDigitsFrom, hacc, digitsVal, List.length_cons, hrest, hrestLen]
    exact ⟨by linear_combination hval, by omega⟩

theorem digitsVal_replicate_zero (w n : Nat) : digitsVal w (List.replicate n 0) = 0 := by
  induction n with
  | zero => rfl
  | succ n ih => rw [List.replicate_succ, digitsVal, ih, Nat.mul_zero]

/-! ## The digit algorithms and the value-level functions -/

theorem digitBase_pow (c : Config) : digitBase c ^ c.nWords = c.r := by
  rw [digitBase, ← pow_mul, Nat.mul_comm, Config.r, Config.rBits]

theorem digitBase_pos (c : Config) : 0 < digitBase c := Nat.two_pow_pos _

/-- Every value below `R` is the value of its `NWORDS` digits (R14). -/
theorem digitsVal_nWords (c : Config) {v : Nat} (hv : v < c.r) :
    digitsVal (digitBase c) (digitsOf (digitBase c) c.nWords v) = v :=
  digitsVal_digitsOf c.nWords (by rwa [digitBase_pow])

section onValues
variable (c : Config) {a b : Nat} (ha : a < c.r) (hb : b < c.r)
include ha hb

/-- The schoolbook sum is `mp_add` (R131, R137). -/
theorem addDigits_eq_mpAdd :
    digitsVal (digitBase c)
        (addDigits (digitBase c) 0 (digitsOf (digitBase c) c.nWords a) (digitsOf (digitBase c) c.nWords b)).1
        = (mpAdd c a b).1
      ∧ (addDigits (digitBase c) 0 (digitsOf (digitBase c) c.nWords a) (digitsOf (digitBase c) c.nWords b)).2
        = (mpAdd c a b).2 := by
  have hr := digitBase_pow c
  have hlen : (digitsOf (digitBase c) c.nWords a).length = (digitsOf (digitBase c) c.nWords b).length := by simp
  have hval := digitsVal_addDigits (digitBase c) 0 hlen
  have hlt := digitsVal_lt (addDigits_lt (digitBase_pos c) 0 (digitsOf (digitBase c) c.nWords a)
    (digitsOf (digitBase c) c.nWords b))
  rw [length_addDigits _ _ hlen, length_digitsOf, hr] at hlt
  rw [length_digitsOf, hr, digitsVal_nWords c ha, digitsVal_nWords c hb, Nat.add_zero] at hval
  obtain ⟨hdiv, hmod⟩ := (Nat.div_mod_unique c.r_pos).2 ⟨hval, hlt⟩
  exact ⟨hmod.symm, hdiv.symm⟩

/-- The schoolbook difference is `mp_sub` (R132, R137). -/
theorem subDigits_eq_mpSub :
    digitsVal (digitBase c)
        (subDigits (digitBase c) 0 (digitsOf (digitBase c) c.nWords a) (digitsOf (digitBase c) c.nWords b)).1
        = (mpSub c a b).1
      ∧ (subDigits (digitBase c) 0 (digitsOf (digitBase c) c.nWords a) (digitsOf (digitBase c) c.nWords b)).2
        = (mpSub c a b).2 := by
  have hr := digitBase_pow c
  have hlen : (digitsOf (digitBase c) c.nWords a).length = (digitsOf (digitBase c) c.nWords b).length := by simp
  have hda := digitsOf_lt (digitBase_pos c) c.nWords a
  have hdb := digitsOf_lt (digitBase_pos c) c.nWords b
  have hval := digitsVal_subDigits hlen (Nat.zero_le 1) hdb
  obtain ⟨hdigits, hborrow⟩ := subDigits_lt (Nat.zero_le 1) hda hdb
  have hlt := digitsVal_lt hdigits
  rw [length_subDigits _ _ hlen, length_digitsOf, hr] at hlt
  rw [length_digitsOf, hr, digitsVal_nWords c ha, digitsVal_nWords c hb, Nat.add_zero] at hval
  rcases Nat.le_one_iff_eq_zero_or_eq_one.1 hborrow with h0 | h1
  · rw [h0, Nat.mul_zero] at hval
    rw [h0, mpSub, if_neg (by omega)]
    exact ⟨by omega, rfl⟩
  · rw [h1, Nat.mul_one] at hval
    rw [h1, mpSub, if_pos (by omega)]
    exact ⟨by omega, rfl⟩

/-- The schoolbook product is `mp_mul`, on twice as many digits (R136, R137). -/
theorem mulDigits_eq_mpMul :
    (mulDigits (digitBase c) (digitsOf (digitBase c) c.nWords a) (digitsOf (digitBase c) c.nWords b)).length
        = 2 * c.nWords
      ∧ digitsVal (digitBase c)
        (mulDigits (digitBase c) (digitsOf (digitBase c) c.nWords a) (digitsOf (digitBase c) c.nWords b))
        = mpMul a b := by
  obtain ⟨hval, hlen⟩ := mulDigitsFrom_spec (digitBase c) (as := digitsOf (digitBase c) c.nWords a)
    (List.length_replicate (n := (digitsOf (digitBase c) c.nWords b).length) (a := 0))
  rw [length_digitsOf, length_digitsOf] at hlen
  rw [digitsVal_replicate_zero, Nat.zero_add, digitsVal_nWords c ha, digitsVal_nWords c hb] at hval
  exact ⟨by rw [mulDigits, length_digitsOf, hlen, Nat.two_mul], hval⟩
end onValues

/-- Settles O44: an algorithm's digits and carry satisfy the equation that determines the value-level result. -/
theorem digitAlgorithms : Obligations.DigitAlgorithms := by
  intro c _ a b ha hb
  obtain ⟨sum, carry⟩ := addDigits_eq_mpAdd c ha hb
  obtain ⟨difference, borrow⟩ := subDigits_eq_mpSub c ha hb
  obtain ⟨length, product⟩ := mulDigits_eq_mpMul c ha hb
  exact ⟨digitsVal_nWords c ha, sum, carry, difference, borrow, length, product⟩

end Sys2Proof.Machine
end

section
/-!
PROOFS. O46: the laws of the Montgomery multiplier and of the conversions (43_fp.md R201 to R204, 00_scope.md R15).
-/
namespace Sys2Proof.Machine

variable {c : Config}

/-! ## The Montgomery multiplier (R204) and the represented values (R15) -/

theorem fpmul_comm (c : Config) (x y : Nat) : fpmul c x y = fpmul c y x := by
  rw [fpmul, fpmul, mpMul, mpMul, Nat.mul_comm]

theorem fpmul_montOne (h : c.WellFormed) {x : Nat} (hx : x < c.p) : fpmul c x c.montOne = x := by
  refine eq_of_cast_eq (fpmul_lt h _ _) hx ?_
  rw [cast_fpmul, cast_montOne, mul_assoc, cast_r_mul_rInv h, mul_one]

theorem rep_fpmul (h : c.WellFormed) (x y : Nat) : rep c (fpmul c x y) = rep c x * rep c y % c.p := by
  refine eq_of_cast_eq (rep_lt h _) (Nat.mod_lt _ h.p_pos) ?_
  rw [ZMod.natCast_mod, Nat.cast_mul, cast_rep, cast_rep, cast_rep, cast_fpmul]
  ring

theorem rep_fpadd (h : c.WellFormed) (x y : Nat) : rep c (fpadd c x y) = (rep c x + rep c y) % c.p := by
  rw [← fpadd_eq_mod (rep_lt h x) (rep_lt h y)]
  refine eq_of_cast_eq (rep_lt h _) (fpadd_lt (rep_lt h _) (rep_lt h _)) ?_
  rw [cast_rep, cast_fpadd, cast_fpadd, cast_rep, cast_rep, add_mul]

theorem rep_fpsub (h : c.WellFormed) (x : Nat) {y : Nat} (hy : y < c.p) :
    rep c (fpsub c x y) = (rep c x + c.p - rep c y) % c.p := by
  rw [← fpsub_eq_mod (rep_lt h x) (rep_lt h y)]
  refine eq_of_cast_eq (rep_lt h _) (fpsub_lt (rep_lt h _) (rep_lt h _)) ?_
  rw [cast_rep, cast_fpsub hy, cast_fpsub (rep_lt h y), cast_rep, cast_rep, sub_mul]

/-! ## The conversions (R204, R15) -/

theorem toMontgomery_eq_sto (h : c.WellFormed) (x : Nat) : toMontgomery c x = sto c x := by
  refine eq_of_cast_eq (toMontgomery_lt h x) (sto_lt h x) ?_
  rw [cast_toMontgomery h, cast_sto]

theorem fromMontgomery_eq_rep (c : Config) (x : Nat) : fromMontgomery c x = rep c x := by
  rw [fromMontgomery, fpmul, mpMul, Nat.mul_one, montReduce, rep]

theorem rep_sto (h : c.WellFormed) {x : Nat} (hx : x < c.p) : rep c (sto c x) = x := by
  refine eq_of_cast_eq (rep_lt h _) hx ?_
  rw [cast_rep, cast_sto, mul_assoc, cast_r_mul_rInv h, mul_one]

theorem sto_rep (h : c.WellFormed) {x : Nat} (hx : x < c.p) : sto c (rep c x) = x := by
  refine eq_of_cast_eq (sto_lt h _) hx ?_
  rw [cast_sto, cast_rep, mul_assoc, mul_comm (c.rInv : ZMod c.p), cast_r_mul_rInv h, mul_one]

/-- Settles O46: two reduced values with one image in `ZMod P` are equal; the conversions are `sto` and `rep`. -/
theorem montgomeryLaws : Obligations.MontgomeryLaws := by
  intro c h x y hx hy
  have hto := toMontgomery_eq_sto h
  have hfrom := fromMontgomery_eq_rep c
  refine ⟨rfl, fpmul_lt h x y, fpmul_comm c x y, ?_, fpmul_montOne h hx, rep_fpmul h x y, rep_fpadd h x y,
    rep_fpsub h x hy, hto x, hfrom x, ?_, ?_, rep_sto h hx, sto_rep h hx⟩
  · rw [fpmul, mpMul, Nat.mul_zero, montReduce, Nat.zero_mul, Nat.zero_mod]
  · rw [hto, hfrom, rep_sto h hx]
  · rw [hto, hfrom, sto_rep h hx]

end Sys2Proof.Machine
end

section
/-!
PROOFS. O60: what comes next does not depend on data (70_reset_and_hazards.md R402).
-/
namespace Sys2Proof.Machine

/-! ## Updates that keep two states alike but for data (R402): what is written to `F`, the selector, `INVZ` and the
bytes of DMEM may differ, where it is written may not -/

theorem map_fst_cellSet {α : Type} {m m' : List (Nat × α)} (h : m'.map Prod.fst = m.map Prod.fst) (a : Nat)
    (v v' : α) :
    (cellSet m' a v').map Prod.fst = (cellSet m a v).map Prod.fst := by
  induction m generalizing m' with
  | nil =>
    obtain rfl := List.map_eq_nil_iff.1 h
    rfl
  | cons e m ih =>
    obtain ⟨⟨k, w'⟩, m', rfl, rfl, hm⟩ := List.map_eq_cons_iff.1 h
    simp only [cellSet]
    split
    · simp [hm]
    · split
      · simp [hm]
      · simp [ih hm]

theorem map_fst_writeBytes {m m' : Memory} (h : m'.map Prod.fst = m.map Prod.fst) (a : Nat) {bs bs' : List Byte}
    (hl : bs'.length = bs.length) : (writeBytes m' a bs').map Prod.fst = (writeBytes m a bs).map Prod.fst := by
  induction bs generalizing m m' a bs' with
  | nil =>
    obtain rfl := List.eq_nil_of_length_eq_zero hl
    exact h
  | cons b bs ih =>
    obtain ⟨b', bs', rfl⟩ := List.exists_cons_of_length_eq_add_one hl
    exact ih (map_fst_cellSet h a b b') (a + 1) (Nat.succ.inj hl)

namespace SamePublic

variable {s t : State} (h : SamePublic s t)
include h

theorem setHalf {k : FIdx} {x : Half} {u v : Nat} : SamePublic (s.setHalf k x u) (t.setHalf k x v) :=
  { h with
    readable := fun j y => by
      rw [half_setHalf, half_setHalf]
      split
      · rfl
      · exact h.readable j y }

theorem setReg {k : FIdx} {u v : Fp2} : SamePublic (s.setReg k u) (t.setReg k v) :=
  { h with
    readable := fun j y => by
      rw [half_setReg, half_setReg]
      split
      · rfl
      · exact h.readable j y }

theorem setPair {k : FIdx} {u v : Pair} : SamePublic (s.setPair k u) (t.setPair k v) := h.setReg.setReg

theorem setTriple {k : FIdx} {u v : Triple} : SamePublic (s.setTriple k u) (t.setTriple k v) := h.setReg.setReg.setReg

omit h in
theorem setVector {s t : State} (h : SamePublic s t) {k : FIdx} {us vs : List Fp2} (hl : vs.length = us.length) :
    SamePublic (s.setVector k us) (t.setVector k vs) := by
  induction us generalizing s t k vs with
  | nil =>
    obtain rfl := List.eq_nil_of_length_eq_zero hl
    exact h
  | cons u us ih =>
    obtain ⟨v, vs, rfl⟩ := List.exists_cons_of_length_eq_add_one hl
    exact ih h.setReg (Nat.succ.inj hl)

theorem setCounter (cr : CIdx) (v : BitVec 16) : SamePublic (s.setCounter cr v) (t.setCounter cr v) :=
  { h with
    counters := fun d => by rw [counter_setCounter, counter_setCounter, h.counters d] }

theorem setSel {u v : Selector} : SamePublic (s.setSel u) (t.setSel v) := { h with selReadable := rfl }

theorem noteInversion {m n : Nat} : SamePublic (s.noteInversion m) (t.noteInversion n) := { h with }

theorem jump (n : Nat) : SamePublic (s.jump n) (t.jump n) := { h with pc := rfl }

theorem advance : SamePublic s.advance t.advance := { h with pc := congrArg (· + 1) h.pc }

theorem halt : SamePublic { s with run := .done } { t with run := .done } := { h with run := rfl }

theorem storeBytes (a : Nat) {bs bs' : List Byte} (hl : bs'.length = bs.length) :
    SamePublic (s.storeBytes a bs) (t.storeBytes a bs') :=
  { h with written := map_fst_writeBytes h.written a hl }

theorem takeTrap (e : Trap) : SamePublic (takeTrap e s) (takeTrap e t) :=
  { h with
    run := rfl
    cause := rfl
    epc := by rw [takeTrap_epc, takeTrap_epc, h.pc]
    finfo := rfl }

/-! ## What is read of a state to decide where and whether to write -/

theorem address_eq (cr : CIdx) (imm : BitVec 16) : t.address cr imm = s.address cr imm := by
  rw [State.address, State.address, h.counters]

theorem unreadable_eq (hs : List (FIdx × Half)) : unreadable t hs = unreadable s hs := by
  simp only [unreadable, h.readable]

theorem unreadableSource_eq (i : Instr) : unreadableSource i t = unreadableSource i s := by
  simp only [unreadableSource, h.unreadable_eq, h.selReadable, h.counters]

theorem rangeTrap_eq (c : Config) (i : Instr) : rangeTrap c i t = rangeTrap c i s := by
  simp only [rangeTrap, accessRange, h.address_eq]

/-- The effects of one instruction on two states that are alike but for data are alike but for data. -/
theorem of_effect (c : Config) (i : Instr) : SamePublic (effect c i s) (effect c i t) := by
  cases i with
  | nop => exact h.advance
  | halt => exact h.halt
  | ldi cr imm => exact (h.setCounter cr imm).advance
  | addi cr imm =>
    simp only [effect, addiValue, h.counters]
    exact (h.setCounter cr _).advance
  | jmp imm => exact h.jump imm.toNat
  | djnz cr imm =>
    have hv : djnzValue t cr = djnzValue s cr := by simp only [djnzValue, h.counters]
    simp only [effect, hv]
    by_cases hz : djnzValue s cr ≠ 0
    · rw [if_pos hz, if_pos hz]
      exact (h.setCounter cr _).jump imm.toNat
    · rw [if_neg hz, if_neg hz]
      exact (h.setCounter cr _).advance
  | stf rd cr imm =>
    simp only [effect, h.address_eq]
    exact (h.storeBytes _ (by simp)).advance
  | stfm rd cr imm =>
    simp only [effect, h.address_eq]
    exact (h.storeBytes _ (by simp)).advance
  | selst cr imm =>
    simp only [effect, h.address_eq]
    exact (h.storeBytes _ (by simp)).advance
  | selld | f2eq | f2isz => exact h.setSel.advance
  | fpadd | fpsub | fpneg | fpmul | fpmov | fptom | fpfrm => exact h.setHalf.advance
  | fpinv => exact h.setHalf.advance.noteInversion
  | ldf | ldfm | f2add | f2sub | f2mul | f2sqr | f2conj | f2mov | f2cmov => exact h.setReg.advance
  | f2inv => exact h.setReg.advance.noteInversion
  | f2inv3 => exact h.setReg.setReg.setReg.noteInversion.advance
  | f2invn rd ra n =>
    have hl : (t.vector ra n.toNat).length = (s.vector ra n.toNat).length := by simp
    simp only [effect]
    cases hs : s.vector ra n.toNat with
    | nil =>
      rw [hs] at hl
      rw [List.eq_nil_of_length_eq_zero hl]
      exact h
    | cons v vs =>
      rw [hs] at hl
      obtain ⟨v', vs', ht⟩ := List.exists_cons_of_length_eq_add_one hl
      rw [ht] at hl ⊢
      exact (h.setVector (by simpa using hl)).noteInversion.advance
  | xdbl | xdble | xtpl | xtple | xadd | eval4iso | eval3iso => exact h.setPair.advance
  | xdbladd | get3iso => exact h.setPair.setPair.advance
  | get4iso => exact h.setPair.setTriple.advance
  | jinvAc | jinvP24 | jinvM24 | geta => exact h.setReg.noteInversion.advance

end SamePublic

/-- What the loaded bytes raise is `MalformedInput` or `IllegalSelector`. -/
theorem dataFault_of_dataTrap {c : Config} {i : Instr} {s : State} {e : Trap} (h : dataTrap c i s = some e) :
    (takeTrap e s).dataFault := by
  have element : ∀ a n, elementTrap c s a n = some e → (takeTrap e s).dataFault := by
    intro a n he
    simp only [elementTrap] at he
    split at he
    · exact .inl (Option.some.inj he ▸ rfl)
    · split at he
      · exact .inl (Option.some.inj he ▸ rfl)
      · cases he
  cases i with
  | ldf rd cr imm => exact element _ _ h
  | ldfm rd cr imm => exact element _ _ h
  | selld cr imm =>
    simp only [dataTrap] at h
    split at h
    · cases h
    · exact .inr (Option.some.inj h ▸ rfl)
  | _ => cases h

/-- What an instruction raises before it looks at a byte of DMEM (R345). -/
def checkTrap (c : Config) (i : Instr) (s : State) : Option Trap :=
  if i.wellFormed then
    match unreadableSource i s with
    | some code => some (.uninitRegister code)
    | none => rangeTrap c i s
  else some (.illegalOperand (encode i))

/-- The checks come first, then the loaded bytes (R345). -/
theorem raises_eq_checkTrap_or (c : Config) (i : Instr) (s : State) :
    raises c i s = (checkTrap c i s).or (dataTrap c i s) := by
  simp only [raises, checkTrap]
  cases i.wellFormed
  · rfl
  · cases unreadableSource i s
    · cases rangeTrap c i s <;> rfl
    · rfl

theorem SamePublic.checkTrap_eq {s t : State} (h : SamePublic s t) (c : Config) (i : Instr) :
    checkTrap c i t = checkTrap c i s := by
  simp only [checkTrap, h.unreadableSource_eq, h.rangeTrap_eq]

/-- An instruction whose answer is no data fault raises what its checks raise. -/
theorem raises_eq_checkTrap {i : Instr} {s s' : State} (hs : exec i s = .next s') (hs' : ¬ s'.dataFault) :
    raises Config.core i s = checkTrap Config.core i s := by
  cases hd : dataTrap Config.core i s with
  | none => rw [raises_eq_checkTrap_or, hd, Option.or_none]
  | some e =>
    cases hc : checkTrap Config.core i s with
    | some e' => rw [raises_eq_checkTrap_or, hc, Option.some_or]
    | none =>
      rw [exec_of_raises (by rw [raises_eq_checkTrap_or, hc, hd, Option.none_or])] at hs
      cases hs
      exact absurd (dataFault_of_dataTrap hd) hs'

/-- One instruction from two states that are alike but for data. -/
theorem SamePublic.of_exec {i : Instr} {s t s' t' : State} (h : SamePublic s t) (hs : exec i s = .next s')
    (ht : exec i t = .next t') (hs' : ¬ s'.dataFault) (ht' : ¬ t'.dataFault) : SamePublic s' t' := by
  have hraises : raises Config.core i t = raises Config.core i s := by
    rw [raises_eq_checkTrap hs hs', raises_eq_checkTrap ht ht', h.checkTrap_eq]
  rcases exec_next hs with ⟨e, he, rfl⟩ | ⟨hnone, rfl⟩
  · rw [exec_of_raises (hraises.trans he)] at ht
    cases ht
    exact h.takeTrap e
  · rw [exec_of_none (hraises.trans hnone)] at ht
    cases ht
    exact h.of_effect Config.core i

/-- Settles O60: two such states fetch and decode the same word, and its instruction keeps them alike. -/
theorem constantTime : Obligations.ConstantTime := by
  intro s t s' t' h hs ht hs' ht'
  by_cases hrun : s.run = .running
  · rw [step_of_running hrun] at hs
    rw [step_of_running (h.run.trans hrun), h.pc, h.program] at ht
    by_cases hpc : Config.core.imemWords ≤ s.pc
    · rw [if_pos hpc] at hs ht
      cases hs
      cases ht
      exact h.takeTrap _
    · rw [if_neg hpc] at hs ht
      cases hd : decode (s.wordAt s.pc) with
      | none =>
        simp only [hd] at hs ht
        cases hs
        cases ht
        exact h.takeTrap _
      | some i =>
        simp only [hd] at hs ht
        exact h.of_exec hs ht hs' ht'
  · rw [step_of_not_running hrun] at hs
    rw [step_of_not_running (h.run ▸ hrun)] at ht
    cases hs
    cases ht
    exact h

end Sys2Proof.Machine
end

section
/-!
PROOFS. What reset, START and CLEAR leave (10_state.md R52, R56; 70_reset_and_hazards.md R390 to R396), and what a step
in RUNNING answers: the facts that the invariant and the transitions of `STATE` rest on.
-/
namespace Sys2Proof.Machine

/-! ## Registers of which none is readable -/

theorem half_of_empty {s : State} (h : s.f = Vector.replicate 32 FieldReg.empty) (k : FIdx) (x : Half) :
    s.half k x = HalfReg.empty := by
  simp only [State.half, h, Vector.getElem_replicate]
  cases x <;> rfl

theorem counter_of_empty {s : State} (h : s.c = Vector.replicate 8 CounterReg.empty) (cr : CIdx) :
    s.counter cr = CounterReg.empty := by
  simp only [State.counter, h, Vector.getElem_replicate]

@[simp] theorem half_invalidate (s : State) (k : FIdx) (x : Half) : s.invalidate.half k x = HalfReg.empty :=
  half_of_empty rfl k x

@[simp] theorem counter_invalidate (s : State) (cr : CIdx) : s.invalidate.counter cr = CounterReg.empty :=
  counter_of_empty rfl cr

@[simp] theorem half_hardReset (s : State) (k : FIdx) (x : Half) : s.hardReset.half k x = HalfReg.empty :=
  half_of_empty rfl k x

@[simp] theorem counter_hardReset (s : State) (cr : CIdx) : s.hardReset.counter cr = CounterReg.empty :=
  counter_of_empty rfl cr

/-! ## Reset -/

theorem writeLanded_wf (m : Memory) (a : Nat) (bs : List Byte) (landed : List Bool) (h : m.wf = true) :
    (writeLanded m a bs landed).wf = true := by
  induction bs generalizing m a landed with
  | nil => cases landed <;> exact h
  | cons b bs ih =>
    match landed with
    | [] => exact h
    | true :: landed => exact ih _ _ landed (cellsWf_cellSet m a b h)
    | false :: landed => exact ih _ _ landed h

theorem writeLanded_below (n : Nat) (m : Memory) (a : Nat) (bs : List Byte) (landed : List Bool)
    (ha : a + bs.length ≤ n) (h : cellsBelow n m = true) : cellsBelow n (writeLanded m a bs landed) = true := by
  induction bs generalizing m a landed with
  | nil => cases landed <;> exact h
  | cons b bs ih =>
    rw [List.length_cons] at ha
    match landed with
    | [] => exact h
    | true :: landed => exact ih _ _ landed (by omega) (cellsBelow_cellSet n m a b (by omega) h)
    | false :: landed => exact ih _ _ landed (by omega) h

/-- A byte outside a store is untouched, whatever bytes of the store have landed (R390). -/
theorem byteAt_writeLanded_outside (m : Memory) (a : Nat) (bs : List Byte) (landed : List Bool) {x : Nat}
    (hx : x < a ∨ a + bs.length ≤ x) : (writeLanded m a bs landed).byteAt x = m.byteAt x := by
  induction bs generalizing m a landed with
  | nil => cases landed <;> rfl
  | cons b bs ih =>
    rw [List.length_cons] at hx
    match landed with
    | [] => rfl
    | true :: landed =>
      rw [writeLanded, ih _ _ landed (by omega), byteAt_cellSet, if_neg (by omega)]
    | false :: landed => exact ih _ _ landed (by omega)

/-- A store in progress lies inside DMEM: one that leaves it is stopped by an exception (R74). -/
theorem pendingStore_inside {c : Config} {s : State} {addr : Nat} {bytes : List Byte}
    (h : pendingStore c s = some (addr, bytes)) : addr + bytes.length ≤ c.dmemBytes := by
  unfold pendingStore at h
  split at h
  · dsimp only at h
    split at h
    · split at h
      · cases h
        assumption
      · cases h
    · cases h
  · cases h

/-- What a reset leaves: the reset table with both memories, but for the bytes of a store that have landed (R390). -/
theorem resetInside_cases (c : Config) (landed : List Bool) (s : State) :
    resetInside c landed s = { s.hardReset with dmem := s.dmem }
      ∨ ∃ addr bytes, pendingStore c s = some (addr, bytes)
        ∧ resetInside c landed s = { s.hardReset with dmem := writeLanded s.dmem addr bytes landed } := by
  unfold resetInside
  split
  · exact .inl rfl
  · exact .inr ⟨_, _, ‹_›, rfl⟩

/-! ## START and CLEAR (R394, R396) -/

theorem start_of_idle {s : State} (h : s.run = .idle) :
    start s = { s.invalidate with pc := s.entry.toNat, run := .running } := by simp only [start, h]

theorem start_of_not_idle {s : State} (h : s.run ≠ .idle) : start s = s := by
  unfold start
  split
  · exact absurd ‹_› h
  all_goals rfl

theorem clear_of_running {s : State} (h : s.run = .running) : clear s = s := by simp only [clear, h]

theorem clear_of_not_running {s : State} (h : s.run ≠ .running) :
    clear s = { s.invalidate with cause := 0, epc := 0, finfo := 0, run := .idle } := by
  unfold clear
  split
  · exact absurd ‹_› h
  all_goals rfl

theorem lt_of_memoryOpen {s : State} {size n : Nat} (h : memoryOpen s size n = true) : n < size := by
  simp only [memoryOpen, Bool.and_eq_true, decide_eq_true_eq] at h
  exact h.2

/-! ## A step in RUNNING -/

/-- What a step that runs answers: a trap entered from this state, or the effect of the instruction at `PC`. -/
theorem step_next {s t : State} (hrun : s.run = .running) (h : step s = .next t) :
    (∃ e, t = takeTrap e s)
      ∨ ∃ i, s.pc < Config.core.imemWords ∧ decode (s.wordAt s.pc) = some i ∧ raises Config.core i s = none
        ∧ t = effect Config.core i s := by
  rw [step_of_running hrun] at h
  by_cases hpc : Config.core.imemWords ≤ s.pc
  · rw [if_pos hpc] at h
    cases h
    exact .inl ⟨_, rfl⟩
  · rw [if_neg hpc] at h
    cases hd : decode (s.wordAt s.pc) with
    | none =>
      simp only [hd] at h
      cases h
      exact .inl ⟨_, rfl⟩
    | some i =>
      simp only [hd] at h
      rcases exec_next h with ⟨e, -, he⟩ | ⟨hn, he⟩
      · exact .inl ⟨e, he⟩
      · exact .inr ⟨i, Nat.lt_of_not_le hpc, rfl, hn, he⟩

end Sys2Proof.Machine
end

section
/-!
PROOFS. O57, O58, O59: the invariant of the machine (10_state.md R32, R40, R46, R47, R52, R53). What an instruction can
do to the registers is one case analysis, `RegsInv.of_effect`; the other clauses follow from the laws of Laws/Frame.lean.
-/
namespace Sys2Proof.Machine

/-! ## The registers: reduced values, and zero where nothing is readable -/

/-- The clauses of `State.Inv` about `F`, `C` and `SEL` that hold in every `STATE` (R32, R52). -/
structure RegsInv (c : Config) (s : State) : Prop extends State.CleanRegs s where
  reduced : ∀ k x, (s.half k x).val < c.p

theorem State.Inv.regs {c : Config} {s : State} (h : s.Inv c) : RegsInv c s := { h.clean with reduced := h.reduced }

namespace RegsInv

variable {c : Config} {s : State} (h : RegsInv c s)
include h

/-! What is read of a register -/

theorem reg_below (k : FIdx) : Below c (s.reg k) := ⟨h.reduced k .a, h.reduced k .b⟩

theorem pair_below (k : FIdx) : Below c (s.pair k).x ∧ Below c (s.pair k).z :=
  ⟨h.reg_below k, h.reg_below (nextReg k)⟩

/-! What is written to one -/

theorem setHalf {k : FIdx} {x : Half} {v : Nat} (hv : v < c.p) : RegsInv c (s.setHalf k x v) :=
  { h with
    halves := fun j y => by
      rw [half_setHalf]
      split
      · nofun
      · exact h.halves j y
    reduced := fun j y => by
      rw [half_setHalf]
      split
      · exact hv
      · exact h.reduced j y }

theorem setReg {k : FIdx} {v : Fp2} (hv : Below c v) : RegsInv c (s.setReg k v) :=
  { h with
    halves := fun j y => by
      rw [half_setReg]
      split
      · nofun
      · exact h.halves j y
    reduced := fun j y => by
      rw [half_setReg]
      split
      · cases y
        · exact hv.1
        · exact hv.2
      · exact h.reduced j y }

theorem setPair {k : FIdx} {v : Pair} (hv : Below c v.x ∧ Below c v.z) : RegsInv c (s.setPair k v) :=
  (h.setReg hv.1).setReg hv.2

theorem setTriple {k : FIdx} {v : Triple} (hv : Below c v.k0 ∧ Below c v.k1 ∧ Below c v.k2) :
    RegsInv c (s.setTriple k v) :=
  ((h.setReg hv.1).setReg hv.2.1).setReg hv.2.2

omit h in
theorem setVector {s : State} (h : RegsInv c s) {k : FIdx} {vs : List Fp2} (hv : ∀ v ∈ vs, Below c v) :
    RegsInv c (s.setVector k vs) := by
  induction vs generalizing s k with
  | nil => exact h
  | cons v vs ih =>
    obtain ⟨hv0, hvs⟩ := List.forall_mem_cons.1 hv
    exact ih (h.setReg hv0) hvs

theorem setCounter {cr : CIdx} {v : BitVec 16} : RegsInv c (s.setCounter cr v) :=
  { h with
    counters := fun d => by
      rw [counter_setCounter]
      split
      · nofun
      · exact h.counters d }

theorem setSel {v : Selector} : RegsInv c (s.setSel v) := { h with selector := nofun }

/-! What leaves the registers alone -/

theorem noteInversion {n : Nat} : RegsInv c (s.noteInversion n) := { h with }

theorem jump {n : Nat} : RegsInv c (s.jump n) := { h with }

theorem advance : RegsInv c s.advance := { h with }

theorem halt : RegsInv c { s with run := .done } := { h with }

theorem storeBytes {a : Nat} {bs : List Byte} : RegsInv c (s.storeBytes a bs) := { h with }

theorem takeTrap (e : Trap) : RegsInv c (takeTrap e s) := { h with }

end RegsInv

/-- The checks of an element pass exactly on two numbers below `P` (R76, R78). -/
theorem elementTrap_eq_none {c : Config} {s : State} {a n : Nat} :
    elementTrap c s a n = none ↔ s.numberAt a n < c.p ∧ s.numberAt (a + n) n < c.p := by
  simp only [elementTrap]
  split
  · simp; omega
  · split
    · simp; omega
    · simp; omega

theorem dataTrap_of_none {c : Config} {i : Instr} {s : State} (h : raises c i s = none) : dataTrap c i s = none := by
  rw [raises_eq_checkTrap_or, Option.or_eq_none_iff] at h
  exact h.2

/-- Every instruction writes values below `P` (R32). -/
theorem RegsInv.of_effect {c : Config} (hc : c.WellFormed) {s : State} (h : RegsInv c s) {i : Instr}
    (hn : raises c i s = none) : RegsInv c (effect c i s) := by
  cases i with
  | nop => exact h.advance
  | halt => exact h.halt
  | ldi | addi => exact h.setCounter.advance
  | jmp => exact h.jump
  | djnz cr imm =>
    simp only [effect]
    split
    · exact h.setCounter.jump
    · exact h.setCounter.advance
  | ldf => exact (h.setReg ⟨toMontgomery_lt hc _, toMontgomery_lt hc _⟩).advance
  | ldfm rd cr imm =>
    obtain ⟨ha, hb⟩ := elementTrap_eq_none.1 (dataTrap_of_none hn)
    exact (h.setReg ⟨ha, hb⟩).advance
  | stf | stfm | selst => exact h.storeBytes.advance
  | selld | f2eq | f2isz => exact h.setSel.advance
  | fpadd => exact (h.setHalf (fpadd_lt (h.reduced _ _) (h.reduced _ _))).advance
  | fpsub => exact (h.setHalf (fpsub_lt (h.reduced _ _) (h.reduced _ _))).advance
  | fpneg => exact (h.setHalf (fpneg_lt (h.reduced _ _))).advance
  | fpmul => exact (h.setHalf (fpmul_lt hc _ _)).advance
  | fpinv => exact (h.setHalf (fpinv_lt hc _)).advance.noteInversion
  | fpmov => exact (h.setHalf (h.reduced _ _)).advance
  | fptom => exact (h.setHalf (toMontgomery_lt hc _)).advance
  | fpfrm => exact (h.setHalf (fromMontgomery_lt hc _)).advance
  | f2add => exact (h.setReg (below_f2add (h.reg_below _) (h.reg_below _))).advance
  | f2sub => exact (h.setReg (below_f2sub (h.reg_below _) (h.reg_below _))).advance
  | f2mul => exact (h.setReg (below_f2mul hc _ _)).advance
  | f2sqr => exact (h.setReg (below_f2sqr hc _)).advance
  | f2inv => exact (h.setReg (below_f2inv hc _)).advance.noteInversion
  | f2conj => exact (h.setReg (below_f2conj (h.reg_below _))).advance
  | f2mov => exact (h.setReg (h.reg_below _)).advance
  | f2cmov => exact (h.setReg (below_f2cmov (h.reg_below _) (h.reg_below _) _)).advance
  | f2inv3 rd ra rb =>
    obtain ⟨hk0, hk1, hk2⟩ := below_inv3Way hc (s.reg rd) (s.reg ra) (s.reg rb)
    exact (((h.setReg hk0).setReg hk1).setReg hk2).noteInversion.advance
  | f2invn rd ra n =>
    simp only [effect]
    split
    · exact h
    · exact (h.setVector (below_invN hc _ _)).noteInversion.advance
  | xdbl => exact (h.setPair (below_xdbl hc _ _)).advance
  | xdble => exact (h.setPair (below_repeatTimes (fun q => below_xdbl hc q _) _ (h.pair_below _))).advance
  | xtpl => exact (h.setPair (below_xtpl hc _ _)).advance
  | xtple => exact (h.setPair (below_repeatTimes (fun q => below_xtpl hc q _) _ (h.pair_below _))).advance
  | xadd => exact (h.setPair (below_xadd hc _ _ _)).advance
  | xdbladd => exact ((h.setPair (below_xdbl hc _ _)).setPair (below_xadd hc _ _ _)).advance
  | get4iso =>
    exact ((h.setPair (below_get4isoCurve hc _)).setTriple (below_get4isoCoeffs hc (h.pair_below _))).advance
  | eval4iso => exact (h.setPair (below_eval4iso hc _ _)).advance
  | get3iso => exact ((h.setPair (below_get3isoCurve hc _)).setPair (below_get3isoCoeffs (h.pair_below _))).advance
  | eval3iso => exact (h.setPair (below_eval3iso hc _ _)).advance
  | jinvAc | jinvP24 | jinvM24 => exact (h.setReg (below_jinv hc _)).noteInversion.advance
  | geta =>
    exact (h.setReg (below_getA hc (h.reg_below _) (h.reg_below _) (h.reg_below _))).noteInversion.advance

/-! ## A step -/

/-- The next index does not run past the end of `[0, 65536]` (R40, R42). -/
theorem pcAfter_le {s : State} (h : s.pc < 65536) (i : Instr) : pcAfter i s ≤ 65536 := by
  cases i with
  | halt => exact h.le
  | jmp imm => exact imm.isLt.le
  | djnz cr imm =>
    simp only [pcAfter]
    split
    · exact imm.isLt.le
    · exact h
  | _ => exact h

/-- The codes of R341. -/
theorem trap_code_range (e : Trap) : 1 ≤ e.code.toNat ∧ e.code.toNat ≤ 7 := by cases e <;> simp [Trap.code]

namespace State.Inv

variable {c : Config} {s : State} (h : s.Inv c)
include h

/-- Trap entry keeps the invariant: the record names an exception and the index it was raised at (R350). -/
theorem takeTrap (e : Trap) : (takeTrap e s).Inv c :=
  { h with
    clean := (h.regs.takeTrap e).toCleanRegs
    noFault := fun hr => absurd rfl hr
    fault := fun _ => by
      have hpc := h.pc
      have hepc : (BitVec.ofNat 17 s.pc).toNat = s.pc := by rw [BitVec.toNat_ofNat]; omega
      exact ⟨(trap_code_range e).1, (trap_code_range e).2, hepc⟩
    idle := nofun }

/-- An instruction that raises nothing keeps the invariant. -/
theorem effect (hc : c.WellFormed) (hrun : s.run = .running) (hpc : s.pc < 65536) {i : Instr}
    (hn : raises c i s = none) : (effect c i s).Inv c := by
  have hregs := h.regs.of_effect hc hn
  have hframe := effect_frame c i s
  have hrunning : (Machine.effect c i s).run = .done ∨ (Machine.effect c i s).run = .running := by
    rw [effect_run]
    split
    · exact .inl rfl
    · exact .inr hrun
  have hmemory : (Machine.effect c i s).dmem.wf = true ∧ cellsBelow c.dmemBytes (Machine.effect c i s).dmem = true := by
    rcases effect_dmem hn with hd | ⟨a, bs, hin, hd⟩
    · exact hd ▸ ⟨h.dmemWf, h.dmemBelow⟩
    · exact hd ▸ ⟨writeBytes_wf _ a bs h.dmemWf, writeBytes_below _ _ a bs hin h.dmemBelow⟩
  exact {
    reduced := hregs.reduced
    clean := hregs.toCleanRegs
    pc := effect_pc (c := c) (wellFormed_of_none hn) ▸ pcAfter_le hpc i
    entry := hframe.entry ▸ h.entry
    dmemWf := hmemory.1
    dmemBelow := hmemory.2
    imemWf := effect_imem c i s ▸ h.imemWf
    imemBelow := effect_imem c i s ▸ h.imemBelow
    noFault := fun _ => by
      rw [hframe.cause, hframe.epc, hframe.finfo]
      exact h.noFault (by rw [hrun]; nofun)
    fault := fun hr => by rcases hrunning with hr' | hr' <;> cases hr.symm.trans hr'
    idle := fun hr => by rcases hrunning with hr' | hr' <;> cases hr.symm.trans hr' }

end State.Inv

/-- Settles O58: a step that changes the state enters a trap or has the effect of one instruction. -/
theorem stepKeepsInv : Obligations.StepKeepsInv := by
  intro s t h hstep
  by_cases hrun : s.run = .running
  · rcases step_next hrun hstep with ⟨e, rfl⟩ | ⟨i, hpc, -, hn, rfl⟩
    · exact h.takeTrap e
    · have hwords : Config.core.imemWords ≤ 65536 := by decide
      exact h.effect Config.core_wellFormed hrun (by omega) hn
  · rw [step_of_not_running hrun] at hstep
    cases hstep
    exact h

/-! ## Reset, START and CLEAR -/

/-- Registers that were just made unreadable (R52, R56). -/
theorem RegsInv.of_empty {c : Config} (hc : c.WellFormed) {s : State} (hf : s.f = Vector.replicate 32 FieldReg.empty)
    (hcr : s.c = Vector.replicate 8 CounterReg.empty) (hsel : s.sel = .zero) : RegsInv c s where
  halves := fun k x _ => by rw [half_of_empty hf]; rfl
  counters := fun cr _ => by rw [counter_of_empty hcr]; rfl
  selector := fun _ => hsel
  reduced := fun k x => by rw [half_of_empty hf]; exact hc.p_pos

/-- The reset table meets the invariant with any canonical content of the memories (R56, R390). -/
theorem inv_hardReset {c : Config} (hc : c.WellFormed) {s : State} {m : Memory} (hi : s.imem.wf = true)
    (hib : cellsBelow c.imemWords s.imem = true) (hm : m.wf = true) (hmb : cellsBelow c.dmemBytes m = true) :
    State.Inv c { s.hardReset with dmem := m } :=
  have hregs : RegsInv c { s.hardReset with dmem := m } := .of_empty hc rfl rfl rfl
  { reduced := hregs.reduced
    clean := hregs.toCleanRegs
    pc := by simp
    entry := by simp
    dmemWf := hm
    dmemBelow := hmb
    imemWf := hi
    imemBelow := hib
    noFault := fun _ => ⟨rfl, rfl, rfl⟩
    fault := nofun
    idle := fun _ => ⟨fun k x => congrArg HalfReg.valid (half_hardReset s k x),
      fun cr => congrArg CounterReg.valid (counter_hardReset s cr), rfl, rfl⟩ }

/-- Settles O57: `State.reset` is the reset table with both memories empty. -/
theorem resetInv : Obligations.ResetInv :=
  inv_hardReset (s := State.reset) (m := []) Config.core_wellFormed rfl rfl rfl rfl

namespace State.Inv

variable {c : Config} {s : State} (h : s.Inv c)
include h

theorem start (hc : c.WellFormed) : (start s).Inv c := by
  by_cases hrun : s.run = .idle
  · rw [start_of_idle hrun]
    have hregs : RegsInv c { s.invalidate with pc := s.entry.toNat, run := .running } := .of_empty hc rfl rfl rfl
    exact { h with
      reduced := hregs.reduced
      clean := hregs.toCleanRegs
      pc := h.entry.le
      noFault := fun _ => h.noFault (by rw [hrun]; nofun)
      fault := nofun
      idle := nofun }
  · rw [start_of_not_idle hrun]
    exact h

theorem clear (hc : c.WellFormed) : (clear s).Inv c := by
  by_cases hrun : s.run = .running
  · rw [clear_of_running hrun]
    exact h
  · rw [clear_of_not_running hrun]
    have hregs : RegsInv c { s.invalidate with cause := 0, epc := 0, finfo := 0, run := .idle } :=
      .of_empty hc rfl rfl rfl
    exact { h with
      reduced := hregs.reduced
      clean := hregs.toCleanRegs
      noFault := fun _ => ⟨rfl, rfl, rfl⟩
      fault := nofun
      idle := fun _ => ⟨fun k x => congrArg HalfReg.valid (half_invalidate s k x),
        fun cr => congrArg CounterReg.valid (counter_invalidate s cr), rfl, rfl⟩ }

theorem writeCtrl (hc : c.WellFormed) (v : BitVec 32) : (writeCtrl s v).Inv c := by
  simp only [Machine.writeCtrl]
  split
  · exact h.start hc
  · split
    · exact h.clear hc
    · exact h

/-! ## The host port and reset -/

theorem writeEntry (v : BitVec 32) : (writeEntry s v).Inv c :=
  { h with
    clean := { h.clean with }
    entry := by
      simp only [Machine.writeEntry, BitVec.toNat_setWidth]
      omega }

theorem hostCsrWrite (hc : c.WellFormed) (i : Nat) (v : BitVec 32) : (hostCsrWrite s i v).2.Inv c := by
  unfold Machine.hostCsrWrite
  split
  · exact h.writeCtrl hc v
  · split
    · exact h
    · exact h.writeEntry v
  · exact h

/-- The host writes existing locations only (R80). -/
theorem hostAccess (hc : c.WellFormed) (q : HostRequest) : (hostAccess c q s).2.Inv c := by
  cases q with
  | csrRead i => exact h
  | csrWrite i v => exact h.hostCsrWrite hc i v
  | imemRead idx =>
    simp only [Machine.hostAccess]
    split <;> exact h
  | dmemRead addr =>
    simp only [Machine.hostAccess]
    split <;> exact h
  | imemWrite idx w =>
    simp only [Machine.hostAccess]
    split
    · rename_i hopen
      exact { h with
        clean := { h.clean with }
        imemWf := cellsWf_cellSet s.imem idx w h.imemWf
        imemBelow := cellsBelow_cellSet _ _ idx w (lt_of_memoryOpen hopen) h.imemBelow }
    · exact h
  | dmemWrite addr b =>
    simp only [Machine.hostAccess]
    split
    · rename_i hopen
      exact { h with
        clean := { h.clean with }
        dmemWf := cellsWf_cellSet s.dmem addr b h.dmemWf
        dmemBelow := cellsBelow_cellSet _ _ addr b (lt_of_memoryOpen hopen) h.dmemBelow }
    · exact h

/-- A reset keeps the memories canonical wherever it lands (R390; log entry 10). -/
theorem resetInside (hc : c.WellFormed) (landed : List Bool) : (resetInside c landed s).Inv c := by
  rcases resetInside_cases c landed s with hs | ⟨addr, bytes, hp, hs⟩
  · rw [hs]
    exact inv_hardReset hc h.imemWf h.imemBelow h.dmemWf h.dmemBelow
  · rw [hs]
    exact inv_hardReset hc h.imemWf h.imemBelow (writeLanded_wf _ addr bytes landed h.dmemWf)
      (writeLanded_below _ _ addr bytes landed (pendingStore_inside hp) h.dmemBelow)

end State.Inv

/-- Settles O59: a step by `stepKeepsInv`, a transaction and a reset by the lemma of each. -/
theorem eventsKeepInv : Obligations.EventsKeepInv := by
  intro e s h
  cases e with
  | step =>
    simp only [afterEvent, ← step_eq_stepIn]
    cases hstep : step s with
    | next t => exact stepKeepsInv s t h hstep
    | fault r => exact h
    | refused r => exact h
  | host q => exact h.hostAccess Config.core_wellFormed q
  | reset landed => exact h.resetInside Config.core_wellFormed landed

end Sys2Proof.Machine
end
section
/-!
PROOFS. O52, O53, O54, O56: reset, START and CLEAR, the control and status registers, and the transitions of `STATE`
(10_state.md R44 to R50, R56; 70_reset_and_hazards.md R390 to R397).
-/
namespace Sys2Proof.Machine

/-! ## Reset -/

/-- Settles O52: a reset leaves the reset table, and of the memories only bytes of the pending store may differ. -/
theorem resetState : Obligations.ResetState := by
  have hempty : ∀ k x, State.reset.half k x = HalfReg.empty := half_of_empty rfl
  refine ⟨⟨rfl, rfl, rfl, rfl, rfl, rfl, rfl, rfl, fun k x => ?_, fun cr => ?_⟩, fun s landed => ?_⟩
  · rw [hempty]
    exact ⟨rfl, rfl⟩
  · rw [counter_of_empty rfl]
    rfl
  · rcases resetInside_cases Config.core landed s with hs | ⟨addr, bytes, hp, hs⟩
    · rw [hs]
      exact ⟨rfl, rfl, fun _ => rfl, fun _ _ => rfl⟩
    · rw [hs]
      exact ⟨rfl, rfl, fun _ => rfl, fun a ha => byteAt_writeLanded_outside _ _ _ _ (ha addr bytes hp)⟩

/-! ## CTRL -/

theorem writeCtrl_one (s : State) : writeCtrl s 1 = start s := rfl

theorem writeCtrl_two (s : State) : writeCtrl s 2 = clear s := rfl

theorem writeCtrl_of_ne (s : State) {v : BitVec 32} (h1 : v ≠ 1) (h2 : v ≠ 2) : writeCtrl s v = s := by
  rw [writeCtrl, if_neg h1, if_neg h2]

/-- Settles O53: START and CLEAR are `invalidate` and the fields each of them loads. -/
theorem runControl : Obligations.RunControl := by
  refine ⟨fun s v h1 h2 => writeCtrl_of_ne s h1 h2, fun s hrun => start_of_not_idle hrun, fun s hrun => ?_,
    fun s hrun => clear_of_running hrun, fun s hrun => ?_⟩
  · rw [writeCtrl_one, start_of_idle hrun]
    exact ⟨rfl, rfl, rfl, fun k x => congrArg HalfReg.valid (half_invalidate s k x),
      fun cr => congrArg CounterReg.valid (counter_invalidate s cr), rfl, rfl, rfl, rfl, rfl, fun _ => rfl, fun _ => rfl⟩
  · rw [writeCtrl_two, clear_of_not_running hrun]
    exact ⟨rfl, rfl, rfl, fun k x => congrArg HalfReg.valid (half_invalidate s k x),
      fun cr => congrArg CounterReg.valid (counter_invalidate s cr), rfl, rfl, rfl, rfl, rfl, fun _ => rfl, fun _ => rfl⟩

/-! ## What the host reads -/

/-- The layout of `STATUS` (R44, R50): the code of `STATE` in its low two bits, a flag in each of the next three, and
nothing above them. -/
theorem csrStatus_layout (s : State) :
    csrStatus s &&& 3 = BitVec.ofNat 32 s.run.code ∧ (csrStatus s).getLsbD 2 = s.invz
      ∧ (csrStatus s).getLsbD 3 = s.vsel ∧ (csrStatus s).getLsbD 4 = s.selm ∧ (csrStatus s).toNat < 2 ^ 5 := by
  simp only [csrStatus]
  cases s.run <;> cases s.invz <;> cases s.vsel <;> cases s.selm <;> decide

theorem selm_iff (s : State) : s.selm = true ↔ s.vsel = true ∧ s.sel = .allOnes := by
  rw [State.selm, Bool.and_eq_true, beq_iff_eq]

/-- `CFG` of the default CORE (R48). -/
theorem csrCfg_core : csrCfg Config.core = 0x074001B2 := by decide +kernel

/-- The low `n` bits of a word. -/
theorem toNat_and_lowMask (v : BitVec 32) {n : Nat} (hn : n ≤ 32) :
    (v &&& BitVec.ofNat 32 (2 ^ n - 1)).toNat = v.toNat % 2 ^ n := by
  have hpow : 2 ^ n ≤ 2 ^ 32 := Nat.pow_le_pow_right (by decide) hn
  rw [BitVec.toNat_and, BitVec.toNat_ofNat, Nat.mod_eq_of_lt (by omega), Nat.and_two_pow_sub_one_eq_mod]

/-- Settles O54: the map of R48 row by row, and the bits of `STATUS` by its layout. -/
theorem statusAndCsrs : Obligations.StatusAndCsrs := by
  intro s
  refine ⟨⟨rfl, rfl, rfl, ?_, ?_, rfl, rfl, rfl, csrCfg_core, fun i hi => ?_⟩, ?_, ?_⟩
  · apply BitVec.eq_of_toNat_eq
    rw [show (0xFFFF : BitVec 32) = BitVec.ofNat 32 (2 ^ 16 - 1) from rfl, toNat_and_lowMask _ (by decide)]
    simp only [csrRead, BitVec.toNat_setWidth]
    omega
  · apply BitVec.eq_of_toNat_eq
    rw [show (0x1FFFF : BitVec 32) = BitVec.ofNat 32 (2 ^ 17 - 1) from rfl, toNat_and_lowMask _ (by decide)]
    simp only [csrRead, BitVec.toNat_ofNat]
    omega
  · obtain ⟨j, rfl⟩ := Nat.exists_eq_add_of_le' hi
    rfl
  · obtain ⟨hcode, hinvz, hselv, hselm, hlt⟩ := csrStatus_layout s
    rw [hcode]
    have hword : ∀ r, s.run = r → BitVec.ofNat 32 s.run.code = BitVec.ofNat 32 r.code := fun r hrun => by rw [hrun]
    refine ⟨hword .idle, hword .running, hword .done, hword .fault, hinvz, hselv, by rw [hselm, selm_iff],
      fun j hj => ?_⟩
    exact Nat.testBit_lt_two_pow (hlt.trans_le (Nat.pow_le_pow_right (by decide) hj))
  · rw [irq, Bool.or_eq_true, beq_iff_eq, beq_iff_eq]

/-! ## The transitions of STATE -/

/-- A transaction changes `STATE` by START in IDLE and by CLEAR outside RUNNING alone (R397). -/
theorem hostAccess_run (c : Config) {s : State} {q : HostRequest} (hstart : s.run = .idle → q ≠ .csrWrite 1 1)
    (hclear : s.run ≠ .running → q ≠ .csrWrite 1 2) : (hostAccess c q s).2.run = s.run := by
  cases q with
  | csrRead i => rfl
  | csrWrite i v =>
    simp only [hostAccess]
    unfold hostCsrWrite
    split
    · by_cases h1 : v = 1
      · subst h1
        rw [writeCtrl_one, start_of_not_idle fun hrun => hstart hrun rfl]
      · by_cases h2 : v = 2
        · subst h2
          rw [writeCtrl_two, clear_of_running (by_contra fun hrun => hclear hrun rfl)]
        · rw [writeCtrl_of_ne s h1 h2]
    · split <;> rfl
    · rfl
  | imemRead | imemWrite | dmemRead | dmemWrite =>
    simp only [hostAccess]
    split <;> rfl

theorem step_of_halt {s : State} (hrun : s.run = .running) (hpc : s.pc < Config.core.imemWords)
    (hd : decode (s.wordAt s.pc) = some .halt) : step s = .next { s with run := .done } := by
  rw [step_of_running hrun, if_neg (Nat.not_le.2 hpc), hd]
  exact exec_of_none rfl

/-- Settles O56: a step in RUNNING enters a trap or has one effect, and an effect leaves `STATE` but for HALT. -/
theorem transitionTable : Obligations.TransitionTable := by
  refine ⟨fun s hrun => step_of_not_running hrun, fun s t hrun hstep => ?_, fun s landed => ?_, fun s q => ?_⟩
  · rcases step_next hrun hstep with ⟨e, rfl⟩ | ⟨i, hpc, hd, -, rfl⟩
    · refine ⟨.inr (.inr rfl), ⟨nofun, fun ⟨hpc, hd⟩ => ?_⟩, ⟨fun _ => ⟨e, rfl⟩, fun _ => rfl⟩⟩
      rw [step_of_halt hrun hpc hd] at hstep
      exact congrArg State.run (Host.Outcome.next.inj hstep).symm
    · have hdone : (effect Config.core i s).run = .done ↔ i = .halt := by
        rw [effect_run, hrun]
        split <;> simp [*]
      have hfault : (effect Config.core i s).run ≠ .fault := by
        rw [effect_run, hrun]
        split <;> nofun
      refine ⟨?_, ?_, ⟨fun hr => absurd hr hfault, fun ⟨e, he⟩ => absurd (congrArg State.run he) hfault⟩⟩
      · rw [effect_run, hrun]
        split
        · exact .inr (.inl rfl)
        · exact .inl rfl
      · rw [hd, hdone, Option.some.injEq]
        exact ⟨fun hi => ⟨hpc, hi⟩, fun h => h.2⟩
  · rcases resetInside_cases Config.core landed s with hs | ⟨addr, bytes, -, hs⟩
    · exact congrArg State.run hs
    · exact congrArg State.run hs
  · refine ⟨fun hrun hq => ?_, fun hrun hq => ?_, fun hstart hclear => hostAccess_run _ hstart hclear⟩
    · subst hq
      exact congrArg State.run (start_of_idle hrun)
    · subst hq
      exact congrArg State.run (clear_of_not_running hrun)

end Sys2Proof.Machine
end

section
/-!
PROOFS. O10, O11, O12: what holds of every instruction (10_state.md R34 to R45, 60_exceptions.md R343).
-/
namespace Sys2Proof.Machine

theorem rangeTrap_eq_some {c : Config} {i : Instr} {s : State} {e : Trap} (h : rangeTrap c i s = some e) :
    ∃ a, e = .dmemAccessFault a := by
  rw [rangeTrap] at h
  split at h
  · split at h
    · exact ⟨_, (Option.some.inj h).symm⟩
    · cases h
  · cases h

theorem raises_of_unreadableSource {c : Config} {i : Instr} {s : State} {code : Nat} (hwf : i.wellFormed = true)
    (h : unreadableSource i s = some code) : raises c i s = some (.uninitRegister code) := by
  rw [raises, if_pos hwf, h]

/-- Of the exceptions an instruction can raise, code 3 stands for an unreadable source alone (R341, R345). -/
theorem unreadableSource_of_code {c : Config} {i : Instr} {s : State} {e : Trap} (h : raises c i s = some e)
    (he : e.code = 3) : ∃ code, unreadableSource i s = some code := by
  rw [raises_eq_checkTrap_or, Option.or_eq_some_iff] at h
  rcases h with hcheck | ⟨-, hdata⟩
  · rw [checkTrap] at hcheck
    split at hcheck
    · cases hu : unreadableSource i s with
      | some code => exact ⟨code, rfl⟩
      | none =>
        rw [hu] at hcheck
        obtain ⟨a, rfl⟩ := rangeTrap_eq_some hcheck
        cases he
    · cases hcheck
      cases he
  · rcases dataFault_of_dataTrap hdata with h5 | h6
    · cases he.symm.trans h5
    · cases he.symm.trans h6

/-- Settles O10: an unreadable source comes second in the order of R345, and the trap record is written by traps alone. -/
theorem uninitRegister : Obligations.UninitRegister := by
  refine ⟨fun i s code hwf h => exec_of_raises (raises_of_unreadableSource hwf h), fun i s t hcause hexec ht => ?_⟩
  rcases exec_next hexec with ⟨e, he, rfl⟩ | ⟨-, rfl⟩
  · exact unreadableSource_of_code he ht
  · rw [(effect_frame Config.core i s).cause, hcause] at ht
    cases ht

/-- Settles O11: the effect of an instruction, by the laws of Laws/Frame.lean. -/
theorem instructionFrame : Obligations.InstructionFrame := fun i s hn =>
  ⟨_, exec_of_none hn, effect_frame Config.core i s, effect_run Config.core i s, effect_invz⟩

theorem counter_effect_djnz (c : Config) (cr : CIdx) (imm : BitVec 16) (s : State) :
    ((effect c (.djnz cr imm) s).counter cr).val = djnzValue s cr := by
  simp only [effect]
  split <;> simp [counter_setCounter]

/-- Settles O12: a trap leaves `PC`, and an effect sends it where `pcAfter` says. -/
theorem advance : Obligations.Advance := by
  intro i s t hrun hexec
  rcases exec_next hexec with ⟨e, -, rfl⟩ | ⟨hn, rfl⟩
  · exact .inl ⟨rfl, rfl, rfl⟩
  · right
    have hpc := effect_pc (c := Config.core) (s := s) (wellFormed_of_none hn)
    cases i with
    | halt => exact .inl ⟨rfl, hpc⟩
    | jmp imm => exact .inr (.inl ⟨imm, rfl, hpc⟩)
    | djnz cr imm =>
      right; right
      have hv := counter_effect_djnz Config.core cr imm s
      by_cases hz : djnzValue s cr = 0
      · rw [pcAfter, if_neg (not_not.2 hz)] at hpc
        refine .inr ⟨nofun, nofun, fun cr' imm' h => ?_, hpc⟩
        cases h
        exact hv.trans hz
      · rw [pcAfter, if_pos hz] at hpc
        exact .inl ⟨cr, imm, rfl, hv ▸ hz, hpc⟩
    | _ => exact .inr (.inr (.inr ⟨nofun, nofun, nofun, hpc⟩))

end Sys2Proof.Machine
end

section
/-!
PROOFS. O29, O32, O34, O35, O36: the inversions and the predicates (43_fp.md R207; 44_fp2.md R235, R239 to R242).
-/
namespace Sys2Proof.Machine

/-! ## FPINV and F2INV -/

/-- Settles O29: the effect of FPINV writes one half and notes its operand. -/
theorem fpinvResult : Obligations.FpinvResult := by
  intro rd hd ra ha s x hx
  have hnone : raises Config.core (.fpinv rd hd ra ha) s = none :=
    raises_eq_none_of_halves rfl (List.forall_mem_singleton.2 hx.1) rfl rfl rfl rfl
  rw [← hx.2]
  exact ⟨_, exec_of_none hnone, completes_of_writes hnone rfl rfl nofun, holds_setHalf s rd hd _,
    noteInversion_invz_iff (s.setHalf rd hd _).advance _⟩

/-- The norm, `(a^2 + b^2) * R^-1` modulo `P` (R235). -/
theorem f2norm_eq_mod {c : Config} (h : c.WellFormed) (x : Fp2) :
    f2norm c x = (x.a * x.a + x.b * x.b) * c.rInv % c.p := by
  refine eq_of_cast_eq (f2norm_lt h x) (Nat.mod_lt _ h.p_pos) ?_
  rw [f2norm, cast_fpadd, cast_fpmul, cast_fpmul, ZMod.natCast_mod]
  push_cast
  ring

/-- Settles O32: the effect of F2INV writes `f2inv` and notes the norm. -/
theorem f2invResult : Obligations.F2invResult := by
  intro rd ra s x hx
  rw [← f2norm_eq_mod Config.core_wellFormed, ← reg_of_regHolds hx]
  exact exec_completes [ra] rfl (valid_singleton hx)
    ⟨regHolds_setReg_self s rd _, noteInversion_invz_iff (s.setReg rd _).advance _⟩

/-! ## F2EQ and F2ISZ -/

theorem f2isEqual_iff (x y : Fp2) : f2isEqual x y = true ↔ x = y := by
  rw [f2isEqual, Bool.and_eq_true, beq_iff_eq, beq_iff_eq, Fp2.mk.injEq]

theorem f2isZero_iff (x : Fp2) : f2isZero x = true ↔ x.a = 0 ∧ x.b = 0 := by
  rw [f2isZero, Bool.and_eq_true, beq_iff_eq, beq_iff_eq]

theorem ofBool_eq_ite {b : Bool} {q : Prop} [Decidable q] (h : b = true ↔ q) :
    Selector.ofBool b = if q then .allOnes else .zero := by
  simp only [Selector.ofBool, h]

/-- Settles O34: the effect of each writes the selector of its predicate. -/
theorem f2PredicateResults : Obligations.F2PredicateResults := by
  intro ra rb s x y hx hy
  rw [← reg_of_regHolds hx, ← reg_of_regHolds hy]
  exact ⟨exec_completes [ra, rb] rfl (valid_cons hx (valid_singleton hy)) ⟨rfl, ofBool_eq_ite (f2isEqual_iff _ _)⟩,
    exec_completes [ra] rfl (valid_singleton hx) ⟨rfl, ofBool_eq_ite (f2isZero_iff _)⟩⟩

/-! ## F2INV3 and F2INVN -/

/-- Three different registers hold what was written to them one after the other. -/
theorem regHolds_setReg_three (s : State) {j k l : FIdx} (u v w : Fp2) (hjk : j ≠ k) (hjl : j ≠ l) (hkl : k ≠ l) :
    (((s.setReg j u).setReg k v).setReg l w).regHolds j u ∧ (((s.setReg j u).setReg k v).setReg l w).regHolds k v
      ∧ (((s.setReg j u).setReg k v).setReg l w).regHolds l w := by
  simp only [regHolds_setReg, hjk, hjl, hkl, if_false, if_true, and_self]

/-- What F2INV3 leaves in three different registers and in `INVZ` (R241). -/
theorem effect_f2inv3_holds (c : Config) (s : State) {rd ra rb : FIdx} (hda : rd ≠ ra) (hdb : rd ≠ rb) (hab : ra ≠ rb) :
    (effect c (.f2inv3 rd ra rb) s).regHolds rd (inv3Way c (s.reg rd) (s.reg ra) (s.reg rb)).k0
      ∧ (effect c (.f2inv3 rd ra rb) s).regHolds ra (inv3Way c (s.reg rd) (s.reg ra) (s.reg rb)).k1
      ∧ (effect c (.f2inv3 rd ra rb) s).regHolds rb (inv3Way c (s.reg rd) (s.reg ra) (s.reg rb)).k2
      ∧ ((effect c (.f2inv3 rd ra rb) s).invz = true ↔ s.invz = true
        ∨ f2norm c (f2mul c (s.reg rb) (f2mul c (s.reg rd) (s.reg ra))) = 0) := by
  obtain ⟨hrd, hra, hrb⟩ := regHolds_setReg_three s _ _ _ hda hdb hab
  exact ⟨hrd, hra, hrb, noteInversion_invz_iff _ _⟩

/-- Settles O35: three different registers, so no result is overwritten by another. -/
theorem f2inv3Result : Obligations.F2inv3Result := by
  intro rd ra rb s z1 z2 z3 hda hdb hab h1 h2 h3
  have hwf : (Instr.f2inv3 rd ra rb).wellFormed = true := by simp [Instr.wellFormed, hda, hdb, hab]
  rw [← reg_of_regHolds h1, ← reg_of_regHolds h2, ← reg_of_regHolds h3]
  exact exec_completes [rd, ra, rb] hwf (valid_cons h1 (valid_cons h2 (valid_singleton h3)))
    (effect_f2inv3_holds Config.core s hda hdb hab)

section heldVector
variable {s : State} {k : FIdx} {vs : List Fp2} (hk : k.val + vs.length ≤ 32)
  (h : ∀ j (hj : j < vs.length) (hr : k.val + j < 32), s.regHolds ⟨k.val + j, hr⟩ vs[j])
include hk h

/-- The vector of registers that hold the elements of a list is the list (R33). -/
theorem vector_eq_of_regHolds : s.vector k vs.length = vs := by
  refine List.ext_getElem (length_vector s k _) fun j h1 hj => ?_
  have hreg : (vectorRegs k vs.length)[j]'(by simpa using hj) = ⟨k.val + j, by omega⟩ :=
    Fin.ext (getElem_vectorRegs hk hj _)
  simp only [State.vector, List.getElem_map, hreg]
  exact reg_of_regHolds (h j hj _)

theorem valid_of_vector : ∀ j ∈ vectorRegs k vs.length, ∀ x, (s.half j x).valid = true := by
  intro j hj
  obtain ⟨h1, h2⟩ := (mem_vectorRegs hk).1 hj
  obtain ⟨i, hi⟩ := Nat.exists_eq_add_of_le h1
  rw [show j = ⟨k.val + i, by omega⟩ from Fin.ext hi]
  exact valid_of_regHolds (h i (by omega) _)

end heldVector

/-- Settles O36: the whole source vector is read before the destination is written, so the two may overlap. -/
theorem f2invnResult : Obligations.F2invnResult := by
  intro rd ra n s v vs hn hrd hra hlen hheld
  have hheld' : ∀ j (hj : j < (v :: vs).length) (hr : ra.val + j < 32), s.regHolds ⟨ra.val + j, hr⟩ (v :: vs)[j] :=
    fun j hj hr => hheld j (hlen ▸ hj) hj hr
  have hvector : s.vector ra n.toNat = v :: vs := hlen ▸ vector_eq_of_regHolds (hlen ▸ hra) hheld'
  have hinvN : (invN Config.core v vs).length = n.toNat := (length_invN _ _ _).trans hlen
  have hwf : (Instr.f2invn rd ra n).wellFormed = true := by
    rw [List.length_cons] at hlen
    simp only [Instr.wellFormed, vectorOk, Bool.and_eq_true, decide_eq_true_eq]
    omega
  refine exec_completes (vectorRegs ra n.toNat) hwf (hlen ▸ valid_of_vector (hlen ▸ hra) hheld') ?_
  simp only [effect, hvector]
  refine ⟨hinvN, fun j hj hr => regHolds_setVector s (hinvN ▸ hrd) hj hr, ?_⟩
  rw [advance_invz, noteInversion_invz_iff, setVector_invz, f2product]

end Sys2Proof.Machine
end

section
/-!
PROOFS. O21 to O26: the memory instructions (42_memory_ops.md R180 to R186, 20_memory.md R73 to R78, R90). The range
check and the frame are proved once for every instruction that accesses DMEM; an instruction adds the bytes it moves.
-/
namespace Sys2Proof.Machine

/-! ## Sources: the counter, and what a store reads besides (R343) -/

section sources
variable {s : State} {cr : CIdx} (hcr : (s.counter cr).valid = true)
include hcr

theorem valid_of_sourceCounter : ∀ d, some cr = some d → (s.counter d).valid = true :=
  fun _ hd => Option.some.inj hd ▸ hcr

theorem unreadableSource_of_load {i : Instr} (hhalves : i.sourceHalves = [] := by rfl)
    (hsel : i.readsSel = false := by rfl) (hcounter : i.sourceCounter = some cr := by rfl) :
    unreadableSource i s = none :=
  unreadableSource_eq_none (by simp [hhalves]) (by simp [hsel]) (hcounter ▸ valid_of_sourceCounter hcr)

theorem unreadableSource_of_storeReg {i : Instr} {rd : FIdx} {x : Fp2} (hx : s.regHolds rd x)
    (hhalves : i.sourceHalves = bothHalves [rd] := by rfl) (hsel : i.readsSel = false := by rfl)
    (hcounter : i.sourceCounter = some cr := by rfl) : unreadableSource i s = none :=
  unreadableSource_eq_none (hhalves ▸ valid_of_mem_bothHalves (valid_singleton hx)) (by simp [hsel])
    (hcounter ▸ valid_of_sourceCounter hcr)

theorem unreadableSource_selst (imm : BitVec 16) (hsel : s.vsel = true) : unreadableSource (.selst cr imm) s = none :=
  unreadableSource_eq_none (List.forall_mem_nil _) (fun _ => hsel) (valid_of_sourceCounter hcr)

end sources

/-! ## The range check (R73, R74) -/

section access
variable {c : Config} {i : Instr} {s : State} {cr : CIdx} {imm : BitVec 16} {n : Nat}

theorem rangeTrap_of_access (ha : i.access c = some (cr, imm, n)) :
    rangeTrap c i s =
      if c.dmemBytes < s.address cr imm + n then some (.dmemAccessFault (s.address cr imm)) else none := by
  rw [rangeTrap, accessRange, ha]
  rfl

/-- An access that leaves DMEM is refused, whatever the bytes are. -/
theorem raises_of_outside (hwf : i.wellFormed = true) (hread : unreadableSource i s = none)
    (ha : i.access c = some (cr, imm, n)) (hout : c.dmemBytes < s.address cr imm + n) :
    raises c i s = some (.dmemAccessFault (s.address cr imm)) := by
  rw [raises, if_pos hwf, hread, rangeTrap_of_access ha, if_pos hout]

/-- Inside DMEM the loaded bytes alone can raise something (R345). -/
theorem raises_of_inside (hwf : i.wellFormed = true) (hread : unreadableSource i s = none)
    (ha : i.access c = some (cr, imm, n)) (hin : s.address cr imm + n ≤ c.dmemBytes) :
    raises c i s = dataTrap c i s := by
  rw [raises, if_pos hwf, hread, rangeTrap_of_access ha, if_neg (Nat.not_lt.2 hin)]

end access

/-! ## Loads (R181, R183) -/

theorem elementTrap_of_first {c : Config} {s : State} {a n : Nat} (h : c.p ≤ s.numberAt a n) :
    elementTrap c s a n = some (.malformedInput a) := by
  rw [elementTrap, if_pos h]

theorem elementTrap_of_second {c : Config} {s : State} {a n : Nat} (h1 : s.numberAt a n < c.p)
    (h2 : c.p ≤ s.numberAt (a + n) n) : elementTrap c s a n = some (.malformedInput (a + n)) := by
  rw [elementTrap, if_neg (Nat.not_le.2 h1), if_pos h2]

/-- What a load of two elements of `n` bytes each refuses (R73, R76, R78). -/
theorem load_traps {i : Instr} {s : State} {cr : CIdx} {imm : BitVec 16} {n : Nat} (hwf : i.wellFormed = true)
    (hread : unreadableSource i s = none) (ha : i.access Config.core = some (cr, imm, 2 * n))
    (hd : dataTrap Config.core i s = elementTrap Config.core s (s.address cr imm) n) :
    (Config.core.dmemBytes < s.address cr imm + 2 * n →
        exec i s = .next (takeTrap (.dmemAccessFault (s.address cr imm)) s))
      ∧ (s.address cr imm + 2 * n ≤ Config.core.dmemBytes → Config.core.p ≤ s.numberAt (s.address cr imm) n →
        exec i s = .next (takeTrap (.malformedInput (s.address cr imm)) s))
      ∧ (s.address cr imm + 2 * n ≤ Config.core.dmemBytes → s.numberAt (s.address cr imm) n < Config.core.p →
        Config.core.p ≤ s.numberAt (s.address cr imm + n) n →
        exec i s = .next (takeTrap (.malformedInput (s.address cr imm + n)) s)) := by
  refine ⟨fun hout => ?_, fun hin h1 => ?_, fun hin h1 h2 => ?_⟩
  · exact exec_of_raises (raises_of_outside hwf hread ha hout)
  · exact exec_of_raises ((raises_of_inside hwf hread ha hin).trans (hd.trans (elementTrap_of_first h1)))
  · exact exec_of_raises ((raises_of_inside hwf hread ha hin).trans (hd.trans (elementTrap_of_second h1 h2)))

/-- Settles O21: the two loads differ in the width of an element alone. -/
theorem loadTraps : Obligations.LoadTraps := by
  intro rd cr imm s hcr
  exact List.forall_mem_cons.2 ⟨load_traps rfl (unreadableSource_of_load hcr) rfl rfl,
    List.forall_mem_singleton.2 (load_traps rfl (unreadableSource_of_load hcr) rfl rfl)⟩

/-! ## Stores (R182, R184, R186) -/

/-- A store with readable sources writes its bytes where they fit, and else nothing at all (R74). -/
theorem store_result {i : Instr} {s : State} {cr : CIdx} {imm : BitVec 16} {n : Nat} {bs : List Byte}
    (hread : unreadableSource i s = none) (hlen : bs.length = n)
    (heff : effect Config.core i s = (s.storeBytes (s.address cr imm) bs).advance)
    (ha : i.access Config.core = some (cr, imm, n) := by rfl)
    (hwrites : instrWrites Config.core i s = Writes.ofBytes (s.address cr imm) n := by rfl)
    (hwf : i.wellFormed = true := by rfl) (hdata : dataTrap Config.core i s = none := by rfl)
    (hpc : pcAfter i s = s.pc + 1 := by rfl) (hhalt : i ≠ .halt := by nofun) :
    (s.address cr imm + n ≤ Config.core.dmemBytes →
      ∃ t, exec i s = .next t ∧ Completes (Writes.ofBytes (s.address cr imm) n) s t
        ∧ t.bytesAt (s.address cr imm) n = bs)
    ∧ (Config.core.dmemBytes < s.address cr imm + n →
      exec i s = .next (takeTrap (.dmemAccessFault (s.address cr imm)) s)) := by
  refine ⟨fun hin => ?_, fun hout => exec_of_raises (raises_of_outside hwf hread ha hout)⟩
  have hnone : raises Config.core i s = none := (raises_of_inside hwf hread ha hin).trans hdata
  refine ⟨_, exec_of_none hnone, completes_of_writes hnone hwrites hpc hhalt, ?_⟩
  rw [heff, ← hlen]
  exact bytesAt_storeBytes s _ bs

/-- Settles O22: STF stores the canonical bytes of the halves it reads. -/
theorem stfResult : Obligations.StfResult := by
  intro rd cr imm s x hx hcr
  have hbytes : canonicalBytes Config.core (s.reg rd)
      = leBytes Config.core.nBytes (x.a * Config.core.rInv % Config.core.p)
        ++ leBytes Config.core.nBytes (x.b * Config.core.rInv % Config.core.p) := by
    rw [reg_of_regHolds hx, canonicalBytes, fromMontgomery_eq_rep, fromMontgomery_eq_rep, rep, rep]
  rw [← hbytes]
  exact store_result (unreadableSource_of_storeReg hcr hx) (length_canonicalBytes _ _) rfl

/-- Settles O23: STFM stores the raw bytes of the halves it reads. -/
theorem stfmResult : Obligations.StfmResult := by
  intro rd cr imm s x hx hcr
  rw [← rawBytes, ← reg_of_regHolds hx]
  exact store_result (unreadableSource_of_storeReg hcr hx) (length_rawBytes _ _) rfl

theorem selectorBytes_eq_replicate (c : Config) (v : Selector) :
    selectorBytes c v = List.replicate c.wordBytes (if v = .allOnes then 0xFF else 0x00) := by
  cases v <;> rfl

/-- Settles O25: SELST stores the word of the selector it reads. -/
theorem selstResult : Obligations.SelstResult := by
  intro cr imm s hsel hcr
  rw [← selectorBytes_eq_replicate]
  exact store_result (unreadableSource_selst hcr imm hsel) (length_selectorBytes _ _) rfl

/-! ## SELLD (R90, R185) -/

theorem wordBytes_ne_zero {c : Config} (h : c.WellFormed) : c.wordBytes ≠ 0 := by
  obtain ⟨-, -, hw, -⟩ := h
  exact (Nat.div_pos hw (by decide)).ne'

/-- The word of a selector is that selector (R90). -/
theorem selectorOfBytes_selectorBytes {c : Config} (h : c.WellFormed) (v : Selector) :
    selectorOfBytes (selectorBytes c v) = some v := by
  cases v <;> simp [selectorOfBytes, selectorBytes, wordBytes_ne_zero h]

/-- Bytes that are neither all 0x00 nor all 0xFF are no selector (R90). -/
theorem selectorOfBytes_eq_none {bs : List Byte} (h0 : bs ≠ List.replicate bs.length 0x00)
    (h1 : bs ≠ List.replicate bs.length 0xFF) : selectorOfBytes bs = none := by
  have hall : ∀ b : Byte, bs ≠ List.replicate bs.length b → ¬ bs.all (· == b) = true := fun b hb h =>
    hb (List.eq_replicate_iff.2 ⟨rfl, fun y hy => beq_iff_eq.1 (List.all_eq_true.1 h y hy)⟩)
  rw [selectorOfBytes, if_neg (hall _ h0), if_neg (hall _ h1)]

theorem dataTrap_selld_of_some {c : Config} {cr : CIdx} {imm : BitVec 16} {s : State} {v : Selector}
    (h : selectorOfBytes (s.bytesAt (s.address cr imm) c.wordBytes) = some v) :
    dataTrap c (.selld cr imm) s = none := by
  simp only [dataTrap, h]

theorem dataTrap_selld_of_none {c : Config} {cr : CIdx} {imm : BitVec 16} {s : State}
    (h : selectorOfBytes (s.bytesAt (s.address cr imm) c.wordBytes) = none) :
    dataTrap c (.selld cr imm) s = some (.illegalSelector (s.address cr imm)) := by
  simp only [dataTrap, h]

/-- Settles O24: the word at the address is the one of a selector, or it is refused. -/
theorem selldResult : Obligations.SelldResult := by
  intro cr imm s hcr
  have hread : unreadableSource (.selld cr imm) s = none := unreadableSource_of_load hcr
  refine ⟨fun hin => ⟨fun v hv => ?_, fun h0 h1 => ?_⟩, fun hout => exec_of_raises (raises_of_outside rfl hread rfl hout)⟩
  · have hsel : selectorOfBytes (s.bytesAt (s.address cr imm) Config.core.wordBytes) = some v := by
      rw [hv, ← selectorBytes_eq_replicate, selectorOfBytes_selectorBytes Config.core_wellFormed]
    have hnone : raises Config.core (.selld cr imm) s = none :=
      (raises_of_inside rfl hread rfl hin).trans (dataTrap_selld_of_some hsel)
    refine ⟨_, exec_of_none hnone, completes_of_writes hnone rfl rfl nofun, ?_, rfl⟩
    rw [effect, hsel]
    rfl
  · have hsel : selectorOfBytes (s.bytesAt (s.address cr imm) Config.core.wordBytes) = none :=
      selectorOfBytes_eq_none (by rwa [length_bytesAt]) (by rwa [length_bytesAt])
    exact exec_of_raises ((raises_of_inside rfl hread rfl hin).trans (dataTrap_selld_of_none hsel))

end Sys2Proof.Machine
end

section
/-!
PROOFS. O26: the round trips of the stores and the loads (42_memory_ops.md R181 to R184, 20_memory.md R75, R85).
-/
namespace Sys2Proof.Machine

/-! ## Bytes and numbers (R75) -/

theorem bytesAt_two_mul (s : State) (a n : Nat) : s.bytesAt a (2 * n) = s.bytesAt a n ++ s.bytesAt (a + n) n := by
  rw [← bytesAt_take s a n, ← bytesAt_drop s a n, List.take_append_drop]

theorem leBytes_numberAt (s : State) (a n : Nat) : leBytes n (s.numberAt a n) = s.bytesAt a n := by
  have h := leBytes_le (s.bytesAt a n)
  rwa [length_bytesAt] at h

/-- Storing the bytes that are there changes no byte (R85). -/
theorem byteAt_storeBytes_bytesAt (s : State) (a n x : Nat) :
    (s.storeBytes a (s.bytesAt a n)).byteAt x = s.byteAt x := by
  rw [byteAt_storeBytes]
  split
  · rename_i h
    simp only [State.bytesAt, List.getElem_map, List.getElem_range, Nat.add_sub_cancel' h.1]
  · rfl

/-- An element fits in `MBYTES` bytes (R9, R78). -/
theorem lt_pow_mBytes {c : Config} (h : c.WellFormed) {v : Nat} (hv : v < c.p) : v < 256 ^ c.mBytes := by
  have ⟨_, hw, _⟩ := h
  have hbits : 8 * c.mBytes = c.rBits := Nat.mul_div_cancel' ((Nat.dvd_of_mod_eq_zero hw).mul_left c.nWords)
  rw [show 256 = 2 ^ 8 from rfl, ← Nat.pow_mul, hbits]
  exact hv.trans h.p_lt_r

/-- The two numbers read back where two numbers were stored are those numbers (R75, R85). -/
theorem numberAt_storeBytes (s : State) (a : Nat) {n v w : Nat} (hv : v < 256 ^ n) (hw : w < 256 ^ n) :
    (s.storeBytes a (leBytes n v ++ leBytes n w)).numberAt a n = v
      ∧ (s.storeBytes a (leBytes n v ++ leBytes n w)).numberAt (a + n) n = w := by
  have hread := bytesAt_storeBytes s a (leBytes n v ++ leBytes n w)
  rw [List.length_append, length_leBytes, length_leBytes, ← Nat.two_mul, bytesAt_two_mul] at hread
  obtain ⟨h1, h2⟩ := List.append_inj hread (by simp)
  exact ⟨by rw [State.numberAt, h1, le_leBytes n v hv], by rw [State.numberAt, h2, le_leBytes n w hw]⟩

/-! ## The address is the same for the second instruction of a round trip -/

section address
variable {c : Config} {i : Instr} {s : State} (hi : i.destCounters = []) (cr : CIdx)
include hi

theorem counter_effect : (effect c i s).counter cr = s.counter cr :=
  (effect_frame c i s).counters cr (by simp [instrWrites, hi])

theorem address_effect (imm : BitVec 16) : (effect c i s).address cr imm = s.address cr imm := by
  rw [State.address, State.address, counter_effect hi]

end address

/-! ## LDF and STF (R181, R182) -/

section ldf_stf
variable {c : Config} (hc : c.WellFormed) {rd : FIdx} {cr : CIdx} {imm : BitVec 16} {s : State}
  (h1 : s.numberAt (s.address cr imm) c.nBytes < c.p)
  (h2 : s.numberAt (s.address cr imm + c.nBytes) c.nBytes < c.p)
include hc

theorem fromMontgomery_toMontgomery {v : Nat} (hv : v < c.p) : fromMontgomery c (toMontgomery c v) = v := by
  rw [toMontgomery_eq_sto hc, fromMontgomery_eq_rep, rep_sto hc hv]

include h1 h2

/-- The canonical bytes of a loaded element are the bytes it was loaded from (R76). -/
theorem canonicalBytes_effect_ldf :
    canonicalBytes c ((effect c (.ldf rd cr imm) s).reg rd) = s.bytesAt (s.address cr imm) (2 * c.nBytes) := by
  simp only [effect, reg_advance, reg_setReg_self, canonicalBytes, fromMontgomery_toMontgomery hc h1,
    fromMontgomery_toMontgomery hc h2, leBytes_numberAt, bytesAt_two_mul]

theorem byteAt_effect_ldf_stf (a : Nat) :
    (effect c (.stf rd cr imm) (effect c (.ldf rd cr imm) s)).byteAt a = s.byteAt a := by
  rw [effect.eq_def c (.stf rd cr imm)]
  simp only [canonicalBytes_effect_ldf hc h1 h2, address_effect (i := .ldf rd cr imm) rfl]
  exact byteAt_storeBytes_bytesAt (effect c (.ldf rd cr imm) s) (s.address cr imm) _ a

end ldf_stf

/-- Where LDF completes, STF of the same register to the same place completes and changes no byte of DMEM. -/
theorem ldf_stf_roundTrip {rd : FIdx} {cr : CIdx} {imm : BitVec 16} {s : State} (hcr : (s.counter cr).valid = true)
    (hin : s.address cr imm + 2 * Config.core.nBytes ≤ Config.core.dmemBytes)
    (h1 : s.numberAt (s.address cr imm) Config.core.nBytes < Config.core.p)
    (h2 : s.numberAt (s.address cr imm + Config.core.nBytes) Config.core.nBytes < Config.core.p) :
    ∃ t u, exec (.ldf rd cr imm) s = .next t ∧ exec (.stf rd cr imm) t = .next u ∧ ∀ a, u.byteAt a = s.byteAt a := by
  have hload : raises Config.core (.ldf rd cr imm) s = none :=
    (raises_of_inside rfl (unreadableSource_of_load hcr) rfl hin).trans (elementTrap_eq_none.2 ⟨h1, h2⟩)
  have hread : unreadableSource (.stf rd cr imm) (effect Config.core (.ldf rd cr imm) s) = none :=
    unreadableSource_of_storeReg (by rwa [counter_effect rfl]) (regHolds_setReg_self s rd _)
  have hstore : raises Config.core (.stf rd cr imm) (effect Config.core (.ldf rd cr imm) s) = none :=
    raises_of_inside rfl hread rfl (by rw [address_effect rfl]; exact hin)
  exact ⟨_, _, exec_of_none hload, exec_of_none hstore, byteAt_effect_ldf_stf Config.core_wellFormed h1 h2⟩

/-! ## STFM and LDFM (R183, R184) -/

theorem regHolds_effect_ldfm (c : Config) (rd : FIdx) (cr : CIdx) (imm : BitVec 16) (s : State) :
    (effect c (.ldfm rd cr imm) s).regHolds rd
      { a := s.numberAt (s.address cr imm) c.mBytes, b := s.numberAt (s.address cr imm + c.mBytes) c.mBytes } :=
  regHolds_setReg_self s rd _

section stfm_ldfm
variable {c : Config} (hc : c.WellFormed) {rs : FIdx} (rd : FIdx) (cr : CIdx) (imm : BitVec 16) {s : State}
  (hred : (s.reg rs).reduced c)
include hc hred

/-- The two numbers a stored raw image reads back as are the halves of the element (R78, R184). -/
theorem numberAt_effect_stfm :
    (effect c (.stfm rs cr imm) s).numberAt (s.address cr imm) c.mBytes = (s.reg rs).a
      ∧ (effect c (.stfm rs cr imm) s).numberAt (s.address cr imm + c.mBytes) c.mBytes = (s.reg rs).b :=
  numberAt_storeBytes s (s.address cr imm) (lt_pow_mBytes hc hred.1) (lt_pow_mBytes hc hred.2)

theorem dataTrap_effect_stfm_ldfm : dataTrap c (.ldfm rd cr imm) (effect c (.stfm rs cr imm) s) = none := by
  obtain ⟨ha, hb⟩ := numberAt_effect_stfm hc cr imm hred
  rw [dataTrap, address_effect rfl]
  exact elementTrap_eq_none.2 ⟨ha.trans_lt hred.1, hb.trans_lt hred.2⟩

theorem regHolds_effect_stfm_ldfm :
    (effect c (.ldfm rd cr imm) (effect c (.stfm rs cr imm) s)).regHolds rd (s.reg rs) := by
  obtain ⟨ha, hb⟩ := numberAt_effect_stfm hc cr imm hred
  have hloaded := regHolds_effect_ldfm c rd cr imm (effect c (.stfm rs cr imm) s)
  rwa [address_effect rfl, ha, hb] at hloaded

end stfm_ldfm

theorem half_effect_stfm_ldfm (c : Config) {rs rd : FIdx} (cr : CIdx) (imm : BitVec 16) (s : State) {k : FIdx}
    (hk : k ≠ rd) (h : Half) :
    (effect c (.ldfm rd cr imm) (effect c (.stfm rs cr imm) s)).half k h = s.half k h := by
  have hload := (effect_frame c (.ldfm rd cr imm) (effect c (.stfm rs cr imm) s)).halves k h
    (by simp [instrWrites, Instr.destHalves, hk])
  exact hload.trans ((effect_frame c (.stfm rs cr imm) s).halves k h (List.not_mem_nil))

/-- Where STFM of a reduced element fits, LDFM from the same place gives its destination that element. -/
theorem stfm_ldfm_roundTrip {rs : FIdx} (rd : FIdx) {cr : CIdx} {imm : BitVec 16} {s : State} {x : Fp2}
    (hx : s.regHolds rs x) (hred : x.reduced Config.core) (hcr : (s.counter cr).valid = true)
    (hin : s.address cr imm + 2 * Config.core.mBytes ≤ Config.core.dmemBytes) :
    ∃ t u, exec (.stfm rs cr imm) s = .next t ∧ exec (.ldfm rd cr imm) t = .next u
      ∧ u.regHolds rd x ∧ ∀ k h, k ≠ rd → u.half k h = s.half k h := by
  obtain rfl := reg_of_regHolds hx
  have hstore : raises Config.core (.stfm rs cr imm) s = none :=
    raises_of_inside rfl (unreadableSource_of_storeReg hcr hx) rfl hin
  have hread : unreadableSource (.ldfm rd cr imm) (effect Config.core (.stfm rs cr imm) s) = none :=
    unreadableSource_of_load (by rwa [counter_effect rfl])
  have hload : raises Config.core (.ldfm rd cr imm) (effect Config.core (.stfm rs cr imm) s) = none :=
    (raises_of_inside rfl hread rfl (by rw [address_effect rfl]; exact hin)).trans
      (dataTrap_effect_stfm_ldfm Config.core_wellFormed rd cr imm hred)
  exact ⟨_, _, exec_of_none hstore, exec_of_none hload, regHolds_effect_stfm_ldfm Config.core_wellFormed rd cr imm hred,
    fun _ h hk => half_effect_stfm_ldfm Config.core cr imm s hk h⟩

/-- Settles O26: each half is one of the two round trips. -/
theorem storeLoadRoundTrips : Obligations.StoreLoadRoundTrips :=
  ⟨fun _ _ _ _ hcr hin h1 h2 => ldf_stf_roundTrip hcr hin h1 h2,
    fun _ rd _ _ _ _ hx hred hcr hin => stfm_ldfm_roundTrip rd hx hred hcr hin⟩

end Sys2Proof.Machine
end

section
/-!
PROOFS. O7, O55: a step in RUNNING (20_memory.md R71, 70_reset_and_hazards.md R394), and the six host transactions
(20_memory.md R80).
-/
namespace Sys2Proof.Machine

/-- Settles O7: the case of `step_of_running` where the fetch and the decoder succeed. -/
theorem stepRunsDecoded : Obligations.StepRunsDecoded := by
  intro s i hrun hpc hd
  rw [step_of_running hrun, if_neg (Nat.not_le.2 hpc), hd]

/-! ## The locations the host may access (R80) -/

theorem memoryOpen_iff {s : State} {size n : Nat} : memoryOpen s size n = true ↔ s.run ≠ .running ∧ n < size := by
  rw [memoryOpen, Bool.and_eq_true, bne_iff_ne, decide_eq_true_iff]

theorem not_memoryOpen {s : State} {size n : Nat} (h : s.run = .running ∨ size ≤ n) : ¬ memoryOpen s size n = true := by
  rw [memoryOpen_iff]
  rintro ⟨hrun, hn⟩
  exact h.elim hrun (Nat.not_le.2 hn)

/-- Reading one word of IMEM after writing one (R85). -/
theorem wordAt_cellSet (s : State) (n : Nat) (w : Word) (m : Nat) :
    State.wordAt { s with imem := cellSet s.imem n w } m = if m = n then w else s.wordAt m := by
  simp only [State.wordAt, cellGet_cellSet]
  split <;> rfl

section locations
variable {c : Config} {s : State} {n : Nat}

theorem hostAccess_imem_refused (w : Word) (h : s.run = .running ∨ c.imemWords ≤ n) :
    hostAccess c (.imemRead n) s = (.refused, s) ∧ hostAccess c (.imemWrite n w) s = (.refused, s) :=
  ⟨if_neg (not_memoryOpen h), if_neg (not_memoryOpen h)⟩

theorem hostAccess_dmem_refused (b : Byte) (h : s.run = .running ∨ c.dmemBytes ≤ n) :
    hostAccess c (.dmemRead n) s = (.refused, s) ∧ hostAccess c (.dmemWrite n b) s = (.refused, s) :=
  ⟨if_neg (not_memoryOpen h), if_neg (not_memoryOpen h)⟩

theorem hostAccess_imem_ok (w : Word) (hrun : s.run ≠ .running) (hn : n < c.imemWords) :
    hostAccess c (.imemRead n) s = (.okWord (s.wordAt n), s)
      ∧ hostAccess c (.imemWrite n w) s = (.ok, { s with imem := cellSet s.imem n w }) :=
  ⟨if_pos (memoryOpen_iff.2 ⟨hrun, hn⟩), if_pos (memoryOpen_iff.2 ⟨hrun, hn⟩)⟩

theorem hostAccess_dmem_ok (b : Byte) (hrun : s.run ≠ .running) (hn : n < c.dmemBytes) :
    hostAccess c (.dmemRead n) s = (.okByte (s.byteAt n), s)
      ∧ hostAccess c (.dmemWrite n b) s = (.ok, { s with dmem := cellSet s.dmem n b }) :=
  ⟨if_pos (memoryOpen_iff.2 ⟨hrun, hn⟩), if_pos (memoryOpen_iff.2 ⟨hrun, hn⟩)⟩

end locations

/-! ## The CSRs (R47 to R49) -/

theorem writeCtrl_of_running {s : State} (h : s.run = .running) (v : BitVec 32) : writeCtrl s v = s := by
  rw [writeCtrl, start_of_not_idle (by rw [h]; nofun), clear_of_running h, ite_self, ite_self]

/-- A write of `ENTRY` keeps bits 15:0 of the value (R47). -/
theorem writeEntry_eq (s : State) (v : BitVec 32) :
    writeEntry s v = { s with entry := BitVec.ofNat 17 (v.toNat % 65536) } := by
  have hentry : (v.setWidth 16).setWidth 17 = BitVec.ofNat 17 (v.toNat % 65536) :=
    BitVec.eq_of_toNat_eq (by simp only [BitVec.toNat_setWidth, BitVec.toNat_ofNat])
  rw [writeEntry, hentry]

theorem hostCsrWrite_entry_of_running {s : State} (h : s.run = .running) (v : BitVec 32) :
    hostCsrWrite s 3 v = (.refused, s) := if_pos h

theorem hostCsrWrite_entry {s : State} (h : s.run ≠ .running) (v : BitVec 32) :
    hostCsrWrite s 3 v = (.ok, writeEntry s v) := if_neg h

theorem hostCsrWrite_other (s : State) {i : Nat} (v : BitVec 32) (h1 : i ≠ 1) (h3 : i ≠ 3) :
    hostCsrWrite s i v = (.ok, s) := by
  unfold hostCsrWrite
  split
  · exact absurd rfl h1
  · exact absurd rfl h3
  · rfl

theorem hostCsrWrite_of_running {s : State} (h : s.run = .running) (i : Nat) (v : BitVec 32) :
    (hostCsrWrite s i v).2 = s := by
  unfold hostCsrWrite
  split
  · exact writeCtrl_of_running h v
  · rw [if_pos h]
  · rfl

/-- In RUNNING the host "can change nothing at all" (R82). -/
theorem hostAccess_of_running (c : Config) {s : State} (h : s.run = .running) (q : HostRequest) :
    (hostAccess c q s).2 = s := by
  cases q with
  | csrRead i => rfl
  | csrWrite i v => exact hostCsrWrite_of_running h i v
  | imemRead n => rw [(hostAccess_imem_refused 0 (.inl h)).1]
  | imemWrite n w => rw [(hostAccess_imem_refused w (.inl h)).2]
  | dmemRead n => rw [(hostAccess_dmem_refused 0 (.inl h)).1]
  | dmemWrite n b => rw [(hostAccess_dmem_refused b (.inl h)).2]

/-- Settles O55: the answer of each transaction, and the one location that a write changes. -/
theorem hostPort : Obligations.HostPort := by
  refine ⟨fun q s h => hostAccess_of_running _ h q, fun i s => rfl, fun v s => rfl,
    fun v s h => congrArg Prod.fst (hostCsrWrite_entry_of_running h v),
    fun v s h => (hostCsrWrite_entry h v).trans (by rw [writeEntry_eq]),
    fun i v s h1 h3 => hostCsrWrite_other s v h1 h3, fun n w s h => hostAccess_imem_refused w h,
    fun a b s h => hostAccess_dmem_refused b h, fun n w s hrun hn => ?_, fun a b s hrun ha => ?_⟩
  · obtain ⟨hread, hwrite⟩ := hostAccess_imem_ok w hrun hn
    exact ⟨hread, _, hwrite, rfl, wordAt_cellSet s n w⟩
  · obtain ⟨hread, hwrite⟩ := hostAccess_dmem_ok b hrun ha
    exact ⟨hread, _, hwrite, rfl, byteAt_cellSet s.dmem a b⟩

end Sys2Proof.Machine
end

section
/-!
PROOFS. O1, O2: the encoder and the decoder agree (30_encoding.md R101 to R112). One way, the fields of an encoded word
read as the operands; the other way, a word whose bits outside its fields are zero is the encoding of its fields.
-/
namespace Sys2Proof

/-! ## From instructions to words -/

theorem halfFn_lt_64 (hd ha hb : Half) : halfFn hd ha hb < 64 := Nat.lt_trans (halfFn_lt hd ha hb) (by decide)

/-- Settles O1: the cases are the formats of R102 to R107; in each the fields of the encoded word are the operands. -/
theorem decodeEncode : Obligations.DecodeEncode := by
  intro i
  cases i with
  | nop | halt => simp [decode, encode, opField, whenZero, slice_encZ_op, slice_encZ_rest]
  | jmp imm => simp [decode, encode, opField, whenZero, imm16Field, slice_encJ_op, slice_encJ_zero, slice_encJ_imm]
  | ldi cr imm | addi cr imm | djnz cr imm =>
    simp [decode, encode, opField, whenZero, crFieldCI, imm16Field, slice_encCI_op, slice_encCI_zero, slice_encCI_cr,
      slice_encCI_imm]
  | ldf rd cr imm | stf rd cr imm | ldfm rd cr imm | stfm rd cr imm | selld cr imm | selst cr imm =>
    simp [decode, encode, opField, whenZero, rdField, crFieldM, imm16Field, slice_encM_op, slice_encM_rd,
      slice_encM_cr, slice_encM_zero, slice_encM_imm]
  | xdble rd ra rb e | xtple rd ra rb e | f2invn rd ra n =>
    simp [decode, encode, opField, whenZero, rdField, raField, rbField, imm11Field, slice_encRI_op, slice_encRI_rd,
      slice_encRI_ra, slice_encRI_rb, slice_encRI_imm]
  | fpadd rd hd ra ha rb hb | fpsub rd hd ra ha rb hb | fpmul rd hd ra ha rb hb | fpneg rd hd ra ha
  | fpinv rd hd ra ha | fpmov rd hd ra ha | fptom rd hd ra ha | fpfrm rd hd ra ha =>
    simp [decode, encode, opField, whenZero, rdField, raField, rbField, hdField, haField, hbField, halfFn_lt_64,
      halfFn_bits, slice_encR_op, slice_encR_rd, slice_encR_ra, slice_encR_rb, slice_encR_2, slice_encR_1, slice_encR_0,
      slice_encR_10_3, slice_encR_15_3]
  | f2add rd ra rb | f2sub rd ra rb | f2mul rd ra rb | f2sqr rd ra | f2inv rd ra | f2conj rd ra | f2mov rd ra
  | f2cmov rd ra | f2eq ra rb | f2isz ra | f2inv3 rd ra rb | xdbl rd ra rb | xtpl rd ra rb | xadd rd ra rb rc
  | xdbladd rd ra rb rc | get4iso rd ra rc | eval4iso rd ra rb | get3iso rd ra rc | eval3iso rd ra rb | jinvAc rd ra
  | jinvP24 rd ra | jinvM24 rd ra | geta rd ra rb rc =>
    simp [decode, encode, opField, whenZero, rdField, raField, rbField, rcField, slice_encR_op, slice_encR_rd,
      slice_encR_ra, slice_encR_rb, slice_encR_rc, slice_encR_fn, slice_encR_10_0, slice_encR_15_0, slice_encR_15_2,
      slice_encR_1_0]

/-! ## From words to instructions -/

theorem whenZero_eq_some {w : Word} {hi lo : Nat} {o : Option Instr} {i : Instr} :
    whenZero w hi lo o = some i ↔ slice w hi lo = 0 ∧ o = some i := Option.ite_none_right_eq_some

/-! ## Slices of slices (R13) -/

/-- A slice is its upper bits followed by its lower bits. -/
theorem slice_split (w : Word) (hi mid' mid lo : Nat) (h : lo ≤ mid ∧ mid + 1 = mid' ∧ mid' ≤ hi := by decide) :
    slice w hi lo = slice w hi mid' * 2 ^ (mid' - lo) + slice w mid lo := by
  obtain ⟨hlo, rfl, hhi⟩ := h
  have hwidth : hi - lo + 1 = (mid + 1 - lo) + (hi - (mid + 1) + 1) := by omega
  have hmid : mid - lo + 1 = mid + 1 - lo := by omega
  have hshift : mid + 1 = lo + (mid + 1 - lo) := by omega
  rw [slice, slice, slice, hwidth, hmid, pow_add, Nat.mod_mul, Nat.div_div_eq_div_mul, ← pow_add, ← hshift]
  ring

/-- The bits inside a slice that is zero are zero. -/
theorem slice_eq_zero_of_slice {w : Word} {hi lo hi' lo' : Nat} (h : slice w hi lo = 0)
    (hsub : lo ≤ lo' ∧ lo' ≤ hi' ∧ hi' ≤ hi := by decide) : slice w hi' lo' = 0 := by
  obtain ⟨hlo, hmid, hhi⟩ := hsub
  refine (slice_eq_iff w hi' lo' 0 (by positivity)).2 fun j hj => ?_
  have hbit := (slice_eq_iff w hi lo 0 (by positivity)).1 h (lo' - lo + j) (by omega)
  rwa [← Nat.add_assoc, Nat.add_sub_cancel' hlo, Nat.zero_testBit, ← Nat.zero_testBit j] at hbit

/-! ## What each field is worth (R102 to R108) -/

section fieldValues
variable (w : Word)

theorem val_rdField : (rdField w).val = slice w 25 21 := Nat.mod_eq_of_lt (slice_lt w 25 21)

theorem val_raField : (raField w).val = slice w 20 16 := Nat.mod_eq_of_lt (slice_lt w 20 16)

theorem val_rbField : (rbField w).val = slice w 15 11 := Nat.mod_eq_of_lt (slice_lt w 15 11)

theorem val_rcField : (rcField w).val = slice w 10 6 := Nat.mod_eq_of_lt (slice_lt w 10 6)

theorem val_crFieldCI : (crFieldCI w).val = slice w 25 23 := Nat.mod_eq_of_lt (slice_lt w 25 23)

theorem val_crFieldM : (crFieldM w).val = slice w 20 18 := Nat.mod_eq_of_lt (slice_lt w 20 18)

theorem toNat_imm16Field : (imm16Field w).toNat = slice w 15 0 := Nat.mod_eq_of_lt (slice_lt w 15 0)

theorem toNat_imm11Field : (imm11Field w).toNat = slice w 10 0 := Nat.mod_eq_of_lt (slice_lt w 10 0)
end fieldValues

theorem rdField_eq_zero {w : Word} (h : slice w 25 21 = 0) : rdField w = 0 := Fin.ext ((val_rdField w).trans h)

theorem rbField_eq_zero {w : Word} (h : slice w 15 11 = 0) : rbField w = 0 := Fin.ext ((val_rbField w).trans h)

theorem rcField_eq_zero {w : Word} (h : slice w 10 6 = 0) : rcField w = 0 := Fin.ext ((val_rcField w).trans h)

theorem hbField_eq_a {w : Word} (h : slice w 0 0 = 0) : hbField w = .a := if_pos h

theorem bit_ofBit {n : Nat} (h : n < 2) : (Half.ofBit n).bit = n := by
  interval_cases n <;> rfl

/-- The half-select bits together are the low bits of `fn` (R108). -/
theorem halfFn_fields (w : Word) : halfFn (hdField w) (haField w) (hbField w) = slice w 2 0 := by
  rw [halfFn, hdField, haField, hbField, bit_ofBit (slice_lt w 2 2), bit_ofBit (slice_lt w 1 1),
    bit_ofBit (slice_lt w 0 0), slice_split w 2 2 1 0, slice_split w 1 1 0 0]
  omega

/-! ## A word is the encoding of its fields

One lemma for each set of fields that an instruction uses; the bits outside them must be zero (R112). -/

section layouts
variable {w : Word} {op : Nat} (hop : opField w = op)
include hop

/-- A word is its opcode and the 26 bits below it (R101). -/
theorem ofNat_opField_add {n : Nat} (h : n = slice w 25 0) : BitVec.ofNat 32 (op * 2 ^ 26 + n) = w := by
  have hw : w.toNat = slice w 31 0 := by
    rw [slice, pow_zero, Nat.div_one, Nat.mod_eq_of_lt w.isLt]
  rw [h, ← hop, opField, ← slice_split w 31 26 25 0, ← hw, BitVec.ofNat_toNat, BitVec.setWidth_eq]

theorem encZ_of_fields (h : slice w 25 0 = 0) : encZ op = w := by
  rw [encZ, ← Nat.add_zero (op * 2 ^ 26), ofNat_opField_add hop h.symm]

theorem encJ_of_fields (h : slice w 25 16 = 0) : encJ op (imm16Field w) = w := by
  rw [encJ, ofNat_opField_add hop]
  rw [slice_split w 25 16 15 0, h, toNat_imm16Field, Nat.zero_mul, Nat.zero_add]

theorem encCI_of_fields (h : slice w 22 16 = 0) : encCI op (crFieldCI w) (imm16Field w) = w := by
  rw [encCI, Nat.add_assoc, ofNat_opField_add hop]
  rw [slice_split w 25 23 22 0, slice_split w 22 16 15 0, h, val_crFieldCI, toNat_imm16Field]
  omega

theorem encM_of_fields (h : slice w 17 16 = 0) : encM op (rdField w) (crFieldM w) (imm16Field w) = w := by
  simp only [encM, Nat.add_assoc]
  rw [ofNat_opField_add hop]
  rw [slice_split w 25 21 20 0, slice_split w 20 18 17 0, slice_split w 17 16 15 0, h, val_rdField, val_crFieldM,
    toNat_imm16Field]
  omega

theorem encM_of_fields_rd_zero (h : slice w 17 16 = 0) (hrd : slice w 25 21 = 0) :
    encM op 0 (crFieldM w) (imm16Field w) = w := by
  simpa only [rdField_eq_zero hrd] using encM_of_fields hop h

theorem encRI_of_fields : encRI op (rdField w) (raField w) (rbField w) (imm11Field w) = w := by
  simp only [encRI, Nat.add_assoc]
  rw [ofNat_opField_add hop]
  rw [slice_split w 25 21 20 0, slice_split w 20 16 15 0, slice_split w 15 11 10 0, val_rdField, val_raField,
    val_rbField, toNat_imm11Field]

theorem encRI_of_fields_rb_zero (hrb : slice w 15 11 = 0) : encRI op (rdField w) (raField w) 0 (imm11Field w) = w := by
  simpa only [rbField_eq_zero hrb] using encRI_of_fields hop

theorem encR_of_fields : encR op (rdField w) (raField w) (rbField w) (rcField w) (slice w 5 0) = w := by
  simp only [encR, Nat.add_assoc]
  rw [ofNat_opField_add hop]
  rw [slice_split w 25 21 20 0, slice_split w 20 16 15 0, slice_split w 15 11 10 0, slice_split w 10 6 5 0,
    val_rdField, val_raField, val_rbField, val_rcField]

theorem encR_of_four_regs (h : slice w 5 0 = 0) : encR op (rdField w) (raField w) (rbField w) (rcField w) 0 = w := by
  simpa only [h] using encR_of_fields hop

theorem encR_of_rd_ra_rc (h : slice w 5 0 = 0) (hrb : slice w 15 11 = 0) :
    encR op (rdField w) (raField w) 0 (rcField w) 0 = w := by
  simpa only [rbField_eq_zero hrb] using encR_of_four_regs hop h

theorem encR_of_fields_rc_zero {fn : Nat} (hrc : slice w 10 6 = 0) (hfn : slice w 5 0 = fn) :
    encR op (rdField w) (raField w) (rbField w) 0 fn = w := by
  simpa only [rcField_eq_zero hrc, hfn] using encR_of_fields hop

theorem encR_of_fields_rb_rc_zero {fn : Nat} (h : slice w 15 6 = 0) (hfn : slice w 5 0 = fn) :
    encR op (rdField w) (raField w) 0 0 fn = w := by
  simpa only [rbField_eq_zero (slice_eq_zero_of_slice h)] using
    encR_of_fields_rc_zero hop (slice_eq_zero_of_slice h) hfn

theorem encR_of_rd_ra_rb (h : slice w 10 0 = 0) : encR op (rdField w) (raField w) (rbField w) 0 0 = w :=
  encR_of_fields_rc_zero hop (slice_eq_zero_of_slice h) (slice_eq_zero_of_slice h)

theorem encR_of_ra_rb (h : slice w 10 0 = 0) (hrd : slice w 25 21 = 0) :
    encR op 0 (raField w) (rbField w) 0 0 = w := by
  simpa only [rdField_eq_zero hrd] using encR_of_rd_ra_rb hop h

theorem encR_of_rd_ra (h : slice w 15 0 = 0) : encR op (rdField w) (raField w) 0 0 0 = w :=
  encR_of_fields_rb_rc_zero hop (slice_eq_zero_of_slice h) (slice_eq_zero_of_slice h)

theorem encR_of_ra (h : slice w 15 0 = 0) (hrd : slice w 25 21 = 0) : encR op 0 (raField w) 0 0 0 = w := by
  simpa only [rdField_eq_zero hrd] using encR_of_rd_ra hop h

/-- `JINV`, whose form stands in the low bits of `fn` (R305). -/
theorem encR_of_rd_ra_fn {fn : Nat} (h : slice w 15 2 = 0) (hfn : slice w 1 0 = fn) :
    encR op (rdField w) (raField w) 0 0 fn = w := by
  refine encR_of_fields_rb_rc_zero hop (slice_eq_zero_of_slice h) ?_
  rw [slice_split w 5 2 1 0, hfn, slice_eq_zero_of_slice h, Nat.zero_mul, Nat.zero_add]

theorem encR_of_three_halves (h : slice w 10 3 = 0) :
    encR op (rdField w) (raField w) (rbField w) 0 (halfFn (hdField w) (haField w) (hbField w)) = w := by
  rw [halfFn_fields]
  refine encR_of_fields_rc_zero hop (slice_eq_zero_of_slice h) ?_
  rw [slice_split w 5 3 2 0, slice_eq_zero_of_slice h, Nat.zero_mul, Nat.zero_add]

theorem encR_of_two_halves (h : slice w 15 3 = 0) (hhb : slice w 0 0 = 0) :
    encR op (rdField w) (raField w) 0 0 (halfFn (hdField w) (haField w) .a) = w := by
  simpa only [rbField_eq_zero (slice_eq_zero_of_slice h), hbField_eq_a hhb] using
    encR_of_three_halves hop (slice_eq_zero_of_slice h)
end layouts

/-- Settles O2: an opcode fixes the fields, and where the other bits are zero the word is the encoding of its fields.
The opcode of `JINV` is the one that splits again, into its three forms. -/
theorem encodeDecode : Obligations.EncodeDecode := by
  intro w i h
  unfold decode at h
  split at h
  case' h_43 => split at h
  all_goals simp only [whenZero_eq_some, Option.some.injEq, reduceCtorEq, and_false] at h
  all_goals
    casesm* _ ∧ _, (_ : Instr) = _
    simp (disch := assumption) only [encode, encZ_of_fields, encJ_of_fields, encCI_of_fields, encM_of_fields,
      encM_of_fields_rd_zero, encRI_of_fields, encRI_of_fields_rb_zero, encR_of_four_regs, encR_of_rd_ra_rc,
      encR_of_rd_ra_rb, encR_of_ra_rb, encR_of_rd_ra, encR_of_ra, encR_of_rd_ra_fn, encR_of_three_halves,
      encR_of_two_halves]

/-- R110, R112: decoding and encoding are inverse to each other. -/
theorem decode_eq_some_iff {w : Word} {i : Instr} : decode w = some i ↔ encode i = w :=
  ⟨encodeDecode w i, fun h => h ▸ decodeEncode i⟩

/-- Settles O4: each instruction encodes to its word. -/
theorem specWordsDecode : Obligations.SpecWordsDecode := by
  unfold Obligations.SpecWordsDecode
  simp only [decode_eq_some_iff]
  decide

end Sys2Proof
end

section
/-!
PROOFS. O3: the decoder is the opcode table (30_encoding.md R110), row by row.
-/
namespace Sys2Proof

/-- Where a row's mask covers a whole slice, an accepted word has the slice of the row's match (R110). -/
theorem slice_eq_of_accepts {r : OpRow} {w : Word} (h : r.accepts w = true) {hi lo : Nat}
    (hmask : slice r.mask hi lo = 2 ^ (hi - lo + 1) - 1) : slice w hi lo = slice r.pattern hi lo := by
  refine (slice_eq_iff w hi lo _ (slice_lt r.pattern hi lo)).2 fun j hj => ?_
  have hbit : r.mask.getLsbD (lo + j) = true := by
    rw [← testBit_slice r.mask hi lo j hj, hmask, Nat.testBit_two_pow_sub_one, decide_eq_true hj]
  rw [testBit_slice r.pattern hi lo j hj, ← eq_of_beq h, BitVec.getLsbD_and, hbit, Bool.and_true]

/-- A word that a row accepts is the encoding of its fields, as an instruction of the row's mnemonic: one line for each
row, in the order of the table, with the fields that the row leaves open. -/
theorem encode_of_accepts {r : OpRow} (hr : r ∈ opTable) {w : Word} (h : r.accepts w = true) :
    ∃ i, encode i = w ∧ i.mnemonic = r.mnemonic := by
  have hs {hi lo : Nat} := slice_eq_of_accepts h (hi := hi) (lo := lo)
  fin_cases hr
  exacts [⟨.nop, encZ_of_fields (hs rfl) (hs rfl), rfl⟩,
    ⟨.halt, encZ_of_fields (hs rfl) (hs rfl), rfl⟩,
    ⟨.ldi .., encCI_of_fields (hs rfl) (hs rfl), rfl⟩,
    ⟨.addi .., encCI_of_fields (hs rfl) (hs rfl), rfl⟩,
    ⟨.jmp .., encJ_of_fields (hs rfl) (hs rfl), rfl⟩,
    ⟨.djnz .., encCI_of_fields (hs rfl) (hs rfl), rfl⟩,
    ⟨.ldf .., encM_of_fields (hs rfl) (hs rfl), rfl⟩,
    ⟨.stf .., encM_of_fields (hs rfl) (hs rfl), rfl⟩,
    ⟨.ldfm .., encM_of_fields (hs rfl) (hs rfl), rfl⟩,
    ⟨.stfm .., encM_of_fields (hs rfl) (hs rfl), rfl⟩,
    ⟨.selld .., encM_of_fields_rd_zero (hs rfl) (hs rfl) (hs rfl), rfl⟩,
    ⟨.selst .., encM_of_fields_rd_zero (hs rfl) (hs rfl) (hs rfl), rfl⟩,
    ⟨.fpadd .., encR_of_three_halves (hs rfl) (hs rfl), rfl⟩,
    ⟨.fpsub .., encR_of_three_halves (hs rfl) (hs rfl), rfl⟩,
    ⟨.fpneg .., encR_of_two_halves (hs rfl) (hs rfl) (hs rfl), rfl⟩,
    ⟨.fpmul .., encR_of_three_halves (hs rfl) (hs rfl), rfl⟩,
    ⟨.fpinv .., encR_of_two_halves (hs rfl) (hs rfl) (hs rfl), rfl⟩,
    ⟨.fpmov .., encR_of_two_halves (hs rfl) (hs rfl) (hs rfl), rfl⟩,
    ⟨.fptom .., encR_of_two_halves (hs rfl) (hs rfl) (hs rfl), rfl⟩,
    ⟨.fpfrm .., encR_of_two_halves (hs rfl) (hs rfl) (hs rfl), rfl⟩,
    ⟨.f2add .., encR_of_rd_ra_rb (hs rfl) (hs rfl), rfl⟩,
    ⟨.f2sub .., encR_of_rd_ra_rb (hs rfl) (hs rfl), rfl⟩,
    ⟨.f2mul .., encR_of_rd_ra_rb (hs rfl) (hs rfl), rfl⟩,
    ⟨.f2sqr .., encR_of_rd_ra (hs rfl) (hs rfl), rfl⟩,
    ⟨.f2inv .., encR_of_rd_ra (hs rfl) (hs rfl), rfl⟩,
    ⟨.f2conj .., encR_of_rd_ra (hs rfl) (hs rfl), rfl⟩,
    ⟨.f2mov .., encR_of_rd_ra (hs rfl) (hs rfl), rfl⟩,
    ⟨.f2cmov .., encR_of_rd_ra (hs rfl) (hs rfl), rfl⟩,
    ⟨.f2eq .., encR_of_ra_rb (hs rfl) (hs rfl) (hs rfl), rfl⟩,
    ⟨.f2isz .., encR_of_ra (hs rfl) (hs rfl) (hs rfl), rfl⟩,
    ⟨.f2inv3 .., encR_of_rd_ra_rb (hs rfl) (hs rfl), rfl⟩,
    ⟨.f2invn .., encRI_of_fields_rb_zero (hs rfl) (hs rfl), rfl⟩,
    ⟨.xdbl .., encR_of_rd_ra_rb (hs rfl) (hs rfl), rfl⟩,
    ⟨.xdble .., encRI_of_fields (hs rfl), rfl⟩,
    ⟨.xtpl .., encR_of_rd_ra_rb (hs rfl) (hs rfl), rfl⟩,
    ⟨.xtple .., encRI_of_fields (hs rfl), rfl⟩,
    ⟨.xadd .., encR_of_four_regs (hs rfl) (hs rfl), rfl⟩,
    ⟨.xdbladd .., encR_of_four_regs (hs rfl) (hs rfl), rfl⟩,
    ⟨.get4iso .., encR_of_rd_ra_rc (hs rfl) (hs rfl) (hs rfl), rfl⟩,
    ⟨.eval4iso .., encR_of_rd_ra_rb (hs rfl) (hs rfl), rfl⟩,
    ⟨.get3iso .., encR_of_rd_ra_rc (hs rfl) (hs rfl) (hs rfl), rfl⟩,
    ⟨.eval3iso .., encR_of_rd_ra_rb (hs rfl) (hs rfl), rfl⟩,
    ⟨.jinvAc .., encR_of_rd_ra_fn (hs rfl) (hs rfl) (hs rfl), rfl⟩,
    ⟨.jinvP24 .., encR_of_rd_ra_fn (hs rfl) (hs rfl) (hs rfl), rfl⟩,
    ⟨.jinvM24 .., encR_of_rd_ra_fn (hs rfl) (hs rfl) (hs rfl), rfl⟩,
    ⟨.geta .., encR_of_four_regs (hs rfl) (hs rfl), rfl⟩]

open Laws.EncodedRow in
/-- Every instruction's word is accepted by the row of its mnemonic (R110). -/
theorem encodedRow (i : Instr) : Statement i := by
  cases i
  exacts [nop, halt, ldi .., addi .., jmp .., djnz .., ldf .., stf .., ldfm .., stfm .., selld .., selst .., fpadd ..,
    fpsub .., fpneg .., fpmul .., fpinv .., fpmov .., fptom .., fpfrm .., f2add .., f2sub .., f2mul .., f2sqr ..,
    f2inv .., f2conj .., f2mov .., f2cmov .., f2eq .., f2isz .., f2inv3 .., f2invn .., xdbl .., xdble .., xtpl ..,
    xtple .., xadd .., xdbladd .., get4iso .., eval4iso .., get3iso .., eval3iso .., jinvAc .., jinvP24 ..,
    jinvM24 .., geta ..]

/-- A word that decodes is accepted by the row of its mnemonic. -/
theorem row_of_decode {w : Word} {i : Instr} (h : decode w = some i) :
    ∃ r ∈ opTable, r.mnemonic = i.mnemonic ∧ r.accepts w = true :=
  decode_eq_some_iff.1 h ▸ encodedRow i

theorem mnemonics_nodup : (opTable.map OpRow.mnemonic).Nodup := by decide

/-- The test of R110 is what the decoder does. -/
theorem accepts_iff_decode {r : OpRow} (hr : r ∈ opTable) {w : Word} :
    r.accepts w = true ↔ ∃ i, decode w = some i ∧ i.mnemonic = r.mnemonic := by
  constructor
  · intro h
    obtain ⟨i, hi, hname⟩ := encode_of_accepts hr h
    exact ⟨i, decode_eq_some_iff.2 hi, hname⟩
  · rintro ⟨i, hi, hname⟩
    obtain ⟨r', hr', hname', h⟩ := row_of_decode hi
    rwa [List.inj_on_of_nodup_map mnemonics_nodup hr hr' (hname.symm.trans hname'.symm)]

/-- Settles O3: an accepted word is the encoding of its fields, and every encoded word has its row. -/
theorem decodeFollowsTable : Obligations.DecodeFollowsTable :=
  ⟨rfl, mnemonics_nodup, fun _ hr _ => accepts_iff_decode hr, fun _ _ => row_of_decode⟩

end Sys2Proof
end

section
/-!
PROOFS. O5, O6: the words and the operands that are refused (30_encoding.md R111, R112, R114 to R116).
-/
namespace Sys2Proof.Machine

theorem decode_eq_none_of_not_accepts {w : Word} (h : ∀ r ∈ opTable, r.accepts w = false) : decode w = none :=
  Option.eq_none_iff_forall_ne_some.2 fun i hi => by
    obtain ⟨r, hr, -, hacc⟩ := row_of_decode hi
    exact Bool.false_ne_true ((h r hr).symm.trans hacc)

/-- The opcodes that R111 reserves. -/
abbrev ReservedOpcode (op : Nat) : Prop := op ∈ [0x00, 0x07, 0x0E, 0x0F, 0x24, 0x25, 0x26, 0x27] ∨ 0x34 ≤ op

theorem opTable_not_reserved : ∀ r ∈ opTable, ¬ ReservedOpcode (opField r.pattern) := by decide

theorem opTable_mask_opField : ∀ r ∈ opTable, opField r.mask = 2 ^ (31 - 26 + 1) - 1 := by decide

theorem opField_of_accepts {r : OpRow} (hr : r ∈ opTable) {w : Word} (h : r.accepts w = true) :
    opField w = opField r.pattern :=
  slice_eq_of_accepts h (opTable_mask_opField r hr)

theorem decode_eq_none_of_reserved {w : Word} (h : ReservedOpcode (opField w)) : decode w = none :=
  decode_eq_none_of_not_accepts fun r hr => Bool.eq_false_iff.2 fun hacc =>
    opTable_not_reserved r hr (opField_of_accepts hr hacc ▸ h)

/-- A word that is no instruction is taken as an exception at this `PC` (R111, R112). -/
theorem step_of_decode_eq_none {s : State} (hrun : s.run = .running) (hpc : s.pc < Config.core.imemWords)
    (h : decode (s.wordAt s.pc) = none) : step s = .next (takeTrap (.illegalInstruction (s.wordAt s.pc)) s) := by
  rw [step_of_running hrun, if_neg (Nat.not_le.2 hpc), h]

/-- Settles O5: no row has a reserved opcode, and a word that no row accepts does not decode. -/
theorem illegalInstruction : Obligations.IllegalInstruction :=
  ⟨fun _ hrun hpc h => step_of_decode_eq_none hrun hpc (decode_eq_none_of_reserved h), by decide, by decide,
    fun _ hrun hpc h => step_of_decode_eq_none hrun hpc (decode_eq_none_of_not_accepts h)⟩

/-! ## The operand checks (R114, R115, R116) -/

theorem pairOk_eq_false {k : FIdx} : pairOk k = false ↔ k = 31 := by revert k; decide

theorem tripleOk_eq_false {k : FIdx} : tripleOk k = false ↔ k = 30 ∨ k = 31 := by revert k; decide

theorem vectorOk_eq_false {k : FIdx} {n : Nat} : vectorOk k n = false ↔ 32 < k.val + n := by
  rw [vectorOk, decide_eq_false_iff_not, Nat.not_le]

theorem disjoint_eq_false {j k : FIdx} {m n : Nat} :
    disjoint j m k n = false ↔ j.val < k.val + n ∧ k.val < j.val + m := by
  rw [disjoint, Bool.or_eq_false_iff, decide_eq_false_iff_not, decide_eq_false_iff_not, Nat.not_le, Nat.not_le,
    and_comm]

theorem exec_of_not_wellFormed {i : Instr} (s : State) (h : i.wellFormed = false) :
    exec i s = .next (takeTrap (.illegalOperand (encode i)) s) :=
  exec_of_raises (if_neg (Bool.eq_false_iff.1 h))

theorem step_of_not_wellFormed {i : Instr} {s : State} (hrun : s.run = .running) (hpc : s.pc < Config.core.imemWords)
    (hd : decode (s.wordAt s.pc) = some i) (h : i.wellFormed = false) :
    step s = .next (takeTrap (.illegalOperand (s.wordAt s.pc)) s) := by
  rw [stepRunsDecoded s i hrun hpc hd, exec_of_not_wellFormed s h, encodeDecode _ i hd]

theorem mnemonic_of_not_wellFormed {i : Instr} (h : i.wellFormed = false) : i.mnemonic ∈ ["XDBL", "XDBLE", "XTPL",
    "XTPLE", "XADD", "XDBLADD", "GET4ISO", "EVAL4ISO", "GET3ISO", "EVAL3ISO", "JINV.AC", "JINV.P24", "JINV.M24",
    "F2INV3", "F2INVN"] := by
  cases i with
  | xdbl | xdble | xtpl | xtple | xadd | xdbladd | get4iso | eval4iso | get3iso | eval3iso | jinvAc | jinvP24 | jinvM24
  | f2inv3 | f2invn => rw [Instr.mnemonic]; decide
  | _ => cases h

theorem f2invn_wellFormed_eq_false {rd ra : FIdx} {n : BitVec 11} : (Instr.f2invn rd ra n).wellFormed = false ↔
    n = 0 ∨ 32 < n.toNat ∨ 32 < rd.val + n.toNat ∨ 32 < ra.val + n.toNat := by
  have hn : n = 0 ↔ n.toNat < 1 := by rw [BitVec.toNat_eq, BitVec.ofNat_eq_ofNat, BitVec.toNat_zero, Nat.lt_one_iff]
  simp only [Instr.wellFormed, Bool.and_eq_false_iff, decide_eq_false_iff_not, vectorOk_eq_false, Nat.not_le,
    hn, or_assoc]

theorem get4iso_wellFormed_eq_false {rd ra rc : FIdx} : (Instr.get4iso rd ra rc).wellFormed = false ↔
    rd = 31 ∨ ra = 31 ∨ rc = 30 ∨ rc = 31 ∨ (rc.val ≤ rd.val + 1 ∧ rd.val ≤ rc.val + 2) := by
  simp only [Instr.wellFormed, Bool.and_eq_false_iff, pairOk_eq_false, tripleOk_eq_false, disjoint_eq_false, or_assoc,
    Nat.lt_succ_iff, and_comm]

/-- Settles O6: what is refused is read off each check; the refusal is the first exception in the order of R345. -/
theorem illegalOperand : Obligations.IllegalOperand := by
  refine ⟨fun rd ra rb => ?_, fun rd ra rb e => ?_, fun rd ra rb rc => ?_, fun rd ra rb rc => ?_,
    fun _ _ _ => get4iso_wellFormed_eq_false, fun rd ra rb => ?_, fun rd ra rc => ?_, fun rd ra => ?_,
    fun rd ra rb => ?_, fun _ _ _ => f2invn_wellFormed_eq_false, fun _ => mnemonic_of_not_wellFormed,
    fun _ => exec_of_not_wellFormed, fun _ _ => step_of_not_wellFormed⟩
  all_goals
    simp only [List.forall_mem_cons, List.not_mem_nil, IsEmpty.forall_iff, implies_true, and_self,
      Instr.wellFormed, Bool.and_eq_false_iff, pairOk_eq_false, tripleOk_eq_false, disjoint_eq_false,
      decide_eq_false_iff_not, ne_eq, not_not, or_assoc]

end Sys2Proof.Machine
end

section
/-!
PROOFS. O33, O43, O45: the datapath (40_mp_datapath.md R131, R132, R134, R138) and the conditional move that runs on it
(44_fp2.md R238).
-/
namespace Sys2Proof.Machine

/-! ## The conditional move (R134, R238) -/

/-- The bit formula of R134 is `mp_cmov` (R38, R134). -/
theorem mpCmovBits_eq_mpCmov {c : Config} {d x : Nat} (hd : d < c.r) (hx : x < c.r) (v : Selector) :
    mpCmovBits c d x v = mpCmov d x v := by
  cases v with
  | zero => rw [mpCmovBits, selMask, Nat.zero_and, Nat.xor_zero, mpCmov]
  | allOnes =>
    have hmask : (c.r - 1) &&& (d ^^^ x) = d ^^^ x := by
      rw [Nat.and_comm]
      exact Nat.and_two_pow_sub_one_of_lt_two_pow (Nat.xor_lt_two_pow hd hx)
    rw [mpCmovBits, selMask, hmask, xor_cancel_left, mpCmov]

theorem mpCmov_eq_ite (d x : Nat) (v : Selector) : mpCmov d x v = if v = .allOnes then x else d := by
  cases v <;> rfl

theorem f2cmov_eq_ite (d x : Fp2) (v : Selector) : f2cmov d x v = if v = .allOnes then x else d := by
  cases v <;> rfl

/-- Settles O33: the effect of F2CMOV writes `f2cmov`, and the bit formula is `mp_cmov` for each selector. -/
theorem f2cmovResult : Obligations.F2cmovResult := by
  refine ⟨fun rd ra s d x hd hx hsel => ?_, fun c d x v hd hx => ?_⟩
  · have hvalid := valid_of_mem_bothHalves (valid_cons hd (valid_singleton hx))
    have hnone : raises Config.core (.f2cmov rd ra) s = none := raises_eq_none rfl hvalid (fun _ => hsel) nofun rfl rfl
    rw [← f2cmov_eq_ite, ← reg_of_regHolds hd, ← reg_of_regHolds hx]
    exact ⟨_, exec_of_none hnone, completes_of_writes hnone rfl rfl nofun, regHolds_setReg_self s rd _⟩
  · rw [mpCmovBits_eq_mpCmov hd hx, mpCmov_eq_ite]

/-! ## Sum and difference (R131, R132) -/

theorem mpSub_of_lt (c : Config) {a b : Nat} (h : a < b) : mpSub c a b = (a + c.r - b, 1) := if_pos h

theorem mpSub_of_le (c : Config) {a b : Nat} (h : b ≤ a) : mpSub c a b = (a - b, 0) := if_neg (Nat.not_lt.2 h)

theorem mpAdd_of_lt {c : Config} {a b : Nat} (h : a + b < c.r) : mpAdd c a b = (a + b, 0) := by
  rw [mpAdd, Nat.mod_eq_of_lt h, Nat.div_eq_of_lt h]

/-- A sum of two operands that does not fit leaves a carry of 1. -/
theorem mpAdd_of_le {c : Config} {a b : Nat} (ha : a < c.r) (hb : b < c.r) (h : c.r ≤ a + b) :
    mpAdd c a b = (a + b - c.r, 1) := by
  have hlt : a + b - c.r < c.r := by omega
  rw [mpAdd, Nat.mod_eq_sub_mod h, Nat.mod_eq_of_lt hlt, Nat.div_eq_sub_div c.r_pos h, Nat.div_eq_of_lt hlt]

theorem mpAdd_carry_le_one {c : Config} {a b : Nat} (ha : a < c.r) (hb : b < c.r) : (mpAdd c a b).2 ≤ 1 := by
  rcases Nat.lt_or_ge (a + b) c.r with h | h
  · rw [mpAdd_of_lt h]
    exact Nat.zero_le 1
  · rw [mpAdd_of_le ha hb h]

/-- Borrow, range and value of a difference (R132). -/
theorem mpSub_spec {c : Config} {a b : Nat} (ha : a < c.r) (hb : b < c.r) :
    (mpSub c a b).2 = (if a < b then 1 else 0) ∧ (mpSub c a b).1 < c.r
      ∧ ((mpSub c a b).1 : Int) = (a : Int) - b + (mpSub c a b).2 * c.r := by
  rcases Nat.lt_or_ge a b with h | h
  · rw [mpSub_of_lt c h, if_pos h]
    exact ⟨rfl, by omega, by omega⟩
  · rw [mpSub_of_le c h, if_neg (Nat.not_lt.2 h)]
    exact ⟨rfl, by omega, by omega⟩

/-- The difference modulo `R` (R132): it is in range and a multiple of `R` away. -/
theorem mpSub_eq_emod {c : Config} {a b : Nat} (ha : a < c.r) (hb : b < c.r) :
    ((mpSub c a b).1 : Int) = ((a : Int) - b) % c.r := by
  obtain ⟨-, hlt, hval⟩ := mpSub_spec ha hb
  rw [← Int.add_mul_emod_self_right ((a : Int) - b) (mpSub c a b).2 c.r, ← hval,
    Int.emod_eq_of_lt (Int.natCast_nonneg _) (Int.ofNat_lt.2 hlt)]

/-- Settles O43: a sum or a difference either fits or wraps once. -/
theorem mpAddSub : Obligations.MpAddSub := by
  intro c h
  have hr : 2 < c.r := Nat.lt_trans h.three_le h.p_lt_r
  refine ⟨fun a b ha hb => ⟨rfl, rfl, mpAdd_carry_le_one ha hb, (Nat.mod_add_div' (a + b) c.r).symm⟩,
    mpAdd_of_lt c.r_pos, ?_, ?_, fun a b ha hb => ?_, mpSub_of_le c (Nat.le_refl 0), ?_, fun a => ?_⟩
  · rw [mpAdd_of_le (by omega) (by omega) (by omega), Prod.mk.injEq]
    omega
  · rw [mpAdd_of_le (by omega) (by omega) (by omega), Prod.mk.injEq]
    omega
  · obtain ⟨hborrow, hlt, hval⟩ := mpSub_spec ha hb
    exact ⟨hborrow, hlt, mpSub_eq_emod ha hb, hval⟩
  · rw [mpSub_of_lt c Nat.one_pos, Nat.zero_add]
  · rw [mpSub_of_le c (Nat.le_refl a), Nat.sub_self]

/-! ## Montgomery reduction (R138) -/

section reduction
variable {c : Config} (h : c.WellFormed)
include h

/-- `PPRIME` is `-P^-1` modulo `R` (R12). -/
theorem cast_p_mul_pPrime : (c.p : ZMod c.r) * c.pPrime = -1 := by
  have hcast : ((c.p * c.pPrime % c.r : ℕ) : ZMod c.r) = ((c.r - 1 : ℕ) : ZMod c.r) := by rw [h.p_mul_pPrime]
  rwa [ZMod.natCast_mod, Nat.cast_mul, Nat.cast_sub c.r_pos, ZMod.natCast_self, Nat.cast_one, zero_sub] at hcast

/-- The division of the third step is exact: `m * P` is `-T` modulo `R`. -/
theorem r_dvd_add_montM_mul_p (t : Nat) : c.r ∣ t + montM c t * c.p := by
  rw [← ZMod.natCast_eq_zero_iff, montM]
  simp only [Nat.cast_add, Nat.cast_mul, ZMod.natCast_mod]
  linear_combination (t : ZMod c.r) * cast_p_mul_pPrime h

theorem montU_mul_r (t : Nat) : montU c t * c.r = t + montM c t * c.p :=
  Nat.div_mul_cancel (r_dvd_add_montM_mul_p h t)

theorem cast_montU (t : Nat) : (montU c t : ZMod c.p) = t * c.rInv := by
  have hu : (montU c t : ZMod c.p) * c.r = t := by
    have hcast := congrArg (Nat.cast : ℕ → ZMod c.p) (montU_mul_r h t)
    rwa [Nat.cast_mul, Nat.cast_add, Nat.cast_mul, ZMod.natCast_self, mul_zero, add_zero] at hcast
  rw [← hu, mul_assoc, cast_r_mul_rInv h, mul_one]

theorem montU_lt {t : Nat} (ht : t < c.p * c.r) : montU c t < 2 * c.p := by
  have hm : montM c t * c.p < c.r * c.p := Nat.mul_lt_mul_of_pos_right (Nat.mod_lt _ c.r_pos) h.p_pos
  refine Nat.lt_of_mul_lt_mul_right (a := c.r) ?_
  calc montU c t * c.r = t + montM c t * c.p := montU_mul_r h t
    _ < c.p * c.r + c.r * c.p := Nat.add_lt_add ht hm
    _ = 2 * c.p * c.r := by ring

theorem montReduce_mul_r (t : Nat) : montReduce c t * c.r % c.p = t % c.p := by
  rw [← Nat.ModEq, ← ZMod.natCast_eq_natCast_iff, Nat.cast_mul, cast_montReduce, mul_assoc,
    mul_comm (c.rInv : ZMod c.p), cast_r_mul_rInv h, mul_one]

omit h in
/-- Below `2P`, one conditional subtraction is reduction modulo `P`. -/
theorem montReduceSteps_eq_mod {t : Nat} (hu : montU c t < 2 * c.p) : montReduceSteps c t = montU c t % c.p := by
  rw [montReduceSteps]
  split
  · rw [Nat.mod_eq_sub_mod ‹_›, Nat.mod_eq_of_lt (by omega)]
  · rw [Nat.mod_eq_of_lt (by omega)]

theorem montReduceSteps_eq_montReduce {t : Nat} (ht : t < c.p * c.r) : montReduceSteps c t = montReduce c t := by
  rw [montReduceSteps_eq_mod (montU_lt h ht)]
  refine eq_of_cast_eq (Nat.mod_lt _ h.p_pos) (montReduce_lt h t) ?_
  rw [ZMod.natCast_mod, cast_montU h, cast_montReduce]
end reduction

/-- Settles O45: `u` is an exact quotient, equal to `T * R^-1` in `ZMod P`, and needs one subtraction to be reduced. -/
theorem montReduce_holds : Obligations.MontReduce := fun _ h t ht =>
  ⟨rfl, montReduce_lt h t, montReduce_mul_r h t, Nat.mod_eq_zero_of_dvd (r_dvd_add_montM_mul_p h t), montU_lt h ht,
    montReduceSteps_eq_montReduce h ht⟩

end Sys2Proof.Machine
end

section
/-!
PROOFS. O13 to O18: the control and counter instructions (41_control.md R160 to R165).
-/
namespace Sys2Proof.Machine

/-! ## Counters: what the instructions compute, and what a counter holds once it is written (R36, R163, R165) -/

/-- `ADDI` adds modulo 65536, its immediate signed (R163). -/
theorem toNat_addiValue (s : State) (cr : CIdx) (imm : BitVec 16) :
    ((addiValue s cr imm).toNat : Int) = ((s.counter cr).val.toNat + imm.toInt) % 65536 := by
  rw [addiValue, sext16, BitVec.toNat_ofInt, Int.toNat_of_nonneg (Int.emod_nonneg _ (by decide))]
  rfl

/-- `DJNZ` subtracts 1 modulo 65536 (R165). -/
theorem toNat_djnzValue (s : State) (cr : CIdx) :
    (djnzValue s cr).toNat = ((s.counter cr).val.toNat + 65535) % 65536 := by
  rw [djnzValue, BitVec.toNat_ofInt]
  omega

/-- `DJNZ` falls through from 1 alone; from 0 it wraps (R165). -/
theorem djnzValue_eq_zero_iff (s : State) (cr : CIdx) : djnzValue s cr = 0 ↔ (s.counter cr).val = 1 := by
  have hlt := (s.counter cr).val.isLt
  rw [BitVec.toNat_eq, BitVec.toNat_eq, toNat_djnzValue]
  simp only [BitVec.ofNat_eq_ofNat, BitVec.toNat_ofNat]
  omega

theorem counterHolds_setCounter (s : State) (cr : CIdx) (v : BitVec 16) : (s.setCounter cr v).counterHolds cr v := by
  rw [State.counterHolds, counter_setCounter, if_pos rfl]
  exact ⟨rfl, rfl⟩

/-- What a counter holds when `PC` has moved on after it was written. -/
theorem counterHolds_setCounter_advance (s : State) (cr : CIdx) (v : BitVec 16) :
    (s.setCounter cr v).advance.counterHolds cr v := counterHolds_setCounter s cr v

/-- On either way out of `DJNZ` its counter is readable (R165). -/
theorem valid_effect_djnz (c : Config) (cr : CIdx) (imm : BitVec 16) (s : State) :
    ((effect c (.djnz cr imm) s).counter cr).valid = true := by
  rw [effect]
  split <;> exact (counterHolds_setCounter s cr _).1

/-! ## What they raise (R37, R343) -/

/-- An instruction that reads a counter alone refuses an unwritten one (R37, R343). -/
theorem exec_of_invalid_counter {i : Instr} {s : State} {cr : CIdx} (hcr : (s.counter cr).valid = false)
    (hwf : i.wellFormed = true := by rfl) (hhalves : i.sourceHalves = [] := by rfl)
    (hsel : i.readsSel = false := by rfl) (hcounter : i.sourceCounter = some cr := by rfl) :
    exec i s = .next (takeTrap (.uninitRegister (0x100 + cr.val)) s) := by
  refine uninitRegister.1 i s _ hwf ?_
  simp [unreadableSource, hhalves, unreadable, hsel, hcounter, hcr]

/-- An instruction that reads a counter alone raises nothing where the counter is readable. -/
theorem raises_eq_none_of_counter {c : Config} {i : Instr} {s : State} {cr : CIdx} (hcr : (s.counter cr).valid = true)
    (hwf : i.wellFormed = true := by rfl) (hhalves : i.sourceHalves = [] := by rfl)
    (hsel : i.readsSel = false := by rfl) (hcounter : i.sourceCounter = some cr := by rfl)
    (hrange : rangeTrap c i s = none := by rfl) (hdata : dataTrap c i s = none := by rfl) :
    raises c i s = none := by
  rw [raises, if_pos hwf, unreadableSource_of_load hcr hhalves hsel hcounter, hrange, hdata]

/-- An instruction that reads no register and no memory raises nothing. -/
theorem raises_eq_none_of_no_source {c : Config} {i : Instr} (s : State) (hwf : i.wellFormed = true := by rfl)
    (hhalves : i.sourceHalves = [] := by rfl) (hsel : i.readsSel = false := by rfl)
    (hcounter : i.sourceCounter = none := by rfl) (haccess : i.access c = none := by rfl)
    (hdata : dataTrap c i s = none := by rfl) : raises c i s = none :=
  raises_eq_none_of_halves hwf (by simp [hhalves]) hsel hcounter haccess hdata

/-! ## NOP, HALT, LDI -/

/-- Settles O13: NOP reads nothing, so it raises nothing, and its effect is `pc + 1`. -/
theorem nopResult : Obligations.NopResult := by
  refine ⟨decode_eq_some_iff.2 rfl, rfl, fun s => ?_⟩
  have hnone : raises Config.core .nop s = none := raises_eq_none_of_no_source s
  exact ⟨_, exec_of_none hnone, completes_of_writes hnone rfl rfl nofun⟩

/-- Settles O14: HALT reads nothing, and the state it leaves does not run. -/
theorem haltResult : Obligations.HaltResult := by
  refine ⟨decode_eq_some_iff.2 rfl, rfl, fun s => ?_⟩
  have hnone : raises Config.core .halt s = none := raises_eq_none_of_no_source s
  exact ⟨_, exec_of_none hnone, frame_of_writes rfl, rfl, rfl, step_of_not_running nofun⟩

/-- Settles O15: LDI reads nothing, and its effect writes one counter. -/
theorem ldiResult : Obligations.LdiResult := by
  refine ⟨decode_eq_some_iff.2 rfl, fun cr imm s => ?_⟩
  have hnone : raises Config.core (.ldi cr imm) s = none := raises_eq_none_of_no_source s
  exact ⟨_, exec_of_none hnone, completes_of_writes hnone rfl rfl nofun,
    counterHolds_setCounter_advance s cr imm⟩

/-! ## ADDI and DJNZ -/

/-- Settles O16: the counter written holds `addiValue`. -/
theorem addiResult : Obligations.AddiResult := by
  refine ⟨decode_eq_some_iff.2 rfl, fun cr imm s hcr => ?_, fun cr imm s => exec_of_invalid_counter⟩
  have hnone : raises Config.core (.addi cr imm) s = none := raises_eq_none_of_counter hcr
  obtain ⟨hvalid, hval⟩ := counterHolds_setCounter_advance s cr (addiValue s cr imm)
  exact ⟨_, exec_of_none hnone, completes_of_writes hnone rfl rfl nofun, hvalid, hval ▸ toNat_addiValue s cr imm⟩

/-- Settles O18: the counter written holds `djnzValue`, which is 0 from 1 alone. -/
theorem djnzResult : Obligations.DjnzResult := by
  refine ⟨decode_eq_some_iff.2 rfl, fun cr imm s hcr => ?_, fun cr imm s => exec_of_invalid_counter⟩
  have hnone : raises Config.core (.djnz cr imm) s = none := raises_eq_none_of_counter hcr
  refine ⟨_, exec_of_none hnone, frame_of_writes rfl, effect_run _ _ s, valid_effect_djnz _ cr imm s, ?_, ?_⟩
  · rw [counter_effect_djnz, toNat_djnzValue]
  · rw [effect_pc rfl, pcAfter, ite_not]
    simp only [djnzValue_eq_zero_iff]

/-! ## JMP -/

/-- A jump to where `PC` already is changes nothing (R399). -/
@[simp] theorem jump_pc_self (s : State) : s.jump s.pc = s := rfl

/-- A fetch outside IMEM faults there (R42). -/
theorem step_of_pc_outside {s : State} (hrun : s.run = .running) (hpc : Config.core.imemWords ≤ s.pc) :
    step s = .next (takeTrap (.fetchFault s.pc) s) := by
  rw [step_of_running hrun, if_pos hpc]

/-- Settles O17: JMP writes `PC` alone, and the next fetch is at its target. -/
theorem jmpResult : Obligations.JmpResult := by
  have hnone : ∀ imm s, raises Config.core (.jmp imm) s = none := fun imm s => raises_eq_none_of_no_source s
  refine ⟨decode_eq_some_iff.2 rfl, fun imm s => ?_, fun imm s hrun htarget hpc hd => ?_⟩
  · exact ⟨_, exec_of_none (hnone imm s), frame_of_writes rfl, rfl, rfl,
      fun hrun hout => step_of_pc_outside (s := s.jump imm.toNat) hrun hout⟩
  · calc step s = exec (.jmp imm) s := stepRunsDecoded s _ hrun hpc hd
      _ = .next (s.jump imm.toNat) := exec_of_none (hnone imm s)
      _ = .next s := by rw [← htarget, jump_pc_self]

end Sys2Proof.Machine
end

section
/-!
PROOFS. O19, O20: where the two loads complete (42_memory_ops.md R181, R183). What a load of either width needs is
proved once; an instruction adds the element it writes.
-/
namespace Sys2Proof.Machine

/-- A load of two elements of `n` bytes each that is inside DMEM and below `P` completes with its effect (R76, R78). -/
theorem load_result {i : Instr} {s : State} {rd : FIdx} {cr : CIdx} {imm : BitVec 16} {n : Nat} {v : Fp2}
    (hread : unreadableSource i s = none) (hin : s.address cr imm + 2 * n ≤ Config.core.dmemBytes)
    (h1 : s.numberAt (s.address cr imm) n < Config.core.p)
    (h2 : s.numberAt (s.address cr imm + n) n < Config.core.p)
    (hheld : (effect Config.core i s).regHolds rd v)
    (ha : i.access Config.core = some (cr, imm, 2 * n) := by rfl)
    (hdata : dataTrap Config.core i s = elementTrap Config.core s (s.address cr imm) n := by rfl)
    (hwrites : instrWrites Config.core i s = Writes.ofRegs [rd] := by rfl)
    (hwf : i.wellFormed = true := by rfl) (hpc : pcAfter i s = s.pc + 1 := by rfl) (hhalt : i ≠ .halt := by nofun) :
    ∃ t, exec i s = .next t ∧ Completes (Writes.ofRegs [rd]) s t ∧ t.regHolds rd v := by
  have hnone : raises Config.core i s = none :=
    (raises_of_inside hwf hread ha hin).trans (hdata.trans (elementTrap_eq_none.2 ⟨h1, h2⟩))
  exact ⟨_, exec_of_none hnone, completes_of_writes hnone hwrites hpc hhalt, hheld⟩

/-- LDF leaves in its register the stored values `sto` of the two numbers it reads (R15, R181). -/
theorem regHolds_effect_ldf {c : Config} (hc : c.WellFormed) (rd : FIdx) (cr : CIdx) (imm : BitVec 16) (s : State) :
    (effect c (.ldf rd cr imm) s).regHolds rd
      { a := sto c (s.numberAt (s.address cr imm) c.nBytes)
        b := sto c (s.numberAt (s.address cr imm + c.nBytes) c.nBytes) } := by
  rw [← toMontgomery_eq_sto hc, ← toMontgomery_eq_sto hc]
  exact regHolds_setReg_self s rd _

/-- Settles O19: LDF writes the stored values of two canonical numbers. -/
theorem ldfResult : Obligations.LdfResult := fun rd cr imm s hcr hin h1 h2 =>
  load_result (unreadableSource_of_load hcr) hin h1 h2 (regHolds_effect_ldf Config.core_wellFormed rd cr imm s)

/-- Settles O20: LDFM writes the two numbers as it reads them. -/
theorem ldfmResult : Obligations.LdfmResult := fun rd cr imm s hcr hin h1 h2 =>
  load_result (unreadableSource_of_load hcr) hin h1 h2 (regHolds_effect_ldfm Config.core rd cr imm s)

end Sys2Proof.Machine
end

section
/-!
PROOFS. O27, O28, O47, O48: the GF(p) functions and the instructions that write them (43_fp.md R200 to R206, R208 to
R210).
-/
namespace Sys2Proof.Machine

/-! ## The instructions that write one half (R200) -/

/-- An instruction that reads halves alone, all readable, and whose effect writes `v` in one half, completes so. -/
theorem half_result {i : Instr} {s : State} {rd : FIdx} {hd : Half} {v : Nat}
    (hvalid : ∀ y ∈ i.sourceHalves, (s.half y.1 y.2).valid = true)
    (heffect : effect Config.core i s = (s.setHalf rd hd v).advance)
    (hwrites : instrWrites Config.core i s = Writes.ofHalves [(rd, hd)] := by rfl)
    (hwf : i.wellFormed = true := by rfl) (hsel : i.readsSel = false := by rfl)
    (hcounter : i.sourceCounter = none := by rfl) (haccess : i.access Config.core = none := by rfl)
    (hdata : dataTrap Config.core i s = none := by rfl) (hpc : pcAfter i s = s.pc + 1 := by rfl)
    (hhalt : i ≠ .halt := by nofun) :
    ∃ t, exec i s = .next t ∧ Completes (Writes.ofHalves [(rd, hd)]) s t ∧ (t.half rd hd).holds v := by
  have hnone := raises_eq_none_of_halves hwf hvalid hsel hcounter haccess hdata
  exact ⟨_, exec_of_none hnone, completes_of_writes hnone hwrites hpc hhalt, heffect ▸ holds_setHalf s rd hd v⟩

/-- Settles O27: the effects of FPADD, FPSUB and FPMUL write `fpadd`, `fpsub` and `fpmul`. -/
theorem fpBinaryResults : Obligations.FpBinaryResults := by
  rintro rd hd ra ha rb hb s x y ⟨hvx, rfl⟩ ⟨hvy, rfl⟩ hx hy
  have hvalid : ∀ z ∈ [(ra, ha), (rb, hb)], (s.half z.1 z.2).valid = true :=
    List.forall_mem_cons.2 ⟨hvx, List.forall_mem_singleton.2 hvy⟩
  rw [← fpadd_eq_mod hx hy, ← fpsub_eq_mod hx hy]
  exact ⟨half_result hvalid rfl, half_result hvalid rfl, half_result hvalid rfl⟩

/-- Settles O28: the effects of the four write `fpneg`, the value itself, and the conversions `sto` and `rep`. -/
theorem fpUnaryResults : Obligations.FpUnaryResults := by
  rintro rd hd ra ha s x ⟨hvx, rfl⟩ hx
  have hvalid : ∀ z ∈ [(ra, ha)], (s.half z.1 z.2).valid = true := List.forall_mem_singleton.2 hvx
  rw [← fpneg_eq_mod hx, ← sto, ← rep, ← toMontgomery_eq_sto Config.core_wellFormed, ← fromMontgomery_eq_rep]
  exact ⟨half_result hvalid rfl, half_result hvalid rfl, half_result hvalid rfl, half_result hvalid rfl⟩

/-! ## The datapaths (R201, R202) -/

theorem mpCmov_ite (d x : Nat) (q : Prop) [Decidable q] :
    mpCmov d x (if q then .allOnes else .zero) = if q then x else d := by
  split <;> rfl

section datapaths
variable {c : Config} {x y : Nat}

/-- The comparison with `P`, over the digits and the carry, is that of the sum itself. -/
theorem fpaddDatapath_eq_ite (c : Config) (x y : Nat) :
    fpaddDatapath c x y = if c.p ≤ x + y then (mpSub c (mpAdd c x y).1 c.p).1 else (mpAdd c x y).1 := by
  have hsum : (mpAdd c x y).1 + (mpAdd c x y).2 * c.r = x + y := Nat.mod_add_div' (x + y) c.r
  calc fpaddDatapath c x y
      = mpCmov (mpAdd c x y).1 (mpSub c (mpAdd c x y).1 c.p).1
          (if c.p ≤ (mpAdd c x y).1 + (mpAdd c x y).2 * c.r then .allOnes else .zero) := rfl
    _ = _ := by rw [hsum, mpCmov_ite]

/-- A carry of the sum is taken away by the borrow of the subtraction of `P`. -/
theorem fpaddDatapath_eq_fpadd (h : c.WellFormed) (hx : x < c.p) (hy : y < c.p) :
    fpaddDatapath c x y = fpadd c x y := by
  have hr := h.p_lt_r
  rw [fpaddDatapath_eq_ite, fpadd]
  refine ite_congr rfl (fun hge => ?_) (fun hlt => ?_)
  · rcases Nat.lt_or_ge (x + y) c.r with hfit | hcarry
    · rw [mpAdd_of_lt hfit, mpSub_of_le c hge]
    · rw [mpAdd_of_le (hx.trans hr) (hy.trans hr) hcarry, mpSub_of_lt c (by omega), Nat.sub_add_cancel hcarry]
  · rw [mpAdd_of_lt ((Nat.not_le.1 hlt).trans hr)]

theorem fpsubDatapath_eq_ite (c : Config) (x y : Nat) :
    fpsubDatapath c x y = if (mpSub c x y).2 = 1 then ((mpSub c x y).1 + c.p) % c.r else (mpSub c x y).1 :=
  mpCmov_ite (mpSub c x y).1 (((mpSub c x y).1 + c.p) % c.r) ((mpSub c x y).2 = 1)

/-- A borrow adds `P`, and the addition wraps in `R`. -/
theorem fpsubDatapath_eq_fpsub (h : c.WellFormed) (hy : y < c.p) : fpsubDatapath c x y = fpsub c x y := by
  have hr := h.p_lt_r
  rw [fpsubDatapath_eq_ite, fpsub]
  rcases Nat.lt_or_ge x y with hlt | hge
  · have hsum : x + c.r - y + c.p = x + c.p - y + c.r := by omega
    rw [mpSub_of_lt c hlt, if_pos rfl, if_pos hlt, hsum, Nat.add_mod_right, Nat.mod_eq_of_lt (by omega)]
  · rw [mpSub_of_le c hge, if_neg Nat.zero_ne_one, if_neg (Nat.not_lt.2 hge)]

theorem fpneg_fpneg (hx : x < c.p) : fpneg c (fpneg c x) = x := by
  refine eq_of_cast_eq (fpneg_lt (fpneg_lt hx)) hx ?_
  rw [cast_fpneg (fpneg_lt hx), cast_fpneg hx, neg_neg]

end datapaths

/-- Settles O47: the datapaths are `fpadd` and `fpsub`, and these are taken modulo `P`. -/
theorem fieldAddDatapath : Obligations.FieldAddDatapath := by
  intro c h x y hx hy
  rw [fpaddDatapath_eq_fpadd h hx hy, fpsubDatapath_eq_fpsub h hy]
  exact ⟨fpadd_eq_mod hx hy, fpadd_eq_mod hx hy, fpsub_eq_mod hx hy, fpsub_eq_mod hx hy, fpneg_eq_mod hx,
    fpneg_fpneg hx⟩

/-! ## The inverse (R206) -/

section inverse
variable {c : Config} (h : c.WellFormed)
include h

theorem fpinv_zero : fpinv c 0 = 0 := by
  have he : c.p - 2 ≠ 0 := by have := h.three_le; omega
  rw [fpinv_eq, rep, Nat.zero_mul, Nat.zero_mod, zero_pow he, Nat.zero_mod, Nat.zero_mul, Nat.zero_mod]

variable [Fact c.p.Prime]

/-- The stored inverse carries the factor `R` twice: once for the operand's, once for its own (R15). -/
theorem cast_fpinv_eq_inv (x : Nat) : (fpinv c x : ZMod c.p) = (x : ZMod c.p)⁻¹ * (c.r * c.r) := by
  rw [cast_fpinv, pow_sub_two_eq_inv h, mul_inv, inv_eq_of_mul_eq_one_left (cast_r_mul_rInv h), mul_assoc]

theorem cast_mul_fpinv {x : Nat} (hpos : 0 < x) (hx : x < c.p) : (x * fpinv c x : ZMod c.p) = c.r * c.r := by
  have hne : (x : ZMod c.p) ≠ 0 := fun h0 => hpos.ne' (eq_of_cast_eq hx h.p_pos (h0.trans Nat.cast_zero.symm))
  rw [cast_fpinv_eq_inv h, mul_inv_cancel_left₀ hne]

theorem fpmul_fpinv {x : Nat} (hpos : 0 < x) (hx : x < c.p) : fpmul c x (fpinv c x) = c.montOne := by
  refine eq_of_cast_eq (fpmul_lt h _ _) (montOne_lt h) ?_
  rw [cast_fpmul, cast_mul_fpinv h hpos hx, cast_montOne, mul_assoc, cast_r_mul_rInv h, mul_one]

theorem fpinv_fpinv {x : Nat} (hx : x < c.p) : fpinv c (fpinv c x) = x := by
  have hrr : (c.r * c.r : ZMod c.p) ≠ 0 := mul_self_ne_zero.2 (left_ne_zero_of_mul_eq_one (cast_r_mul_rInv h))
  refine eq_of_cast_eq (fpinv_lt h _) hx ?_
  rw [cast_fpinv_eq_inv h, cast_fpinv_eq_inv h, mul_inv, inv_inv, inv_mul_cancel_right₀ hrr]

end inverse

/-- Settles O48: exponentiation to `P - 2` is inversion in `ZMod P` where `P` is prime. -/
theorem fpinvLaw : Obligations.FpinvLaw := by
  intro c h
  refine ⟨fun x _ => fpinv_eq x, fpinv_zero h, fun hprime x hpos hx => ?_⟩
  have : Fact c.p.Prime := ⟨hprime⟩
  have hproduct : x * fpinv c x ≡ c.r * c.r [MOD c.p] := by
    rw [← ZMod.natCast_eq_natCast_iff, Nat.cast_mul, Nat.cast_mul, cast_mul_fpinv h hpos hx]
  exact ⟨fpmul_fpinv h hpos hx, hproduct, fpinv_fpinv h hx⟩

end Sys2Proof.Machine
end

section
/-!
PROOFS. O31, O49, O50: the square, the conjugate and the copy, and what the inversions of GF(p^2) return where `P` is
prime (44_fp2.md R234 to R237, R241, R242).
-/
namespace Sys2Proof.Machine

variable {c : Config}

/-! ## F2SQR, F2CONJ, F2MOV -/

/-- The real half of a square, `(a^2 - b^2) * R^-1` modulo `P` (R234). -/
theorem f2sqr_a_eq_emod (h : c.WellFormed) (x : Fp2) :
    ((f2sqr c x).a : Int) = ((x.a : Int) * x.a - x.b * x.b) * c.rInv % c.p := by
  rw [f2sqr_eq_f2mul, f2mul_a_eq_emod h]

/-- The imaginary half of a square, `2ab * R^-1` modulo `P` (R234). -/
theorem f2sqr_b_eq_emod (h : c.WellFormed) (x : Fp2) :
    ((f2sqr c x).b : Int) = (2 * (x.a : Int) * x.b) * c.rInv % c.p := by
  rw [f2sqr_eq_f2mul, f2mul_b_eq_emod h, show (x.a : Int) * x.b + x.b * x.a = 2 * x.a * x.b by ring]

theorem f2conj_eq_mod {x : Fp2} (hx : x.reduced c) : f2conj c x = { a := x.a, b := (c.p - x.b) % c.p } := by
  rw [f2conj, fpneg_eq_mod hx.2]

/-- Settles O31: the effects of the three write `f2sqr`, `f2conj` and the element itself. -/
theorem f2UnaryResults : Obligations.F2UnaryResults := by
  intro rd ra s x hx hxr
  have hvalid := valid_singleton hx
  obtain rfl := reg_of_regHolds hx
  have hsqr : ∃ t, exec (.f2sqr rd ra) s = .next t ∧ Completes (Writes.ofRegs [rd]) s t
      ∧ t.regHolds rd (f2sqr Config.core (s.reg ra)) :=
    exec_completes [ra] rfl hvalid (regHolds_setReg_self s rd _)
  obtain ⟨t, hexec, hcompl, hreg⟩ := hsqr
  refine ⟨⟨t, _, hexec, hcompl, hreg, f2sqr_a_eq_emod Config.core_wellFormed _,
    f2sqr_b_eq_emod Config.core_wellFormed _⟩, ?_, ?_⟩
  · rw [← f2conj_eq_mod hxr]
    exact exec_completes [ra] rfl hvalid (regHolds_setReg_self s rd _)
  · exact exec_completes [ra] rfl hvalid (regHolds_setReg_self s rd _)

/-! ## Zero elements and products -/

theorem isZero_iff_eq_zero (x : Fp2) : x.isZero ↔ x = Fp2.zero := by
  rw [Fp2.zero, Fp2.mk.injEq]

theorem fpadd_comm (c : Config) (x y : Nat) : fpadd c x y = fpadd c y x := by
  rw [fpadd, fpadd, Nat.add_comm]

theorem f2mul_comm (c : Config) (x y : Fp2) : f2mul c x y = f2mul c y x := by
  rw [f2mul, f2mul, fpmul_comm c x.a y.a, fpmul_comm c x.b y.b, fpmul_comm c x.a y.b, fpmul_comm c x.b y.a,
    fpadd_comm]

theorem value_eq_zero_iff (h : c.WellFormed) {x : Fp2} (hx : x.reduced c) : x.value c = 0 ↔ x.isZero := by
  rw [← denotes_zero_iff h]
  exact (and_iff_right hx).symm

theorem value_f2mul (h : c.WellFormed) {x y : Fp2} (hx : x.reduced c) (hy : y.reduced c) :
    (f2mul c x y).value c = x.value c * y.value c :=
  (denotes_f2mul h (denotes_value hx) (denotes_value hy)).2

theorem denotes_zero (h : c.WellFormed) : Fp2.zero.denotes c 0 := (denotes_zero_iff h).2 ⟨rfl, rfl⟩

theorem f2mul_zero (h : c.WellFormed) {x : Fp2} (hx : x.reduced c) : f2mul c x Fp2.zero = Fp2.zero :=
  denotes_unique h (denotes_congr (denotes_f2mul h (denotes_value hx) (denotes_zero h)) (mul_zero _)) (denotes_zero h)

/-! ## The recursion of the batched inversion (R242) -/

theorem invNFrom_cons (c : Config) (acc v : Fp2) (vs : List Fp2) :
    invNFrom c acc (v :: vs) =
      (f2mul c acc (invNFrom c (f2mul c acc v) vs).2 :: (invNFrom c (f2mul c acc v) vs).1,
        f2mul c (invNFrom c (f2mul c acc v) vs).2 v) := rfl

theorem invN_eq_of_invNFrom {v t : Fp2} {vs outs : List Fp2} (e : invNFrom c v vs = (outs, t)) :
    invN c v vs = t :: outs := by
  rw [invN, e]

section primeField
variable (h : c.WellFormed) [Fact c.p.Prime] [Fact (∀ r : ZMod c.p, r ^ 2 ≠ -1 + 0 * r)]
include h

/-- The inverse of zero is zero (R235). -/
theorem f2inv_zero : f2inv c Fp2.zero = Fp2.zero :=
  denotes_unique h (denotes_congr (denotes_f2inv h (denotes_zero h)) inv_zero) (denotes_zero h)

/-- There are no zero divisors where `P` is prime. -/
theorem f2mul_isZero_iff {x y : Fp2} (hx : x.reduced c) (hy : y.reduced c) :
    (f2mul c x y).isZero ↔ x.isZero ∨ y.isZero := by
  rw [← value_eq_zero_iff h (below_f2mul h x y), value_f2mul h hx hy, mul_eq_zero, value_eq_zero_iff h hx,
    value_eq_zero_iff h hy]

theorem f2mul_f2inv_self {x : Fp2} (hx : x.reduced c) (hx0 : ¬ x.isZero) : f2mul c x (f2inv c x) = f2one c := by
  have hvalue := mt (value_eq_zero_iff h hx).1 hx0
  have hproduct := denotes_f2mul h (denotes_value hx) (denotes_f2inv h (denotes_value hx))
  exact denotes_unique h (denotes_congr hproduct (mul_inv_cancel₀ hvalue)) (denotes_f2one h)

/-- The step of the batched inversion: from the inverse of a product to the inverse of its first factor (R242). -/
theorem f2inv_f2mul_mul_right {x y : Fp2} (hx : x.reduced c) (hy : y.reduced c) (hy0 : ¬ y.isZero) :
    f2mul c (f2inv c (f2mul c x y)) y = f2inv c x := by
  have hvalue := mt (value_eq_zero_iff h hy).1 hy0
  have hinv := denotes_f2inv h (denotes_f2mul h (denotes_value hx) (denotes_value hy))
  refine denotes_unique h (denotes_congr (denotes_f2mul h hinv (denotes_value hy)) ?_)
    (denotes_f2inv h (denotes_value hx))
  rw [mul_inv, inv_mul_cancel_right₀ hvalue]

/-- And to the inverse of its second factor. -/
theorem f2mul_left_f2inv_f2mul {x y : Fp2} (hx : x.reduced c) (hy : y.reduced c) (hx0 : ¬ x.isZero) :
    f2mul c x (f2inv c (f2mul c x y)) = f2inv c y := by
  rw [f2mul_comm c x, f2mul_comm c x y, f2inv_f2mul_mul_right h hy hx hx0]

/-! ## Three elements (R241) -/

theorem inv3Product_isZero_iff {z1 z2 z3 : Fp2} (h1 : z1.reduced c) (h2 : z2.reduced c) (h3 : z3.reduced c) :
    (inv3Product c z1 z2 z3).isZero ↔ z1.isZero ∨ z2.isZero ∨ z3.isZero := by
  rw [inv3Product, f2mul_isZero_iff h h3 (below_f2mul h z1 z2), f2mul_isZero_iff h h1 h2, or_comm, or_assoc]

/-- The inverse of a product of zero is zero, and every output is a multiple of it. -/
theorem inv3Way_of_zero {z1 z2 z3 : Fp2} (h1 : z1.reduced c) (h2 : z2.reduced c) (h3 : z3.reduced c)
    (h0 : (inv3Product c z1 z2 z3).isZero) :
    inv3Way c z1 z2 z3 = { k0 := Fp2.zero, k1 := Fp2.zero, k2 := Fp2.zero } := by
  have hinv : f2inv c (inv3Product c z1 z2 z3) = Fp2.zero := by rw [(isZero_iff_eq_zero _).1 h0, f2inv_zero h]
  rw [inv3Way, hinv, f2mul_zero h h3, f2mul_zero h (below_f2mul h z1 z2), f2mul_comm c _ z2, f2mul_comm c _ z1,
    f2mul_zero h h2, f2mul_zero h h1]

theorem inv3Way_of_ne_zero {z1 z2 z3 : Fp2} (h1 : z1.reduced c) (h2 : z2.reduced c) (h3 : z3.reduced c)
    (h10 : ¬ z1.isZero) (h20 : ¬ z2.isZero) (h30 : ¬ z3.isZero) :
    inv3Way c z1 z2 z3 = { k0 := f2inv c z1, k1 := f2inv c z2, k2 := f2inv c z3 } := by
  have h12 := below_f2mul h z1 z2
  have h120 : ¬ (f2mul c z1 z2).isZero := fun h0 => ((f2mul_isZero_iff h h1 h2).1 h0).elim h10 h20
  have k0 : f2mul c (f2inv c (f2mul c z1 z2)) z2 = f2inv c z1 := f2inv_f2mul_mul_right h h1 h2 h20
  have k1 : f2mul c (f2inv c (f2mul c z1 z2)) z1 = f2inv c z2 := by
    rw [f2mul_comm c _ z1, f2mul_left_f2inv_f2mul h h1 h2 h10]
  have k2 : f2mul c (f2mul c z1 z2) (f2inv c (f2mul c z3 (f2mul c z1 z2))) = f2inv c z3 := by
    rw [f2mul_comm c (f2mul c z1 z2), f2inv_f2mul_mul_right h h3 h12 h120]
  rw [inv3Way, inv3Product, f2mul_left_f2inv_f2mul h h3 h12 h30, k0, k1, k2]

/-! ## A vector of elements (R242) -/

/-- From a running product that is not zero on, the outputs are the inverses of the elements, and what is left in `t` is
the inverse of the running product. -/
theorem invNFrom_of_ne_zero {acc : Fp2} {vs : List Fp2} (hacc : acc.reduced c) (hvs : ∀ x ∈ vs, x.reduced c)
    (hacc0 : ¬ acc.isZero) (hvs0 : ∀ x ∈ vs, ¬ x.isZero) : invNFrom c acc vs = (vs.map (f2inv c), f2inv c acc) := by
  induction vs generalizing acc with
  | nil => rfl
  | cons v vs ih =>
    obtain ⟨hv, hvs⟩ := List.forall_mem_cons.1 hvs
    obtain ⟨hv0, hvs0⟩ := List.forall_mem_cons.1 hvs0
    have hprod0 : ¬ (f2mul c acc v).isZero := fun h0 => ((f2mul_isZero_iff h hacc hv).1 h0).elim hacc0 hv0
    rw [invNFrom_cons, ih (below_f2mul h acc v) hvs hprod0 hvs0, f2mul_left_f2inv_f2mul h hacc hv hacc0,
      f2inv_f2mul_mul_right h hacc hv hv0, List.map_cons]

/-- A zero among the running product and the elements makes the whole product zero, and with it every output and `t`. -/
theorem invNFrom_of_zero {acc : Fp2} {vs : List Fp2} (hacc : acc.reduced c) (hvs : ∀ x ∈ vs, x.reduced c)
    (h0 : ∃ x ∈ acc :: vs, x.isZero) : invNFrom c acc vs = (vs.map fun _ => Fp2.zero, Fp2.zero) := by
  induction vs generalizing acc with
  | nil =>
    obtain ⟨x, hx, hx0⟩ := h0
    rw [← List.mem_singleton.1 hx, (isZero_iff_eq_zero x).1 hx0, invNFrom, f2inv_zero h, List.map_nil]
  | cons v vs ih =>
    obtain ⟨hv, hvs⟩ := List.forall_mem_cons.1 hvs
    have hprod0 : ∃ x ∈ f2mul c acc v :: vs, x.isZero := by
      simpa only [List.exists_mem_cons_iff, f2mul_isZero_iff h hacc hv, or_assoc] using h0
    rw [invNFrom_cons, ih (below_f2mul h acc v) hvs hprod0, f2mul_comm c _ v, f2mul_zero h hacc, f2mul_zero h hv,
      List.map_cons]

end primeField

/-- Settles O49: a non-zero element has a non-zero value, and `f2inv` is the image of the inverse of the value. -/
theorem f2invLaw : Obligations.F2invLaw := by
  intro c h hp
  have : Fact c.p.Prime := ⟨hp⟩
  have : Fact (∀ r : ZMod c.p, r ^ 2 ≠ -1 + 0 * r) := ⟨neg_one_not_square h hp⟩
  refine ⟨fun x hx hx0 => ⟨?_, below_f2inv h x, f2mul_f2inv_self h hx hx0⟩, f2inv_zero h⟩
  rwa [ne_eq, f2norm_eq_zero_iff h (denotes_value hx), value_eq_zero_iff h hx]

/-- Settles O50: one inverse of the whole product gives each inverse by cancellation, or zero throughout. -/
theorem batchedInversion : Obligations.BatchedInversion := by
  intro c h hp
  have : Fact c.p.Prime := ⟨hp⟩
  have : Fact (∀ r : ZMod c.p, r ^ 2 ≠ -1 + 0 * r) := ⟨neg_one_not_square h hp⟩
  refine ⟨fun z1 z2 z3 h1 h2 h3 => ?_, fun v vs hred => ?_⟩
  · split
    case isTrue h0 => exact inv3Way_of_zero h h1 h2 h3 ((inv3Product_isZero_iff h h1 h2 h3).2 h0)
    case isFalse h0 =>
      obtain ⟨h10, h20, h30⟩ : ¬ z1.isZero ∧ ¬ z2.isZero ∧ ¬ z3.isZero := by rwa [not_or, not_or] at h0
      exact inv3Way_of_ne_zero h h1 h2 h3 h10 h20 h30
  · obtain ⟨hv, hvs⟩ := List.forall_mem_cons.1 hred
    refine ⟨fun hne => ?_, fun h0 => invN_eq_of_invNFrom (invNFrom_of_zero h hv hvs h0)⟩
    obtain ⟨hv0, hvs0⟩ := List.forall_mem_cons.1 hne
    exact invN_eq_of_invNFrom (invNFrom_of_ne_zero h hv hvs hv0 hvs0)

end Sys2Proof.Machine
end

section
/-!
PROOFS. O38, O51: repeated doubling and tripling, and the corner cases of the curve and isogeny sequences (45_curve.md,
46_isogeny.md). A corner case is a closed form of R271 to R304 that vanishes.
-/
namespace Sys2Proof.Machine

/-! ## XDBLE, XTPLE (R272, R274) -/

theorem repeatTimes_eq_iterate (g : Pair → Pair) (n : Nat) (p : Pair) : repeatTimes g n p = g^[n] p := by
  induction n generalizing p with
  | zero => rfl
  | succ n ih => exact ih (g p)

/-- Settles O38: the effect of each is `repeatTimes`, which iterates `xdbl` or `xtpl`. -/
theorem xdbleXtpleResults : Obligations.XdbleXtpleResults := by
  intro rd ra rb e s p k hrd hra hrb hp hk
  have hvalid := valid_append (valid_of_pairHolds hp) (valid_of_pairHolds hk)
  have hwf : (pairOk rd && pairOk ra && pairOk rb) = true := by
    simp [pairOk_of_ne hrd, pairOk_of_ne hra, pairOk_of_ne hrb]
  rw [← pair_of_pairHolds hp, ← pair_of_pairHolds hk, ← repeatTimes_eq_iterate, ← repeatTimes_eq_iterate]
  exact ⟨exec_completes (pairRegs ra ++ pairRegs rb) hwf hvalid (pairHolds_setPair_advance s rd _),
    exec_completes (pairRegs ra ++ pairRegs rb) hwf hvalid (pairHolds_setPair_advance s rd _)⟩

/-! ## Corner cases (R271, R273, R275, R301, R302, R304), by the values of the registers -/

section corners
variable {c : Config} (h : c.WellFormed)
include h

theorem isZero_iff_of_denotes {x : Fp2} {u : Fp2Value c} (hx : x.denotes c u) : x.isZero ↔ u = 0 := by
  rw [← value_eq_zero_iff h hx.1, hx.2]

variable {p : Pair} {X Z : Fp2Value c} (hX : p.x.denotes c X) (hZ : p.z.denotes c Z)
include hX hZ

theorem xdbl_z_isZero {k : Pair} {K L : Fp2Value c} (hK : k.x.denotes c K) (hL : k.z.denotes c L) (h0 : X * Z = 0) :
    (xdbl c p k).z.isZero :=
  (isZero_iff_of_denotes h (denotes_xdbl_z h hX hZ hK hL)).2 (by rw [mul_assoc 4, h0, mul_zero, zero_mul])

theorem xdbl_x_isZero {k : Pair} {L : Fp2Value c} (hL : k.z.denotes c L) (h0 : (X - Z) * (X + Z) = 0) :
    (xdbl c p k).x.isZero :=
  (isZero_iff_of_denotes h (denotes_xdbl_x h hX hZ hL)).2
    (by rw [mul_assoc, ← mul_pow, h0, zero_pow two_ne_zero, mul_zero])

theorem xdbl_x_of_infinity {k : Pair} {L : Fp2Value c} (hL : k.z.denotes c L) (h0 : Z = 0) :
    (xdbl c p k).x = f2mul c k.z (f2sqr c (f2sqr c p.x)) :=
  denotes_unique h (denotes_congr (denotes_xdbl_x h hX hZ hL) (by rw [h0]; ring))
    (denotes_f2mul h hL (denotes_f2sqr h (denotes_f2sqr h hX)))

theorem xtpl_x_isZero {k : Pair} {K L : Fp2Value c} (hK : k.x.denotes c K) (hL : k.z.denotes c L) (h0 : X = 0) :
    (xtpl c p k).x.isZero :=
  (isZero_iff_of_denotes h (denotes_xtpl h hX hZ hK hL rfl rfl).1).2 (by rw [h0, mul_zero, zero_mul])

theorem xtpl_z_isZero {k : Pair} {K L : Fp2Value c} (hK : k.x.denotes c K) (hL : k.z.denotes c L) (h0 : Z = 0) :
    (xtpl c p k).z.isZero :=
  (isZero_iff_of_denotes h (denotes_xtpl h hX hZ hK hL rfl rfl).2).2 (by rw [h0, mul_zero, zero_mul])

/-- The two products of R275 differ by twice the cross difference of the two points. -/
theorem xadd_z_isZero {q : Pair} {x : Fp2} {XQ ZQ D : Fp2Value c} (hXQ : q.x.denotes c XQ) (hZQ : q.z.denotes c ZQ)
    (hD : x.denotes c D) (h0 : D = 0 ∨ X * ZQ = XQ * Z) : (xadd c p q x).z.isZero := by
  rw [isZero_iff_of_denotes h (denotes_xadd h hX hZ hXQ hZQ hD rfl rfl).2]
  rcases h0 with hD0 | hcross
  · rw [hD0, zero_mul]
  · have hdiff : (X + Z) * (XQ - ZQ) - (X - Z) * (XQ + ZQ) = 0 := by linear_combination (-2) * hcross
    rw [hdiff, zero_pow two_ne_zero, mul_zero]

/-- Exchanging the points exchanges the two products of R275, and both results are symmetric in these. -/
theorem xadd_comm {q : Pair} {x : Fp2} {XQ ZQ D : Fp2Value c} (hXQ : q.x.denotes c XQ) (hZQ : q.z.denotes c ZQ)
    (hD : x.denotes c D) : xadd c p q x = xadd c q p x := by
  obtain ⟨hxs, hzs⟩ := denotes_xadd h hX hZ hXQ hZQ hD rfl rfl
  obtain ⟨hxs', hzs'⟩ := denotes_xadd h hXQ hZQ hX hZ hD rfl rfl
  rw [Pair.mk.injEq]
  exact ⟨denotes_unique h hxs (denotes_congr hxs' (by ring)), denotes_unique h hzs (denotes_congr hzs' (by ring))⟩

theorem get4iso_isZero (h0 : Z = 0) : (get4isoCurve c p).z.isZero ∧ (get4isoCoeffs c p).k0.isZero := by
  have hpow {n : ℕ} (hn : n ≠ 0) : 4 * Z ^ n = 0 := by rw [h0, zero_pow hn, mul_zero]
  exact ⟨(isZero_iff_of_denotes h (denotes_get4isoCurve h hX hZ).2).2 (hpow four_ne_zero),
    (isZero_iff_of_denotes h (denotes_get4isoCoeffs h hX hZ).1).2 (hpow two_ne_zero)⟩

/-- Under the degree-4 isogeny with kernel `(XQ : ZQ)`, infinity and the kernel itself map to infinity. -/
theorem eval4iso_z_isZero {q : Pair} {XQ ZQ : Fp2Value c} (hXQ : q.x.denotes c XQ) (hZQ : q.z.denotes c ZQ)
    (h0 : Z = 0 ∨ X * ZQ = XQ * Z) : (eval4iso c p (get4isoCoeffs c q)).z.isZero := by
  obtain ⟨hK0, hK1, hK2⟩ := denotes_get4isoCoeffs h hXQ hZQ
  have hz := denotes_congr (denotes_eval4iso h hX hZ hK0 hK1 hK2 rfl rfl rfl).2
    (v := 16 * Z * (Z * XQ ^ 2 - 2 * X * XQ * ZQ + Z * ZQ ^ 2) * (X * ZQ - XQ * Z) ^ 2) (by ring)
  rw [isZero_iff_of_denotes h hz]
  rcases h0 with hZ0 | hcross
  · rw [hZ0, mul_zero, zero_mul, zero_mul]
  · rw [hcross, sub_self, zero_pow two_ne_zero, mul_zero]

theorem eval3iso_z_isZero {k : Pair} {K0 K1 : Fp2Value c} (hK0 : k.x.denotes c K0) (hK1 : k.z.denotes c K1)
    (h0 : Z = 0 ∨ (X - Z) * K1 = (X + Z) * K0) : (eval3iso c p k).z.isZero := by
  rw [isZero_iff_of_denotes h (denotes_eval3iso h hX hZ hK0 hK1).2]
  rcases h0 with hZ0 | hkernel
  · rw [hZ0, zero_mul]
  · rw [hkernel, sub_self, zero_pow two_ne_zero, mul_zero]

end corners

/-- Settles O51: each hypothesis on the registers is an equation of their values, and there the closed form vanishes. -/
theorem curveCorners : Obligations.CurveCorners := by
  intro c h p q k x l hred
  simp only [List.forall_mem_cons, List.not_mem_nil, false_implies, implies_true, and_true] at hred
  obtain ⟨hpx, hpz, hqx, hqz, hkx, hkz, hx, hl⟩ := hred
  have hX := denotes_value hpx
  have hZ := denotes_value hpz
  have hXQ := denotes_value hqx
  have hZQ := denotes_value hqz
  have hK := denotes_value hkx
  have hL := denotes_value hkz
  have hD := denotes_value hx
  have hscale := denotes_value hl
  have hX0 := (value_eq_zero_iff h hpx).2
  have hZ0 := (value_eq_zero_iff h hpz).2
  refine ⟨fun h0 => ⟨?_, ?_, ?_, ?_⟩, fun h0 => ⟨?_, ?_⟩, fun heq => ?_, fun h0 => ?_, fun hcross => ?_, ?_,
    fun h0 => ?_, ?_, fun h0 => ?_, ?_, fun h0 => ?_, ?_⟩
  · exact xdbl_z_isZero h hX hZ hK hL (by rw [hZ0 h0, mul_zero])
  · exact xdbl_x_of_infinity h hX hZ hL (hZ0 h0)
  · exact xtpl_z_isZero h hX hZ hK hL (hZ0 h0)
  · exact eval3iso_z_isZero h hX hZ hK hL (.inl (hZ0 h0))
  · exact xdbl_z_isZero h hX hZ hK hL (by rw [hX0 h0, zero_mul])
  · exact xtpl_x_isZero h hX hZ hK hL (hX0 h0)
  · exact xdbl_x_isZero h hX hZ hL (by rw [heq, sub_self, zero_mul])
  · exact xdbl_x_isZero h hX hZ hL (by rw [(isZero_iff_of_denotes h (denotes_f2add hX hZ)).1 h0, mul_zero])
  · exact xadd_z_isZero h hX hZ hXQ hZQ hD
      (.inr (by rw [← value_f2mul h hpx hqz, hcross, value_f2mul h hqx hpz]))
  · exact xadd_z_isZero h hX hZ (denotes_f2mul h hscale hX) (denotes_f2mul h hscale hZ) hD (.inr (by ring))
  · exact xadd_z_isZero h hX hZ hXQ hZQ hD (.inl ((value_eq_zero_iff h hx).2 h0))
  · exact xadd_comm h hX hZ hXQ hZQ hD
  · exact get4iso_isZero h hX hZ (hZ0 h0)
  · exact eval4iso_z_isZero h hX hZ hX hZ (.inr rfl)
  · exact eval4iso_z_isZero h hX hZ hXQ hZQ (.inl (hZ0 h0))
  · obtain ⟨hK0, hK1⟩ := denotes_get3isoCoeffs hX hZ
    exact eval3iso_z_isZero h hX hZ hK0 hK1 (.inr (mul_comm _ _))

end Sys2Proof.Machine
end

section
/-!
PROOFS. O8, O9: trap entry, and which of several exceptions is reported (60_exceptions.md R345, R350).
-/
namespace Sys2Proof.Machine

/-- Settles O8: trap entry writes the record and `STATE` alone, and the host reads them by the maps of `StatusAndCsrs`;
that traps are precise is the FAULT clause of `TransitionTable`. -/
theorem trapEntry : Obligations.TrapEntry := by
  refine ⟨fun e s => ?_, fun _ => ⟨rfl, rfl⟩, fun _ => ⟨rfl, rfl⟩, fun _ => ⟨rfl, rfl⟩, fun _ => ⟨rfl, rfl⟩,
    fun _ => ⟨rfl, rfl⟩, fun _ => ⟨rfl, rfl⟩, fun _ => ⟨rfl, rfl⟩, fun s t hrun hstep hfault => ?_⟩
  · obtain ⟨⟨-, -, -, -, -, hcause, hepc, hfinfo, -⟩, ⟨-, -, -, hstatus, -⟩, hirq⟩ := statusAndCsrs (takeTrap e s)
    exact ⟨rfl, rfl, rfl, rfl, rfl, fun _ _ => rfl, fun _ => rfl, rfl, rfl, rfl, rfl, fun _ => rfl, fun _ => rfl,
      hstatus rfl, hirq.2 (.inr rfl), hcause, hepc, hfinfo⟩
  · obtain ⟨-, hrunning, -⟩ := transitionTable
    obtain ⟨-, -, hentry⟩ := hrunning s t hrun hstep
    exact hentry.1 hfault

/-- The effect of an instruction enters no trap: it leaves RUNNING for DONE alone (R44). -/
theorem effect_run_ne_fault {s : State} (c : Config) (i : Instr) (hrun : s.run = .running) :
    (effect c i s).run ≠ .fault := by
  rw [effect_run, hrun]
  split <;> nofun

/-- Settles O9: the fetch, the decoder, then what the instruction raises; where nothing is raised it has its effect. -/
theorem exceptionPriority : Obligations.ExceptionPriority := by
  refine fun s hrun => ⟨step_of_pc_outside hrun, step_of_decode_eq_none hrun, fun i hpc hd => ?_⟩
  have hstep : step s = exec i s := stepRunsDecoded s i hrun hpc hd
  exact ⟨fun e he => hstep.trans (exec_of_raises he),
    fun hnone => ⟨_, hstep.trans (exec_of_none hnone), effect_run_ne_fault _ i hrun⟩⟩

end Sys2Proof.Machine
end
